-- ==== Sys2Proof/Word.lean ====
section
/-! DEFINITION. Word.lean: the limb and the value of a Wide Integer (00_scope.md rule R13).

The limb width W is a parameter of the hardware (rule R10), so a limb is a natural number below 2^W and every operation
of the model narrows what it stores to that range (log entry 2). A Wide Integer of rule R13 is a list of limbs. The radix B
of the spec is written 2^W throughout. -/

namespace Sys2Proof

/-- The value of a Wide Integer, least significant limb first: the sum over i of x[i] * 2^(W*i) (rule R13). -/
def val (W : Nat) : List Nat → Nat
  | [] => 0
  | x :: xs => x + 2 ^ W * val W xs

/-- Every limb of the array is a W-bit value (rule R13: "an unsigned machine word of width W"). -/
abbrev LimbsFit (W : Nat) (xs : List Nat) : Prop := ∀ x ∈ xs, x < 2 ^ W

end Sys2Proof
end

