-- ==== Sys2Proof/Config.lean ====
section
/-! DEFINITION. Config.lean: what an implementation fixes (00_scope.md rule R10, 92_eei_decisions.md "OPEN parameters,
gathered") and the values the spec leaves free.

Every OPEN number of the spec (W, N, EA, EB, KDEPTH, OM_LIMBS, the list of bundles PSEL selects from) is plain data that
State carries as the parameters of the step relation (10_state.md rule R20), so that one definition of the step covers
every configuration; the free values (draws, durations) are opaque constants that no proof can evaluate. -/

namespace Sys2Proof

/-- The open fields of one parameter bundle (rule R10): W bits a limb, N limbs a single-width Wide Integer, the prime
2^EA * 3^EB - 1, and KDEPTH Karatsuba splitting levels. -/
structure ParamSet where
  W : Nat
  N : Nat
  EA : Nat
  EB : Nat
  KDEPTH : Nat
deriving DecidableEq, Repr

/-- The prime p = 2^EA * 3^EB - 1 of a bundle (rule R10). -/
def ParamSet.p (q : ParamSet) : Nat := 2 ^ q.EA * 3 ^ q.EB - 1

/-- The Montgomery radix R = 2^(W*N) (rule R10). -/
def ParamSet.R (q : ParamSet) : Nat := 2 ^ (q.W * q.N)

/-- The parameters of one engine: the implementation's list of bundles, which PSEL indexes, and the size OM_LIMBS of
operand memory (rule R10). -/
structure EngineParams where
  sets : List ParamSet
  omLimbs : Nat
deriving DecidableEq, Repr

/-- The constraints of rules R10 and R11 on a bundle in an engine with `omLimbs` cells that arithmetic on the four numbers
decides: W >= 2, N >= 1, EA >= 1, 4*p <= R, 4*N <= OM_LIMBS <= 1024, and 1 < p.
The remaining constraint, that p is prime, is `Machine.primeBundle`'s; a reset checks both (`Machine.validBundle`). -/
def ParamSet.admissible (q : ParamSet) (omLimbs : Nat) : Bool :=
  decide (2 ≤ q.W) && decide (1 ≤ q.N) && decide (1 ≤ q.EA) && decide (1 < q.p) && decide (4 * q.p ≤ q.R) &&
    decide (4 * q.N ≤ omLimbs) && decide (omLimbs ≤ 1024)

/-- The whole of rule R10's constraint on a bundle, primality of p included: the clear form of `Machine.validBundle`
(equal to it, `Machine.validBundle_iff`). -/
def ParamSet.Valid (q : ParamSet) (omLimbs : Nat) : Prop := q.admissible omLimbs = true ∧ Nat.Prime q.p

/-- Rule R12: the reference bundle `P751` (from general knowledge, not in source; PRESUMED, log entry 5). KDEPTH 1 is the
depth 95_test_vectors.md section 4 ran it with. -/
def ParamSet.P751 : ParamSet := { W := 64, N := 12, EA := 372, EB := 239, KDEPTH := 1 }

/-- Rule R12: the reference bundle `P964` (from general knowledge, not in source; PRESUMED, log entry 5). KDEPTH 2 is the
depth 95_test_vectors.md section 4 ran it with. -/
def ParamSet.P964 : ParamSet := { W := 64, N := 16, EA := 486, EB := 301, KDEPTH := 2 }

/-- The engine that `State.reset` describes: the two reference bundles in rule R12's order and the default OM_LIMBS = 1024
of rule R10 (DESIGN CHOICE and PRESUMED, log entry 5). -/
def EngineParams.reference : EngineParams := { sets := [.P751, .P964], omLimbs := 1024 }

/-- A draw (43_montgomery.md rule R125): limb `i` of the `d`-th array of limbs the spec leaves unspecified. No law holds
of it; the step narrows it to W bits (log entry 8). -/
opaque Config.freeLimb (d i : Nat) : Nat

/-- The duration LAT(op, PS, KDEPTH, la, lb, code) of a command (70_reset_and_hazards.md rule R177), an OPEN parameter; KDEPTH is
a field of the bundle's parameters. It takes no limb value, no address and no flag. -/
opaque Config.latency (op : BitVec 8) (bundle : ParamSet) (la lb code : Nat) : Nat

end Sys2Proof
end

