-- ==== Sys2Proof/Syntax.lean ====
section
/-! DEFINITION. Syntax.lean: the twelve commands, the response codes, the actions of the host and the assembler's
pseudo-instructions, as abstract syntax (30_encoding.md). -/

namespace Sys2Proof

/-- The command set (rule R60), one constructor per row of opcode_table.json. Operands stand in the order of rule R69's
syntax: destination first, then sources, then lengths; addresses are limb addresses, lengths are in limbs (rule R62). -/
inductive Instr where
  /-- `ADD dst, src1, src2, L` (rule R92). -/
  | add (dst src1 src2 len : Nat)
  /-- `SUB dst, src1, src2, L` (rule R94). -/
  | sub (dst src1 src2 len : Nat)
  /-- `MAC acc, x, y, k, m` (rule R102): acc is the dst field, x src1, y src2, k la, m lb. -/
  | mac (acc x y k m : Nat)
  /-- `KMUL dst, src1, src2` (rule R112). -/
  | kmul (dst src1 src2 : Nat)
  /-- `MRED dst, src1` (rule R124). -/
  | mred (dst src1 : Nat)
  /-- `FADD dst, src1, src2` (rule R131). -/
  | fadd (dst src1 src2 : Nat)
  /-- `FSUB dst, src1, src2` (rule R132). -/
  | fsub (dst src1 src2 : Nat)
  /-- `FNEG dst` (rule R133). -/
  | fneg (dst : Nat)
  /-- `FDIV2 dst, src1` (rule R134). -/
  | fdiv2 (dst src1 : Nat)
  /-- `FCORR dst` (rule R135). -/
  | fcorr (dst : Nat)
  /-- `FMUL dst, src1, src2` (rule R136). -/
  | fmul (dst src1 src2 : Nat)
  /-- `FSQR dst, src1` (rule R137). -/
  | fsqr (dst src1 : Nat)
deriving DecidableEq, Repr

/-- The twelve rows of rule R64's opcode map. -/
inductive Op where
  | add | sub | mac | kmul | mred | fadd | fsub | fneg | fdiv2 | fcorr | fmul | fsqr
deriving DecidableEq, Repr

/-- The five formats of rule R63. -/
inductive Format where
  | L3 | M | F3 | F2 | F1
deriving DecidableEq, Repr

/-- The operand fields of a command word (rule R61). -/
structure Fields where
  la : Nat
  lb : Nat
  dst : Nat
  src1 : Nat
  src2 : Nat
deriving DecidableEq, Repr

/-- The response codes of rules R75 and R152; codes 5, 6 and 7 are never returned, so they have no constructor. -/
inductive Code where
  /-- 0: the command was admitted and executed. -/
  | ok
  /-- 1: the word matches no row of rule R64. -/
  | illegalOp
  /-- 2: a length field is out of range (ADD, SUB, MAC). -/
  | badShape
  /-- 3: a buffer reaches past the end of operand memory. -/
  | badAddr
  /-- 4: the written buffer overlaps a read-only buffer. -/
  | badAlias
deriving DecidableEq, Repr

/-- The host's complete repertoire (rule R76). -/
inductive HostAction where
  /-- `ISSUE(cmd)`: hand the engine one 64-bit command word. -/
  | issue (cmd : BitVec 64)
  /-- `HWRITE(a, v)`: make cell a written with v. -/
  | hwrite (a v : Nat)
  /-- `HREAD(a)`. -/
  | hread (a : Nat)
  /-- `MemWrite(b, n, v)`: n bytes of v at byte address b. -/
  | memWrite (b n v : Nat)
  /-- `MemRead(b, n)`. -/
  | memRead (b n : Nat)
  /-- `HREADC()`. -/
  | hreadc
  /-- `HREADK(k, i)`: limb i of constant k. -/
  | hreadk (k i : Nat)
  /-- Reset, with the value of PSEL it samples (rule R30). -/
  | reset (psel : Nat)
deriving DecidableEq, Repr

/-- What an action of the host returns (rules R75, R76). -/
inductive Reply where
  /-- Nothing returned yet. -/
  | none
  /-- The response `(code, c)` of ISSUE; c is absent while the flag is unwritten (rule R75). -/
  | response (code : Code) (c : Option Bool)
  /-- The value HREAD, MemRead or HREADK returned. -/
  | value (v : Nat)
  /-- The flag HREADC returned. -/
  | flag (c : Bool)
  /-- HWRITE, MemWrite or reset is done; it returns nothing. -/
  | done
deriving DecidableEq, Repr

/-- The pseudo-instructions of rule R70, expanded by the host's assembler. -/
inductive Pseudo where
  /-- `FDBL dst, src`: double a Field Element. -/
  | fdbl (dst src : Nat)
  /-- `TOMONT dst, src, r2`: r2 is a buffer the host has filled with K.R2. -/
  | tomont (dst src r2 : Nat)
  /-- `FROMMONT dst, t, src`: t is a 2N-limb buffer the host has filled with src, zero-extended. -/
  | frommont (dst t src : Nat)
  /-- `SMULROW`: the product of the n-limb buffers a and b into the zeroed 2n-limb buffer out. -/
  | smulrow (out a b n : Nat)
deriving DecidableEq, Repr

end Sys2Proof
end

