-- ==== Sys2Proof/WellFormed.lean ====
section
/-! DEFINITION. WellFormed.lean: which instructions have a command word. A field is checked against the width rule R61
gives it; a length the command refuses (BAD_SHAPE) is no matter of form, since its word exists and is answered by a
rejection (30_encoding.md rule R65). -/

namespace Sys2Proof

/-- A limb address fits its 10-bit field (rule R61). -/
def addrFits (a : Nat) : Bool := decide (a < 2 ^ 10)

/-- A length fits its 8-bit field (rule R61). -/
def lenFits (n : Nat) : Bool := decide (n < 2 ^ 8)

/-- Every operand of the instruction fits the field that carries it. -/
def Instr.wellFormed : Instr → Bool
  | .add dst src1 src2 len => addrFits dst && addrFits src1 && addrFits src2 && lenFits len
  | .sub dst src1 src2 len => addrFits dst && addrFits src1 && addrFits src2 && lenFits len
  | .mac acc x y k m => addrFits acc && addrFits x && addrFits y && lenFits k && lenFits m
  | .kmul dst src1 src2 => addrFits dst && addrFits src1 && addrFits src2
  | .mred dst src1 => addrFits dst && addrFits src1
  | .fadd dst src1 src2 => addrFits dst && addrFits src1 && addrFits src2
  | .fsub dst src1 src2 => addrFits dst && addrFits src1 && addrFits src2
  | .fneg dst => addrFits dst
  | .fdiv2 dst src1 => addrFits dst && addrFits src1
  | .fcorr dst => addrFits dst
  | .fmul dst src1 src2 => addrFits dst && addrFits src1 && addrFits src2
  | .fsqr dst src1 => addrFits dst && addrFits src1

end Sys2Proof
end

