-- ==== Sys2Proof/Decode.lean ====
section
/-! DEFINITION. Decode.lean: the 64-bit command word (30_encoding.md rules R61 to R66): the opcode table, the decoder, total
on every word and rejecting by the response code ILLEGAL_OP, and the encoder written from the same tables. A command reaches
the engine by value (rule R60), so there is no byte order of words to decode. -/

namespace Sys2Proof

/-- The opcode and match value of a row (rule R64): "the match value is the opcode alone". -/
def Op.code : Op → BitVec 8
  | .add => 0x01#8
  | .sub => 0x02#8
  | .mac => 0x03#8
  | .kmul => 0x04#8
  | .mred => 0x05#8
  | .fadd => 0x10#8
  | .fsub => 0x11#8
  | .fneg => 0x12#8
  | .fdiv2 => 0x13#8
  | .fcorr => 0x14#8
  | .fmul => 0x15#8
  | .fsqr => 0x16#8

/-- The format of a row (rule R64). -/
def Op.format : Op → Format
  | .add | .sub => .L3
  | .mac => .M
  | .kmul | .fadd | .fsub | .fmul => .F3
  | .mred | .fdiv2 | .fsqr => .F2
  | .fneg | .fcorr => .F1

/-- The mask of a format (rule R63): the op field, rsv0, rsv1 and the format's zero fields. -/
def Format.mask : Format → BitVec 64
  | .L3 => 0xC0000000FFFF00FF#64
  | .M => 0xC0000000FF0000FF#64
  | .F3 => 0xC0000000FFFFFFFF#64
  | .F2 => 0xFFF00000FFFFFFFF#64
  | .F1 => 0xFFFFFC00FFFFFFFF#64

/-- The match value of a row as a 64-bit word (rule R64). -/
def Op.pattern (o : Op) : BitVec 64 := o.code.setWidth 64

/-- The rows of the opcode map (rule R64), in its order. -/
def opcodeTable : List Op :=
  [.add, .sub, .mac, .kmul, .mred, .fadd, .fsub, .fneg, .fdiv2, .fcorr, .fmul, .fsqr]

/-- A word belongs to a row when `cmd AND mask = match` (rule R63). -/
def Op.fits (o : Op) (w : BitVec 64) : Bool := w &&& o.format.mask == o.pattern

/-- The opcode field, bits [7:0] (rule R61). -/
def opField (w : BitVec 64) : BitVec 8 := w.extractLsb' 0 8

/-- The operand fields of a word (rule R61), each an unsigned integer used as it stands (rule R62). -/
def fieldsOf (w : BitVec 64) : Fields :=
  { la := (w.extractLsb' 8 8).toNat
    lb := (w.extractLsb' 16 8).toNat
    dst := (w.extractLsb' 32 10).toNat
    src1 := (w.extractLsb' 42 10).toNat
    src2 := (w.extractLsb' 52 10).toNat }

/-- The command of a row with given fields; the fields its format marks zero are not used (rules R63, R69). -/
def Op.build : Op → Fields → Instr
  | .add, f => .add f.dst f.src1 f.src2 f.la
  | .sub, f => .sub f.dst f.src1 f.src2 f.la
  | .mac, f => .mac f.dst f.src1 f.src2 f.la f.lb
  | .kmul, f => .kmul f.dst f.src1 f.src2
  | .mred, f => .mred f.dst f.src1
  | .fadd, f => .fadd f.dst f.src1 f.src2
  | .fsub, f => .fsub f.dst f.src1 f.src2
  | .fneg, f => .fneg f.dst
  | .fdiv2, f => .fdiv2 f.dst f.src1
  | .fcorr, f => .fcorr f.dst
  | .fmul, f => .fmul f.dst f.src1 f.src2
  | .fsqr, f => .fsqr f.dst f.src1

/-- Step 1 of rule R65: the row the word matches, or the rejection ILLEGAL_OP (rule R66: the decoder is total). -/
def decode (w : BitVec 64) : Except Code Instr :=
  match opcodeTable.find? (fun o => o.fits w) with
  | some o => .ok (o.build (fieldsOf w))
  | none => .error .illegalOp

/-- The row of an instruction. -/
def Instr.op : Instr → Op
  | .add _ _ _ _ => .add
  | .sub _ _ _ _ => .sub
  | .mac _ _ _ _ _ => .mac
  | .kmul _ _ _ => .kmul
  | .mred _ _ => .mred
  | .fadd _ _ _ => .fadd
  | .fsub _ _ _ => .fsub
  | .fneg _ => .fneg
  | .fdiv2 _ _ => .fdiv2
  | .fcorr _ => .fcorr
  | .fmul _ _ _ => .fmul
  | .fsqr _ _ => .fsqr

/-- The operand fields of an instruction, zero where its format has a zero field (rules R63, R69). -/
def Instr.fields : Instr → Fields
  | .add dst src1 src2 len => { la := len, lb := 0, dst := dst, src1 := src1, src2 := src2 }
  | .sub dst src1 src2 len => { la := len, lb := 0, dst := dst, src1 := src1, src2 := src2 }
  | .mac acc x y k m => { la := k, lb := m, dst := acc, src1 := x, src2 := y }
  | .kmul dst src1 src2 => { la := 0, lb := 0, dst := dst, src1 := src1, src2 := src2 }
  | .mred dst src1 => { la := 0, lb := 0, dst := dst, src1 := src1, src2 := 0 }
  | .fadd dst src1 src2 => { la := 0, lb := 0, dst := dst, src1 := src1, src2 := src2 }
  | .fsub dst src1 src2 => { la := 0, lb := 0, dst := dst, src1 := src1, src2 := src2 }
  | .fneg dst => { la := 0, lb := 0, dst := dst, src1 := 0, src2 := 0 }
  | .fdiv2 dst src1 => { la := 0, lb := 0, dst := dst, src1 := src1, src2 := 0 }
  | .fcorr dst => { la := 0, lb := 0, dst := dst, src1 := 0, src2 := 0 }
  | .fmul dst src1 src2 => { la := 0, lb := 0, dst := dst, src1 := src1, src2 := src2 }
  | .fsqr dst src1 => { la := 0, lb := 0, dst := dst, src1 := src1, src2 := 0 }

/-- The eight fields of a command word from bit 63 down (rule R61). -/
def catWord (rsv1 : BitVec 2) (src2 src1 dst : BitVec 10) (rsv0 lb la op : BitVec 8) : BitVec 64 :=
  rsv1 ++ src2 ++ src1 ++ dst ++ rsv0 ++ lb ++ la ++ op

/-- The word with given opcode and operand fields, the reserved fields zero (rule R61). -/
def packWord (op : BitVec 8) (f : Fields) : BitVec 64 :=
  catWord 0#2 (BitVec.ofNat 10 f.src2) (BitVec.ofNat 10 f.src1) (BitVec.ofNat 10 f.dst) 0#8 (BitVec.ofNat 8 f.lb)
    (BitVec.ofNat 8 f.la) op

/-- The command word of an instruction. -/
def encode (i : Instr) : BitVec 64 := packWord i.op.code i.fields

/-- The instruction the decoder reads from a table word of `nbits` bits; none where it refuses or where the number has more
bits than a command word. -/
def decodeTableWord (nbits w : Nat) : Option Instr :=
  if w % 2 ^ nbits < 2 ^ 64 then (decode (BitVec.ofNat 64 (w % 2 ^ nbits))).toOption else none

end Sys2Proof
end

