-- ==== Sys2Proof/Machine/Bundle.lean ====
section
/-! DEFINITION. Machine/Bundle.lean: the constant table K of the active bundle (10_state.md rule R24) and the derived
constants NPRIME and Z (43_montgomery.md rule R121, 00_scope.md rule R10). -/

namespace Sys2Proof.Machine

/-- The constant bundle PS as the machine holds it (rule R24): K.INFO (`info`, with the depth KDEPTH of rule R10) and the
four constant arrays. Only a reset writes it. -/
structure ConstBundle where
  info : ParamSet
  P : List Nat
  P2 : List Nat
  PP1 : List Nat
  R2 : List Nat
deriving DecidableEq, Repr

/-- The n low limbs of a number, least significant first (rule R13). -/
def toLimbs (W : Nat) : Nat → Nat → List Nat
  | 0, _ => []
  | n + 1, v => v % 2 ^ W :: toLimbs W n (v / 2 ^ W)

/-- The four constant arrays of a bundle (rule R24's table): p, 2p, p + 1 and R^2 mod p. -/
def ConstBundle.ofParams (q : ParamSet) : ConstBundle :=
  { info := q
    P := toLimbs q.W q.N q.p
    P2 := toLimbs q.W q.N (2 * q.p)
    PP1 := toLimbs q.W q.N (q.p + 1)
    R2 := toLimbs q.W q.N (q.R * q.R % q.p) }

abbrev ConstBundle.W (k : ConstBundle) : Nat := k.info.W
abbrev ConstBundle.N (k : ConstBundle) : Nat := k.info.N
abbrev ConstBundle.p (k : ConstBundle) : Nat := k.info.p
abbrev ConstBundle.R (k : ConstBundle) : Nat := k.info.R

/-- `(-p^(-1)) mod 2^k` for odd p, one bit at a time: the number x below 2^k with (p * x + 1) mod 2^k = 0. -/
def negInverse (p : Nat) : Nat → Nat
  | 0 => 0
  | k + 1 =>
    if (p * negInverse p k + 1) % 2 ^ (k + 1) = 0 then negInverse p k else negInverse p k + 2 ^ k

/-- K.NPRIME = (-p^(-1)) mod B (rule R121). -/
def ConstBundle.nprime (k : ConstBundle) : Nat := negInverse k.p k.W

/-- K.Z = floor(EA / W), the number of low zero limbs of K.PP1 (rules R10, R24). -/
def ConstBundle.z (k : ConstBundle) : Nat := k.info.EA / k.info.W

/-- The constant HREADK(k, i) names (rules R24, R76): limb i of constant k, or W, N, EA, EB for k = 4; none outside. -/
def ConstBundle.constant (b : ConstBundle) (k i : Nat) : Option Nat :=
  match k with
  | 0 => b.P[i]?
  | 1 => b.P2[i]?
  | 2 => b.PP1[i]?
  | 3 => b.R2[i]?
  | 4 => [b.info.W, b.info.N, b.info.EA, b.info.EB][i]?
  | _ => none

end Sys2Proof.Machine
end

