-- ==== Sys2Proof/Machine/State.lean ====
section
/-! DEFINITION. Machine/State.lean: the state of one engine (10_state.md), the reasons a step can stop, and the state after
reset (70_reset_and_hazards.md rule R170).

The architectural state is the triple (PS, OM, C) of rule R20. Beside it State carries the parameters of the step relation
(`params`), the host's side of the port (`pending`, `reply`) and the draw counter (`draws`); these are the model's own fields
(log entries 1, 4, 8). -/

namespace Sys2Proof.Machine

/-- Operand memory (rule R25): the written cells, a limb address and a limb each, at strictly rising addresses.
A cell that is not listed is unwritten. -/
abbrev Memory := List (Nat × Nat)

/-- The canonical form of operand memory: addresses strictly rising. -/
def Memory.wf : Memory → Bool
  | [] => true
  | (a, _) :: rest => rest.all (fun e => decide (a < e.1)) && Memory.wf rest

structure State where
  /-- The engine's parameters: the bundles PSEL selects from, and OM_LIMBS (rules R10, R20). -/
  params : EngineParams
  /-- PS, the constant bundle (rule R24). -/
  ps : ConstBundle
  /-- OM, the operand memory (rule R25). -/
  om : Memory
  /-- C, the carry/borrow flag (rule R23); `none` is rule R31's condition "unwritten". -/
  c : Option Bool
  /-- The number of draws made so far (the model's own field, log entry 8). -/
  draws : Nat
  /-- The host's next actions, in the order it performs them (rule R8; the model's own field, log entry 1). -/
  pending : List HostAction
  /-- What the host's latest action returned (rules R75, R76; the model's own field, log entry 4). -/
  reply : Reply
deriving DecidableEq, Repr

/-- Why the machine stops (60_exceptions.md rules R158, R165). None of these is an event of the real engine. -/
inductive Fault where
  /-- A command, HREAD or MemRead read the unwritten cell `a` (rule R158). Raised by the twelve commands and by both host
  read ports. Safe: the real engine goes on with whatever bits the cell holds. -/
  | unwrittenCell (a : Nat)
  /-- HREADC read the flag while it is unwritten (rules R31, R158; 95_test_vectors.md section 8: "`HREADC()` in the start state is a
  model fault (unwritten `C`)"). Raised by HREADC. Safe: the real flag holds some bit. -/
  | unwrittenFlag
  /-- The host used a port address outside operand memory and is stuck (rules R40, R165). Raised by HREAD, HWRITE, MemRead
  and MemWrite. Safe: no step exists. -/
  | stuckAddress
  /-- The host read a constant that does not exist and is stuck (rules R76, R165). Raised by HREADK. Safe: no step exists. -/
  | stuckConstant
  /-- The host used the byte port of a bundle whose W is no multiple of 8, and is stuck (rule R40). Raised by MemRead and
  MemWrite. Safe: no step exists. -/
  | stuckBytePort
deriving DecidableEq, Repr

/-- Why a step has no meaning. -/
inductive Refusal where
  /-- The model gives the instruction no meaning (raised by exec's arms only; no arm raises it now). Safe. -/
  | notModelled (mnemonic : String)
  /-- A reset sampled a PSEL that names no bundle of the implementation's list (rule R30). Raised by the reset action.
  Safe: it is not a configuration of the hardware. -/
  | noSuchBundle (psel : Nat)
  /-- A reset selected a bundle that breaks a constraint of rule R10 or R11: "the model refuses it at configuration time".
  Raised by the reset action. Safe: it is not a configuration of the hardware. -/
  | badBundle (psel : Nat)
deriving DecidableEq, Repr

/-- The state right after a reset that selected the bundle `q` (rule R170): PS complete, every cell of OM and C unwritten,
the engine idle. -/
def State.afterReset (params : EngineParams) (q : ParamSet) : State :=
  { params := params
    ps := ConstBundle.ofParams q
    om := []
    c := none
    draws := 0
    pending := []
    reply := .none }

/-- The machine right after reset: the reference engine with PSEL = 0 (log entry 5), nothing written, no action pending. -/
def State.reset : State := State.afterReset .reference .P751

end Sys2Proof.Machine
end

