-- ==== Sys2Proof/Machine/Flags.lean ====
section
/-! DEFINITION. Machine/Flags.lean: the one flag C (10_state.md rule R23). ADD, SUB and MAC write it; nothing else does and
no command reads it. -/

namespace Sys2Proof.Machine

/-- The flag a carry or borrow out stands for (rules R92, R94, R102): 1 for a carry, 0 for none. -/
def carryFlag (carry : Nat) : Bool := carry != 0

/-- C <- the carry or borrow out. -/
def State.setFlag (s : State) (carry : Nat) : State := { s with c := some (carryFlag carry) }

end Sys2Proof.Machine
end

