-- ==== Sys2Proof/Machine/Ops.lean ====
section
/-! DEFINITION. Machine/Ops.lean: the named operations over operand memory and the state (20_memory.md), the byte view of
memory (rule R42), the response to a command and its rejection (60_exceptions.md rule R151: the one exceptional outcome this
hardware has; there is no trap entry and no trap return, rules R156 and R157), and the draw (43_montgomery.md rule R125). -/

namespace Sys2Proof.Machine

/-- `OM[a]`: the limb of a written cell; none for an unwritten cell (rule R25). -/
def Memory.read : Memory → Nat → Option Nat
  | [], _ => none
  | (b, v) :: rest, a => if a = b then some v else Memory.read rest a

/-- `OM[a] <- v`, keeping addresses strictly rising. -/
def Memory.write : Memory → Nat → Nat → Memory
  | [], a, v => [(a, v)]
  | (b, w) :: rest, a, v =>
    if a < b then (a, v) :: (b, w) :: rest
    else if a = b then (a, v) :: rest
    else (b, w) :: Memory.write rest a v

/-- `OM[a .. a+L-1] <- xs`, limb 0 at address a (rule R41). -/
def Memory.writeMany : Memory → Nat → List Nat → Memory
  | m, _, [] => m
  | m, a, x :: xs => Memory.writeMany (m.write a x) (a + 1) xs

/-- `OM[a .. a+n-1]`, limb 0 at address a (rule R41), or the fault on its first unwritten cell (rule R158). -/
def Memory.readMany (m : Memory) (a : Nat) : Nat → Except Fault (List Nat)
  | 0 => .ok []
  | n + 1 =>
    match m.read a with
    | none => .error (.unwrittenCell a)
    | some x =>
      match Memory.readMany m (a + 1) n with
      | .error f => .error f
      | .ok xs => .ok (x :: xs)

/-- BPL = W / 8, the bytes of a limb (rule R42). -/
def bytesPerLimb (W : Nat) : Nat := W / 8

/-- Byte address b names bits [8*(b mod BPL)+7 : 8*(b mod BPL)] of cell b div BPL (rule R42); none in an unwritten cell. -/
def Memory.readByte (W : Nat) (m : Memory) (b : Nat) : Option Nat :=
  (m.read (b / bytesPerLimb W)).map fun v => v / 2 ^ (8 * (b % bytesPerLimb W)) % 2 ^ 8

/-- `MemRead(b, n)`: the sum over j < n of byte(b + j) * 2^(8*j) (rule R42), or the fault on the first unwritten cell. -/
def Memory.readBytes (W : Nat) (m : Memory) (b : Nat) : Nat → Except Fault Nat
  | 0 => .ok 0
  | n + 1 =>
    match m.readByte W b with
    | none => .error (.unwrittenCell (b / bytesPerLimb W))
    | some x =>
      match Memory.readBytes W m (b + 1) n with
      | .error f => .error f
      | .ok y => .ok (x + 2 ^ 8 * y)

/-- The byte at address `addr` after `MemWrite(b, n, v)`: `(v >> (8*j)) AND 0xFF` at b + j for j < n, else what it was. -/
def byteAfterWrite (b n v addr old : Nat) : Nat :=
  if b ≤ addr ∧ addr < b + n then v / 2 ^ (8 * (addr - b)) % 2 ^ 8 else old

/-- The number whose bytes, from byte address `addr` on, are those of `old` after `MemWrite(b, n, v)`. -/
def bytesAfterWrite (b n v : Nat) : Nat → Nat → Nat → Nat
  | _, _, 0 => 0
  | addr, old, k + 1 =>
    byteAfterWrite b n v addr (old % 2 ^ 8) + 2 ^ 8 * bytesAfterWrite b n v (addr + 1) (old / 2 ^ 8) k

/-- `MemWrite(b, n, v)` on one cell: a written cell gets the bytes that fall into it; an unwritten cell becomes written when
all its bytes are covered and stays unwritten otherwise (rule R42). -/
def Memory.writeBytesCell (W : Nat) (m : Memory) (b n v cell : Nat) : Memory :=
  match m.read cell with
  | some old => m.write cell (bytesAfterWrite b n v (cell * bytesPerLimb W) old (bytesPerLimb W))
  | none =>
    if b ≤ cell * bytesPerLimb W ∧ cell * bytesPerLimb W + bytesPerLimb W ≤ b + n then
      m.write cell (bytesAfterWrite b n v (cell * bytesPerLimb W) 0 (bytesPerLimb W))
    else m

/-- `MemWrite(b, n, v)` on `count` cells from `cell` on. -/
def Memory.writeBytesFrom (W : Nat) (b n v : Nat) : Memory → Nat → Nat → Memory
  | m, _, 0 => m
  | m, cell, count + 1 => Memory.writeBytesFrom W b n v (m.writeBytesCell W b n v cell) (cell + 1) count

/-- `MemWrite(b, n, v)` (rule R42): every cell that holds a byte of the range, in order. No byte for n = 0 (log entry 11). -/
def Memory.writeBytes (W : Nat) (m : Memory) (b n v : Nat) : Memory :=
  if n = 0 then m
  else Memory.writeBytesFrom W b n v m (b / bytesPerLimb W) ((b + n - 1) / bytesPerLimb W + 1 - b / bytesPerLimb W)

/-- The response `(code, c)` of ISSUE (rule R75): c is the flag as it stands. -/
def State.respond (s : State) (code : Code) : State := { s with reply := .response code s.c }

/-- `reject <Code>` (rule R151): the command ends at once; OM, C and PS are untouched, the response carries the code. -/
def State.reject (s : State) (code : Code) : Host.Outcome State Fault Refusal := .next (s.respond code)

/-- `OM[dst ..] <- xs`. -/
def State.writeBuffer (s : State) (dst : Nat) (xs : List Nat) : State := { s with om := s.om.writeMany dst xs }

/-- A command that leaves C unchanged ends: its result is written, the response is OK. -/
def State.complete (s : State) (dst : Nat) (xs : List Nat) : Host.Outcome State Fault Refusal :=
  .next ((s.writeBuffer dst xs).respond .ok)

/-- A command that writes C ends (ADD, SUB, MAC): its result and its carry or borrow out are written, the response is OK. -/
def State.completeWithFlag (s : State) (dst : Nat) (r : List Nat × Nat) : Host.Outcome State Fault Refusal :=
  .next (((s.writeBuffer dst r.1).setFlag r.2).respond .ok)

/-- A draw of n limbs (rule R125), each a W-bit value with no law, and the state that has made it. -/
def State.drawLimbs (s : State) (n : Nat) : List Nat × State :=
  ((List.range n).map fun i => Config.freeLimb s.draws i % 2 ^ s.ps.W, { s with draws := s.draws + 1 })

/-- The host's HWRITE, HREAD address lies in operand memory (rule R40). -/
def State.hasCell (s : State) (a : Nat) : Bool := decide (a < s.params.omLimbs)

/-- The byte range lies in operand memory (rule R40). -/
def State.hasBytes (s : State) (b n : Nat) : Bool := decide (b + n ≤ s.params.omLimbs * bytesPerLimb s.ps.W)

/-- The byte port exists only when W mod 8 = 0 (rule R40). -/
def State.hasBytePort (s : State) : Bool := s.ps.W % 8 == 0

end Sys2Proof.Machine
end

