-- ==== Sys2Proof/Machine/Operands.lean ====
section
/-! DEFINITION. Machine/Operands.lean: the buffers of each command (30_encoding.md rule R72), the admission of a command
(rule R65, 60_exceptions.md rule R154) and the fetch of a source buffer (20_memory.md rule R49). -/

namespace Sys2Proof.Machine

/-- A buffer: cells base .. base + len - 1 (10_state.md rule R26). -/
structure Buffer where
  base : Nat
  len : Nat
deriving DecidableEq, Repr

/-- Two buffers share a cell (rule R72): f1 < f2 + n2 and f2 < f1 + n1. -/
def Buffer.overlaps (x y : Buffer) : Bool := decide (x.base < y.base + y.len) && decide (y.base < x.base + x.len)

/-- The buffer lies inside operand memory: f + n <= OM_LIMBS (rule R65). -/
def Buffer.inside (x : Buffer) (omLimbs : Nat) : Bool := decide (x.base + x.len ≤ omLimbs)

/-- The cell lies in the buffer. -/
def Buffer.contains (x : Buffer) (a : Nat) : Bool := decide (x.base ≤ a) && decide (a < x.base + x.len)

/-- The read-only buffers of a command (rule R72, the rows marked R), N limbs a single-width Wide Integer. -/
def readOnlyBuffers (N : Nat) : Instr → List Buffer
  | .add _ src1 src2 len => [⟨src1, len⟩, ⟨src2, len⟩]
  | .sub _ src1 src2 len => [⟨src1, len⟩, ⟨src2, len⟩]
  | .mac _ x y k _ => [⟨x, 1⟩, ⟨y, k⟩]
  | .kmul _ src1 src2 => [⟨src1, N⟩, ⟨src2, N⟩]
  | .mred _ src1 => [⟨src1, 2 * N⟩]
  | .fadd _ src1 src2 => [⟨src1, N⟩, ⟨src2, N⟩]
  | .fsub _ src1 src2 => [⟨src1, N⟩, ⟨src2, N⟩]
  | .fneg _ => []
  | .fdiv2 _ src1 => [⟨src1, N⟩]
  | .fcorr _ => []
  | .fmul _ src1 src2 => [⟨src1, N⟩, ⟨src2, N⟩]
  | .fsqr _ src1 => [⟨src1, N⟩]

/-- The written buffer of a command (rule R72, the rows marked W and RW). -/
def writtenBuffer (N : Nat) : Instr → Buffer
  | .add dst _ _ len => ⟨dst, len⟩
  | .sub dst _ _ len => ⟨dst, len⟩
  | .mac acc _ _ _ m => ⟨acc, m⟩
  | .kmul dst _ _ => ⟨dst, 2 * N⟩
  | .mred dst _ => ⟨dst, N⟩
  | .fadd dst _ _ => ⟨dst, N⟩
  | .fsub dst _ _ => ⟨dst, N⟩
  | .fneg dst => ⟨dst, N⟩
  | .fdiv2 dst _ => ⟨dst, N⟩
  | .fcorr dst => ⟨dst, N⟩
  | .fmul dst _ _ => ⟨dst, N⟩
  | .fsqr dst _ => ⟨dst, N⟩

/-- The command reads its written buffer in place (rule R72, the rows marked RW: MAC, FNEG, FCORR). -/
def inPlace : Instr → Bool
  | .mac _ _ _ _ _ | .fneg _ | .fcorr _ => true
  | .add _ _ _ _ | .sub _ _ _ _ | .kmul _ _ _ | .mred _ _ | .fadd _ _ _ | .fsub _ _ _ | .fdiv2 _ _ | .fmul _ _ _
  | .fsqr _ _ => false

/-- Every buffer a command reads (20_memory.md rule R45), in the order the model reads them. -/
def readBuffers (N : Nat) (i : Instr) : List Buffer :=
  readOnlyBuffers N i ++ (if inPlace i then [writtenBuffer N i] else [])

/-- The command writes the flag C (10_state.md rule R23: ADD, SUB, MAC and nothing else). -/
def writesFlag : Instr → Bool
  | .add _ _ _ _ | .sub _ _ _ _ | .mac _ _ _ _ _ => true
  | .kmul _ _ _ | .mred _ _ | .fadd _ _ _ | .fsub _ _ _ | .fneg _ | .fdiv2 _ _ | .fcorr _ | .fmul _ _ _
  | .fsqr _ _ => false

/-- Step 2 of rule R65: ADD and SUB need la ≠ 0, MAC needs la ≠ 0 and la < lb. -/
def shapeFits : Instr → Bool
  | .add _ _ _ len => len != 0
  | .sub _ _ _ len => len != 0
  | .mac _ _ _ k m => k != 0 && decide (k < m)
  | .kmul _ _ _ | .mred _ _ | .fadd _ _ _ | .fsub _ _ _ | .fneg _ | .fdiv2 _ _ | .fcorr _ | .fmul _ _ _
  | .fsqr _ _ => true

/-- Steps 2, 3 and 4 of rule R65, in that order (rule R154): the code a command of the table is answered with, from the
command, N and OM_LIMBS alone. -/
def admission (N omLimbs : Nat) (i : Instr) : Code :=
  if shapeFits i then
    if (writtenBuffer N i :: readOnlyBuffers N i).all (fun x => x.inside omLimbs) then
      if (readOnlyBuffers N i).any (fun x => (writtenBuffer N i).overlaps x) then .badAlias else .ok
    else .badAddr
  else .badShape

/-- The admission of a command in a state. -/
def State.admission (s : State) (i : Instr) : Code := Machine.admission s.ps.N s.params.omLimbs i

/-- Rule R65: an admitted command executes; any other is rejected with its code and has no effect. -/
def State.admitted (s : State) (i : Instr) (run : Host.Outcome State Fault Refusal) :
    Host.Outcome State Fault Refusal :=
  match s.admission i with
  | .ok => run
  | code => s.reject code

/-- `x = OM[base .. base+n-1]` and the rest of the command (rule R49: sources are read into temporaries first), or the fault
of the model on an unwritten cell (rule R158). -/
def State.withBuffer (s : State) (base n : Nat) (rest : List Nat → Host.Outcome State Fault Refusal) :
    Host.Outcome State Fault Refusal :=
  match s.om.readMany base n with
  | .error f => .fault f
  | .ok xs => rest xs

end Sys2Proof.Machine
end

