-- ==== Sys2Proof/Machine/CarryChain.lean ====
section
/-! DEFINITION. Machine/CarryChain.lean: the carry-chain adder/subtractor (40_carry_chain.md): the functions ADD_L and SUB_L
that every later component uses, and the commands ADD and SUB. -/

namespace Sys2Proof.Machine

/-- The adder's loop (rule R91) from a given carry on: u = a[i] + b[i] + c, s[i] = u mod B, c = u div B. -/
def addChain (W : Nat) : List Nat → List Nat → Nat → List Nat × Nat
  | a :: as, b :: bs, c =>
    let r := addChain W as bs ((a + b + c) / 2 ^ W)
    ((a + b + c) % 2 ^ W :: r.1, r.2)
  | _, _, c => ([], c)

/-- `ADD_L(a, b) -> (s, c)` (rule R91). -/
def addL (W : Nat) (a b : List Nat) : List Nat × Nat := addChain W a b 0

/-- The integer a[i] - b[i] - bw of the subtractor's loop (rule R93). -/
def limbDifference (a b bw : Nat) : Int := (a : Int) - b - bw

/-- The subtractor's loop (rule R93) from a given borrow on: d[i] = u mod B, bw = 1 if u < 0 else 0. -/
def subChain (W : Nat) : List Nat → List Nat → Nat → List Nat × Nat
  | a :: as, b :: bs, bw =>
    let r := subChain W as bs (if limbDifference a b bw < 0 then 1 else 0)
    ((limbDifference a b bw % (2 ^ W : Nat)).toNat :: r.1, r.2)
  | _, _, bw => ([], bw)

/-- `SUB_L(a, b) -> (d, bw)` (rule R93). -/
def subL (W : Nat) (a b : List Nat) : List Nat × Nat := subChain W a b 0

/-- `mask(b)` (00_scope.md rule R14): (0 - b) mod B, all zeros for b = 0 and all ones for b = 1. -/
def mask (W b : Nat) : Nat := (2 ^ W - b) % 2 ^ W

/-- `x AND mask(b)`, limb by limb. -/
def maskLimbs (W b : Nat) (xs : List Nat) : List Nat := xs.map fun x => x &&& mask W b

/-- ADD dst, src1, src2, L (rule R92). -/
def execAdd (dst src1 src2 len : Nat) (s : State) : Host.Outcome State Fault Refusal :=
  s.admitted (.add dst src1 src2 len) <|
    s.withBuffer src1 len fun a =>
    s.withBuffer src2 len fun b =>
    s.completeWithFlag dst (addL s.ps.W a b)

/-- SUB dst, src1, src2, L (rule R94): src1 minus src2. -/
def execSub (dst src1 src2 len : Nat) (s : State) : Host.Outcome State Fault Refusal :=
  s.admitted (.sub dst src1 src2 len) <|
    s.withBuffer src1 len fun a =>
    s.withBuffer src2 len fun b =>
    s.completeWithFlag dst (subL s.ps.W a b)

end Sys2Proof.Machine
end

