-- ==== Sys2Proof/Machine/Mac.lean ====
section
/-! DEFINITION. Machine/Mac.lean: the schoolbook multiply-accumulate row (41_schoolbook_mac.md), the schoolbook product built
from rows, and the command MAC. -/

namespace Sys2Proof.Machine

/-- The second loop of rule R101: the carry runs to the last limb of the accumulator. -/
def rippleCarry (W : Nat) : List Nat → Nat → List Nat × Nat
  | [], c => ([], c)
  | a :: as, c =>
    let r := rippleCarry W as ((a + c) / 2 ^ W)
    ((a + c) % 2 ^ W :: r.1, r.2)

/-- Both loops of rule R101 from a given carry limb on: u = acc[i] + x * y[i] + c while y lasts, then u = acc[i] + c. -/
def macChain (W x : Nat) : List Nat → List Nat → Nat → List Nat × Nat
  | y :: ys, a :: as, c =>
    let r := macChain W x ys as ((a + x * y + c) / 2 ^ W)
    ((a + x * y + c) % 2 ^ W :: r.1, r.2)
  | [], as, c => rippleCarry W as c
  | _ :: _, [], c => ([], c)

/-- `MACROW(x, y, acc) -> (acc', c)` (rule R101). -/
def macRow (W x : Nat) (y acc : List Nat) : List Nat × Nat := macChain W x y acc 0

/-- The rows of rule R104 over the limbs of a: row i accumulates into out[i ..], whose limb i is then final. -/
def smulRows (W : Nat) : List Nat → List Nat → List Nat → List Nat
  | [], _, out => out
  | x :: xs, b, out =>
    match (macRow W x b out).1 with
    | [] => []
    | o :: rest => o :: smulRows W xs b rest

/-- `SMUL_n(a, b)` (rule R104): the schoolbook product of two n-limb arrays in 2n limbs. -/
def smul (W : Nat) (a b : List Nat) : List Nat := smulRows W a b (List.replicate (2 * a.length) 0)

/-- MAC acc, x, y, k, m (rule R102): the limb x times the k limbs at y, accumulated into the m limbs at acc in place. -/
def execMac (acc x y k m : Nat) (s : State) : Host.Outcome State Fault Refusal :=
  s.admitted (.mac acc x y k m) <|
    s.withBuffer x 1 fun xv =>
    s.withBuffer y k fun yv =>
    s.withBuffer acc m fun av =>
    s.completeWithFlag acc (macRow s.ps.W (xv.headD 0) yv av)

end Sys2Proof.Machine
end

