-- ==== Sys2Proof/Machine/Karatsuba.lean ====
section
/-! DEFINITION. Machine/Karatsuba.lean: the recursive Karatsuba multiplier (42_karatsuba.md rule R111) and the command KMUL. -/

namespace Sys2Proof.Machine

/-- `(x[i ..], _) = ADD(x[i ..], y)`: y added from limb i on, the carry out dropped (rule R114 proves it 0). -/
def addFrom (W i : Nat) (x y : List Nat) : List Nat := x.take i ++ (addL W (x.drop i) y).1

/-- `mid` of rule R111, 2h+1 limbs: (sa + ca*2^(W*h)) * (sb + cb*2^(W*h)) - lo - hi, from m0 = sa*sb and the extra bits. -/
def karatsubaMid (W h : Nat) (sa sb : List Nat × Nat) (m0 lo hi : List Nat) : List Nat :=
  let m1 := addFrom W h (m0 ++ [0]) (maskLimbs W sa.2 sb.1 ++ [0])
  let m2 := addFrom W h m1 (maskLimbs W sb.2 sa.1 ++ [0])
  let m3 := m2.take (2 * h) ++ [(m2.getD (2 * h) 0 + (sa.2 &&& sb.2)) % 2 ^ W]
  let m4 := (subL W m3 (lo ++ [0])).1
  (subL W m4 (hi ++ [0])).1

/-- The recombination of rule R111: lo + mid*2^(W*h) + hi*2^(2*W*h), 4h limbs. -/
def karatsubaJoin (W h : Nat) (lo mid hi : List Nat) : List Nat :=
  addFrom W h (lo ++ hi) (mid ++ List.replicate (h - 1) 0)

/-- `KM_n(a, b, d)` (rule R111): schoolbook at depth 0 and at an odd limb count, else three products of half length. -/
def km (W : Nat) : Nat → List Nat → List Nat → List Nat
  | 0, a, b => smul W a b
  | d + 1, a, b =>
    if a.length % 2 = 1 then smul W a b
    else
      let h := a.length / 2
      let sa := addL W (a.take h) (a.drop h)
      let sb := addL W (b.take h) (b.drop h)
      let lo := km W d (a.take h) (b.take h)
      let hi := km W d (a.drop h) (b.drop h)
      let m0 := km W d sa.1 sb.1
      karatsubaJoin W h lo (karatsubaMid W h sa sb m0 lo hi) hi

/-- KMUL dst, src1, src2 (rule R112): the exact 2N-limb product. -/
def execKmul (dst src1 src2 : Nat) (s : State) : Host.Outcome State Fault Refusal :=
  s.admitted (.kmul dst src1 src2) <|
    s.withBuffer src1 s.ps.N fun a =>
    s.withBuffer src2 s.ps.N fun b =>
    s.complete dst (km s.ps.W s.ps.info.KDEPTH a b)

end Sys2Proof.Machine
end

