-- ==== Sys2Proof/Machine/Montgomery.lean ====
section
/-! DEFINITION. Machine/Montgomery.lean: the Montgomery reducer (43_montgomery.md) and the command MRED. -/

namespace Sys2Proof.Machine

/-- The loop of rule R122, `n` rounds from the limb v[i] on: q = (v[i] * NPRIME) mod B, v <- v + q * p * 2^(W*i). The list holds
v[i ..]; after its round limb i is 0 and is left behind. -/
def reduceRounds (W nprime : Nat) (P : List Nat) : Nat → List Nat → List Nat
  | 0, v => v
  | n + 1, v => reduceRounds W nprime P n (macRow W (v.headD 0 * nprime % 2 ^ W) P v).1.tail

/-- `MREDF(t) -> (r, top)` (rule R122): r = v[N .. 2N-1], top = v[2N]. -/
def mredf (k : ConstBundle) (t : List Nat) : List Nat × Nat :=
  let v := reduceRounds k.W k.nprime k.P k.N (t ++ [0])
  (v.take k.N, v.getD k.N 0)

/-- The loop of rule R123, for bundles with EA >= W: q = v[i], v[i] = 0, and q times the irregular tail K.PP1[Z ..] is added
from limb i + Z on. -/
def specialRounds (W Z : Nat) (tail : List Nat) : Nat → List Nat → List Nat
  | 0, v => v
  | n + 1, v =>
    specialRounds W Z tail n
      ((0 :: v.tail).take Z ++ (macRow W (v.headD 0) tail ((0 :: v.tail).drop Z)).1).tail

/-- The specialised form of MREDF (rule R123). No command uses it: it is the same function wherever EA >= W. -/
def mredfSpecial (k : ConstBundle) (t : List Nat) : List Nat × Nat :=
  let v := specialRounds k.W k.z (k.PP1.drop k.z) k.N (t ++ [0])
  (v.take k.N, v.getD k.N 0)

/-- The N limbs a reduction of t writes and the state that has made its draw, if any: MREDF(t) while val(t) < R*p, any N
limbs otherwise (rules R124, R125, R136). -/
def State.reduce (s : State) (t : List Nat) : List Nat × State :=
  if val s.ps.W t < s.ps.R * s.ps.p then ((mredf s.ps t).1, s) else s.drawLimbs s.ps.N

/-- A command that ends in a reduction of t: the limbs are written, C is unchanged, the response is OK. -/
def State.completeReduced (s : State) (dst : Nat) (t : List Nat) : Host.Outcome State Fault Refusal :=
  (s.reduce t).2.complete dst (s.reduce t).1

/-- MRED dst, src1 (rule R124). -/
def execMred (dst src1 : Nat) (s : State) : Host.Outcome State Fault Refusal :=
  s.admitted (.mred dst src1) <|
    s.withBuffer src1 (2 * s.ps.N) fun t =>
    s.completeReduced dst t

end Sys2Proof.Machine
end

