-- ==== Sys2Proof/Machine/Field.lean ====
section
/-! DEFINITION. Machine/Field.lean: the field element operations (44_field_ops.md). Each function computes the limbs the rule's
pseudocode gives for every input, in or out of the rule's precondition (rules R130, R141).

The commands of rule R140's properties: FADD then FCORR (execFadd, execFcorr, limbs fieldAdd, fieldCorrect); FCORR of MRED of the
zero-extended FMUL (execFmul, execMred, limbs mredf of km); FSQR against FMUL of a by a (execFsqr, execFmul); FDIV2 (execFdiv2,
limbs fieldHalve). -/

namespace Sys2Proof.Machine

/-- FADD's limbs (rules R131, R140): ADD_N with the carry dropped. -/
def fieldAdd (k : ConstBundle) (a b : List Nat) : List Nat := (addL k.W a b).1

/-- FSUB's limbs (rule R132): SUB_N, then 2p added under the mask of the borrow. -/
def fieldSub (k : ConstBundle) (a b : List Nat) : List Nat :=
  (addL k.W (subL k.W a b).1 (maskLimbs k.W (subL k.W a b).2 k.P2)).1

/-- FNEG's limbs (rule R133): 2p - a. -/
def fieldNeg (k : ConstBundle) (a : List Nat) : List Nat := (subL k.W k.P2 a).1

/-- The logical right shift by one across the array (rule R134): bit 0 of limb i+1 becomes bit W-1 of limb i. -/
def shiftRightOne (W : Nat) : List Nat → List Nat
  | [] => []
  | x :: xs => ((x >>> 1) ||| (xs.headD 0 <<< (W - 1))) % 2 ^ W :: shiftRightOne W xs

/-- FDIV2's limbs (rules R134, R140): p added under the mask of the parity, then the shift. -/
def fieldHalve (k : ConstBundle) (a : List Nat) : List Nat :=
  shiftRightOne k.W (addL k.W a (maskLimbs k.W (a.headD 0 &&& 1) k.P)).1

/-- FCORR's limbs (rules R135, R140): p subtracted once, and added back under the mask of the borrow. -/
def fieldCorrect (k : ConstBundle) (a : List Nat) : List Nat :=
  (addL k.W (subL k.W a k.P).1 (maskLimbs k.W (subL k.W a k.P).2 k.P)).1

/-- FADD dst, src1, src2 (rule R131). -/
def execFadd (dst src1 src2 : Nat) (s : State) : Host.Outcome State Fault Refusal :=
  s.admitted (.fadd dst src1 src2) <|
    s.withBuffer src1 s.ps.N fun a =>
    s.withBuffer src2 s.ps.N fun b =>
    s.complete dst (fieldAdd s.ps a b)

/-- FSUB dst, src1, src2 (rule R132): src1 minus src2. -/
def execFsub (dst src1 src2 : Nat) (s : State) : Host.Outcome State Fault Refusal :=
  s.admitted (.fsub dst src1 src2) <|
    s.withBuffer src1 s.ps.N fun a =>
    s.withBuffer src2 s.ps.N fun b =>
    s.complete dst (fieldSub s.ps a b)

/-- FNEG dst, in place (rule R133). -/
def execFneg (dst : Nat) (s : State) : Host.Outcome State Fault Refusal :=
  s.admitted (.fneg dst) <|
    s.withBuffer dst s.ps.N fun a =>
    s.complete dst (fieldNeg s.ps a)

/-- FDIV2 dst, src1 (rule R134). -/
def execFdiv2 (dst src1 : Nat) (s : State) : Host.Outcome State Fault Refusal :=
  s.admitted (.fdiv2 dst src1) <|
    s.withBuffer src1 s.ps.N fun a =>
    s.complete dst (fieldHalve s.ps a)

/-- FCORR dst, in place (rule R135). -/
def execFcorr (dst : Nat) (s : State) : Host.Outcome State Fault Refusal :=
  s.admitted (.fcorr dst) <|
    s.withBuffer dst s.ps.N fun a =>
    s.complete dst (fieldCorrect s.ps a)

/-- FMUL dst, src1, src2 (rules R136, R140): the exact product, then the reducer. -/
def execFmul (dst src1 src2 : Nat) (s : State) : Host.Outcome State Fault Refusal :=
  s.admitted (.fmul dst src1 src2) <|
    s.withBuffer src1 s.ps.N fun a =>
    s.withBuffer src2 s.ps.N fun b =>
    s.completeReduced dst (km s.ps.W s.ps.info.KDEPTH a b)

/-- FSQR dst, src1 (rules R137, R140): the exact square, then the reducer. -/
def execFsqr (dst src1 : Nat) (s : State) : Host.Outcome State Fault Refusal :=
  s.admitted (.fsqr dst src1) <|
    s.withBuffer src1 s.ps.N fun a =>
    s.completeReduced dst (km s.ps.W s.ps.info.KDEPTH a a)

end Sys2Proof.Machine
end

