-- ==== Sys2Proof/Machine/Dispatch.lean ====
section
/-! DEFINITION. Machine/Dispatch.lean: one arm per command of the table. -/

namespace Sys2Proof.Machine

def exec (i : Instr) (s : State) : Host.Outcome State Fault Refusal :=
  match i with
  -- carry chain (40_carry_chain.md)
  | .add dst src1 src2 len => Sys2Proof.Machine.execAdd dst src1 src2 len s
  | .sub dst src1 src2 len => Sys2Proof.Machine.execSub dst src1 src2 len s
  -- multiply-accumulate, multiplier, reducer (41, 42, 43)
  | .mac acc x y k m => Sys2Proof.Machine.execMac acc x y k m s
  | .kmul dst src1 src2 => Sys2Proof.Machine.execKmul dst src1 src2 s
  | .mred dst src1 => Sys2Proof.Machine.execMred dst src1 s
  -- field element operations (44_field_ops.md)
  | .fadd dst src1 src2 => Sys2Proof.Machine.execFadd dst src1 src2 s
  | .fsub dst src1 src2 => Sys2Proof.Machine.execFsub dst src1 src2 s
  | .fneg dst => Sys2Proof.Machine.execFneg dst s
  | .fdiv2 dst src1 => Sys2Proof.Machine.execFdiv2 dst src1 s
  | .fcorr dst => Sys2Proof.Machine.execFcorr dst s
  | .fmul dst src1 src2 => Sys2Proof.Machine.execFmul dst src1 src2 s
  | .fsqr dst src1 => Sys2Proof.Machine.execFsqr dst src1 s

end Sys2Proof.Machine
end

