-- ==== Sys2Proof/Machine/Primality.lean ====
section
/-! DEFINITION. Machine/Primality.lean: the whole constraint of rules R10 and R11 on a bundle as a check a reset can make: "a bundle
violating the constraints (p not prime, 4p > R) is refused at configuration" (93_implementation_defined.md U14). The check is
exact (log entry 6): trial division decides every number, and before it a certificate of the N + 1 kind, for the factored
p + 1 = 2^EA * 3^EB, settles large primes quickly. -/

namespace Sys2Proof.Machine

/-- A number a + b*i with i^2 = -1, its parts kept modulo some n. -/
abbrev Gauss := Nat × Nat

/-- (a + b*i)(c + d*i) modulo n. -/
def Gauss.mul (n : Nat) (x y : Gauss) : Gauss :=
  ((x.1 * y.1 + (n - 1) * (x.2 * y.2)) % n, (x.1 * y.2 + x.2 * y.1) % n)

/-- x^e modulo n for an exponent of at most `bits` bits. -/
def Gauss.pow (n : Nat) : Nat → Gauss → Nat → Gauss
  | 0, _, _ => (1, 0)
  | bits + 1, x, e =>
    if e % 2 = 1 then Gauss.mul n x (Gauss.pow n bits (Gauss.mul n x x) (e / 2))
    else Gauss.pow n bits (Gauss.mul n x x) (e / 2)

/-- u^2 + u + 1 = 0 modulo n. -/
def Gauss.isCubeRoot (n : Nat) (u : Gauss) : Bool :=
  (((Gauss.mul n u u).1 + u.1 + 1) % n == 0) && (((Gauss.mul n u u).2 + u.2) % n == 0)

/-- w = (x + i)^(p - 1) has order p + 1 = 2^a * 3^b modulo every prime factor of p: w^((p+1)/2) = -1, and w^((p+1)/3) is a cube
root of 1 other than 1 when 3 divides p + 1. -/
def certifies (a b x : Nat) : Bool :=
  let p := 2 ^ a * 3 ^ b - 1
  let w := Gauss.pow p (a + 2 * b) (x, 1) (p - 1)
  (Gauss.pow p (a + 2 * b) w ((p + 1) / 2) == (p - 1, 0)) &&
    (b == 0 || Gauss.isCubeRoot p (Gauss.pow p (a + 2 * b) w ((p + 1) / 3)))

/-- No divisor of n from d on, up to its square root; at most `fuel` candidates are tried. -/
def noDivisorFrom (n : Nat) : Nat → Nat → Bool
  | 0, _ => true
  | fuel + 1, d => if n < d * d then true else if n % d = 0 then false else noDivisorFrom n fuel (d + 1)

/-- The prime p = 2^EA * 3^EB - 1 of the bundle is prime (rule R10), by a certificate or by trial division. -/
def primeBundle (q : ParamSet) : Bool :=
  decide (2 ≤ q.p) &&
    ((decide (1 ≤ q.EA) && (List.range 32).any fun x => certifies q.EA q.EB x) || noDivisorFrom q.p q.p 2)

/-- The bundle is a configuration of an engine with `omLimbs` cells: every constraint of rules R10 and R11. -/
def validBundle (q : ParamSet) (omLimbs : Nat) : Bool := q.admissible omLimbs && primeBundle q

end Sys2Proof.Machine
end

