-- ==== Sys2Proof/Machine/Port.lean ====
section
/-! DEFINITION. Machine/Port.lean: the actions of the host (30_encoding.md rule R76, 20_memory.md rule R40), each one atomic
step (00_scope.md rule R8). An address outside operand memory, a constant that does not exist and a byte port that does not
exist leave the host stuck. -/

namespace Sys2Proof.Machine

/-- The action is done and returned `r`. -/
def State.answer (s : State) (r : Reply) : State := { s with reply := r }

/-- ISSUE(cmd) (rules R60, R65, R75): a word of the table is admitted and executed or rejected; any other word is rejected. -/
def issue (cmd : BitVec 64) (s : State) : Host.Outcome State Fault Refusal :=
  match decode cmd with
  | .ok i => exec i s
  | .error code => s.reject code

/-- HWRITE(a, v) (rule R40): cell a becomes written with the W-bit value v (a wider v is narrowed, log entry 10). -/
def hwrite (a v : Nat) (s : State) : Host.Outcome State Fault Refusal :=
  if s.hasCell a then .next (({ s with om := s.om.write a (v % 2 ^ s.ps.W) }).answer .done) else .fault .stuckAddress

/-- HREAD(a) (rule R40). -/
def hread (a : Nat) (s : State) : Host.Outcome State Fault Refusal :=
  if s.hasCell a then
    match s.om.read a with
    | some v => .next (s.answer (.value v))
    | none => .fault (.unwrittenCell a)
  else .fault .stuckAddress

/-- MemWrite(b, n, v) (rules R40, R42). -/
def memWrite (b n v : Nat) (s : State) : Host.Outcome State Fault Refusal :=
  if s.hasBytePort then
    if s.hasBytes b n then .next (({ s with om := s.om.writeBytes s.ps.W b n v }).answer .done) else .fault .stuckAddress
  else .fault .stuckBytePort

/-- MemRead(b, n) (rules R40, R42). -/
def memRead (b n : Nat) (s : State) : Host.Outcome State Fault Refusal :=
  if s.hasBytePort then
    if s.hasBytes b n then
      match s.om.readBytes s.ps.W b n with
      | .ok v => .next (s.answer (.value v))
      | .error f => .fault f
    else .fault .stuckAddress
  else .fault .stuckBytePort

/-- HREADC() (rules R23, R76): the written flag; of the unwritten C it "is a *fault of the model*: the model stops" (rule R158,
rule R31). -/
def hreadc (s : State) : Host.Outcome State Fault Refusal :=
  match s.c with
  | some c => .next (s.answer (.flag c))
  | none => .fault .unwrittenFlag

/-- HREADK(k, i) (rules R24, R76). -/
def hreadk (k i : Nat) (s : State) : Host.Outcome State Fault Refusal :=
  match s.ps.constant k i with
  | some v => .next (s.answer (.value v))
  | none => .fault .stuckConstant

/-- Reset with a sampled PSEL (rule R170): PS becomes the selected bundle, every cell of OM and C become unwritten. A PSEL or
a bundle that breaks a constraint of rules R10 and R11 (p not prime, 4p > R, ...) is refused (93_implementation_defined.md U14). -/
def resetEngine (psel : Nat) (s : State) : Host.Outcome State Fault Refusal :=
  match s.params.sets[psel]? with
  | none => .refused (.noSuchBundle psel)
  | some q =>
    if validBundle q s.params.omLimbs then
      .next (({ s with ps := ConstBundle.ofParams q, om := [], c := none }).answer .done)
    else .refused (.badBundle psel)

/-- One action of the host. -/
def perform (a : HostAction) (s : State) : Host.Outcome State Fault Refusal :=
  match a with
  | .issue cmd => issue cmd s
  | .hwrite a v => hwrite a v s
  | .hread a => hread a s
  | .memWrite b n v => memWrite b n v s
  | .memRead b n => memRead b n s
  | .hreadc => hreadc s
  | .hreadk k i => hreadk k i s
  | .reset psel => resetEngine psel s

end Sys2Proof.Machine
end

