-- ==== Sys2Proof/Machine/Step.lean ====
section
/-! DEFINITION. Machine/Step.lean: one step is one action of the host, taken from the front of `pending`
(00_scope.md rule R8: engine and host steps are totally ordered in host order). -/

namespace Sys2Proof.Machine

/-- Perform the host's next action; with none pending the engine is idle and nothing changes (rules R32, R165; log entry 3). -/
def step (s : State) : Host.Outcome State Fault Refusal :=
  match s.pending with
  | [] => .next s
  | a :: rest => perform a { s with pending := rest }

/-- The state in which the host's next action is to issue the command word `w` of `nbits` bits: commands arrive by value
(10_state.md rule R22), so nothing is stored. -/
def State.withFetchWord (s : State) (nbits w : Nat) : State :=
  { s with pending := .issue (BitVec.ofNat 64 (w % 2 ^ nbits)) :: s.pending }

end Sys2Proof.Machine
end

