-- ==== Sys2Proof/Machine/Assembler.lean ====
section
/-! DEFINITION. Machine/Assembler.lean: the written form of a command (30_encoding.md rule R69) and the expansion of the
pseudo-instructions (rule R70). The engine knows neither: both are the host's. -/

namespace Sys2Proof.Machine

/-- The mnemonic of a command, as opcode_table.json spells it. -/
def mnemonic : Instr → String
  | .add _ _ _ _ => "ADD"
  | .sub _ _ _ _ => "SUB"
  | .mac _ _ _ _ _ => "MAC"
  | .kmul _ _ _ => "KMUL"
  | .mred _ _ => "MRED"
  | .fadd _ _ _ => "FADD"
  | .fsub _ _ _ => "FSUB"
  | .fneg _ => "FNEG"
  | .fdiv2 _ _ => "FDIV2"
  | .fcorr _ => "FCORR"
  | .fmul _ _ _ => "FMUL"
  | .fsqr _ _ => "FSQR"

/-- The operands of a command in rule R69's order: destination first, then sources, then lengths. -/
def operands : Instr → List Nat
  | .add dst src1 src2 len => [dst, src1, src2, len]
  | .sub dst src1 src2 len => [dst, src1, src2, len]
  | .mac acc x y k m => [acc, x, y, k, m]
  | .kmul dst src1 src2 => [dst, src1, src2]
  | .mred dst src1 => [dst, src1]
  | .fadd dst src1 src2 => [dst, src1, src2]
  | .fsub dst src1 src2 => [dst, src1, src2]
  | .fneg dst => [dst]
  | .fdiv2 dst src1 => [dst, src1]
  | .fcorr dst => [dst]
  | .fmul dst src1 src2 => [dst, src1, src2]
  | .fsqr dst src1 => [dst, src1]

/-- The command in rule R69's syntax, operands in decimal. -/
def assembly (i : Instr) : String := mnemonic i ++ " " ++ ", ".intercalate ((operands i).map toString)

/-- The expansion of a pseudo-instruction into commands (rule R70). FROMMONT's scratch buffer t holds src when the command
runs: that is the host's part of the expansion. -/
def expand : Pseudo → List Instr
  | .fdbl dst src => [.fadd dst src src]
  | .tomont dst src r2 => [.fmul dst src r2]
  | .frommont dst t _ => [.mred dst t]
  | .smulrow out a b n => (List.range n).map fun i => .mac (out + i) (a + i) b n (2 * n - i)

end Sys2Proof.Machine
end

