-- ==== Sys2Proof/Machine/Timing.lean ====
section
/-! DEFINITION. Machine/Timing.lean: the duration of ISSUE(cmd) (70_reset_and_hazards.md rule R177). It is no state and no rule
of the step depends on it. -/

namespace Sys2Proof.Machine

/-- The code ISSUE(cmd) answers with, from the word, N and OM_LIMBS alone (rule R65). -/
def State.responseCode (s : State) (cmd : BitVec 64) : Code :=
  match decode cmd with
  | .ok i => s.admission i
  | .error code => code

/-- The 3-bit code field of the response (rules R75, R152). -/
def codeNumber : Code → Nat
  | .ok => 0
  | .illegalOp => 1
  | .badShape => 2
  | .badAddr => 3
  | .badAlias => 4

/-- The duration of ISSUE(cmd): LAT(op, PS, KDEPTH, la, lb, code) (rule R177), for an executed and for a rejected command. On
one engine the code is a function of the word, so a rejected command's duration is one too (60_exceptions.md rule R151). The
function is OPEN: a free value of Config. -/
def State.issueDuration (s : State) (cmd : BitVec 64) : Nat :=
  Config.latency (opField cmd) s.ps.info (fieldsOf cmd).la (fieldsOf cmd).lb (codeNumber (s.responseCode cmd))

end Sys2Proof.Machine
end

