-- ==== Sys2Proof/Safety.lean ====
section
/-! DEFINITION. Safety.lean: the terms claims use: the well-formed state, the cells a command reads and writes, Field Elements,
and a safe step (one that neither faults nor is refused). -/

namespace Sys2Proof.Machine

/-- Every listed cell exists and holds a W-bit value. -/
def Memory.fits (m : Memory) (omLimbs W : Nat) : Bool :=
  m.all fun e => decide (e.1 < omLimbs) && decide (e.2 < 2 ^ W)

/-- PS is the complete constant bundle of a valid entry of the implementation's list (10_state.md rule R30). -/
def State.bundleReady (s : State) : Bool :=
  s.params.sets.any fun q => validBundle q s.params.omLimbs && decide (s.ps = ConstBundle.ofParams q)

/-- The well-formed states: memory in canonical form, inside OM and of W-bit limbs, and PS a bundle of the engine. -/
def State.wf (s : State) : Bool := s.om.wf && s.om.fits s.params.omLimbs s.ps.W && s.bundleReady

/-- The architectural state of rule R20, the triple (PS, OM, C). -/
def State.triple (s : State) : ConstBundle × Memory × Option Bool := (s.ps, s.om, s.c)

/-- Cell a is written (10_state.md rule R25). -/
def State.written (s : State) (a : Nat) : Prop := (s.om.read a).isSome = true

/-- Every cell the command reads is written: the host's one ordering obligation (70_reset_and_hazards.md rule R171). -/
def State.readable (s : State) (i : Instr) : Prop :=
  ∀ x ∈ readBuffers s.ps.N i, ∀ a, x.contains a = true → s.written a

/-- A Field Element (00_scope.md rule R16): N limbs with a value in the redundant range [0, 2p-1]. -/
def FieldElement (k : ConstBundle) (xs : List Nat) : Prop :=
  xs.length = k.N ∧ LimbsFit k.W xs ∧ val k.W xs < 2 * k.p

/-- A canonical Field Element: its value lies in [0, p-1] (00_scope.md rule R16). -/
def Canonical (k : ConstBundle) (xs : List Nat) : Prop :=
  xs.length = k.N ∧ LimbsFit k.W xs ∧ val k.W xs < k.p

/-- `t` is `s` after an executed command that wrote exactly the cells of `out` at `dst` and left the flag at `c`: the cells read
back as `out`, every other cell reads as before, the response is OK with that flag, and PS, the parameters and the host's
pending actions are unchanged (60_exceptions.md rule R164: "nothing else changed"). -/
structure CommandDone (s t : State) (dst : Nat) (out : List Nat) (c : Option Bool) : Prop where
  cells : t.om.readMany dst out.length = .ok out
  frame : ∀ a, a < dst ∨ dst + out.length ≤ a → t.om.read a = s.om.read a
  flag : t.c = c
  reply : t.reply = .response .ok c
  ps : t.ps = s.ps
  params : t.params = s.params
  pending : t.pending = s.pending

/-- `r` is the reduction of the number `t` (43_montgomery.md rules R120, R122): r = (t + m*p) / R for the m in [0, R-1] that makes
the division exact; it lies in [0, 2p-1] and r * R is congruent to t modulo p. -/
def IsReduction (k : ConstBundle) (t r : Nat) : Prop :=
  (∃ m, m < k.R ∧ (t + m * k.p) % k.R = 0 ∧ r = (t + m * k.p) / k.R) ∧ r < 2 * k.p ∧ r * k.R % k.p = t % k.p

/-- The next state of an outcome, if it is one. -/
def nextOf (o : Host.Outcome State Fault Refusal) : Option State :=
  match o with
  | .next s => some s
  | .fault _ => none
  | .refused _ => none

/-- The fault of an outcome, if it is one. -/
def faultOf (o : Host.Outcome State Fault Refusal) : Option Fault :=
  match o with
  | .next _ => none
  | .fault f => some f
  | .refused _ => none

/-- The refusal of an outcome, if it is one. -/
def refusalOf (o : Host.Outcome State Fault Refusal) : Option Refusal :=
  match o with
  | .next _ => none
  | .fault _ => none
  | .refused r => some r

/-- A safe step: the machine answers a next state (60_exceptions.md rule R165's outcome "completed" is a run of safe steps). -/
def SafeStep (s : State) : Prop := ∃ t, step s = .next t

end Sys2Proof.Machine
end

