-- ==== Sys2Proof/Certificates/Slice0/Obligations.lean ====
section
/-! DEFINITION. Certificates/Slice0/Obligations.lean: the statements for the provers. Each docstring names the rule of spec/ the
statement formalises. "OK clause" in a docstring is the clause whose conclusion is that exec answers a next state. -/

open Sys2Proof Sys2Proof.Machine

/-! ### Encoding (30_encoding.md) -/

/-- Rule R61: "As an integer, cmd = op + la*2^8 + lb*2^16 + rsv0*2^24 + dst*2^32 + src1*2^42 + src2*2^52 + rsv1*2^62": of any word,
by its fields, and of the word of a well-formed instruction, whose reserved fields are zero; in a word of a command the reserved
fields, and every field the table says must be 0 in that command, are 0. -/
def Obligations.CommandWordIsFieldSum : Prop :=
  (∀ w : BitVec 64,
    w.toNat = (opField w).toNat + (fieldsOf w).la * 2 ^ 8 + (fieldsOf w).lb * 2 ^ 16 + (w.extractLsb' 24 8).toNat * 2 ^ 24 +
      (fieldsOf w).dst * 2 ^ 32 + (fieldsOf w).src1 * 2 ^ 42 + (fieldsOf w).src2 * 2 ^ 52 +
      (w.extractLsb' 62 2).toNat * 2 ^ 62) ∧
  (∀ i : Instr, i.wellFormed = true →
    (encode i).toNat = i.op.code.toNat + i.fields.la * 2 ^ 8 + i.fields.lb * 2 ^ 16 + i.fields.dst * 2 ^ 32 +
      i.fields.src1 * 2 ^ 42 + i.fields.src2 * 2 ^ 52) ∧
  ∀ (w : BitVec 64) (i : Instr), decode w = .ok i →
    opField w = i.op.code ∧ fieldsOf w = i.fields ∧ w.extractLsb' 24 8 = 0#8 ∧ w.extractLsb' 62 2 = 0#2 ∧
    ((∀ dst src1 src2 len, i ≠ .add dst src1 src2 len) → (∀ dst src1 src2 len, i ≠ .sub dst src1 src2 len) →
      (∀ acc x y k m, i ≠ .mac acc x y k m) → (fieldsOf w).la = 0) ∧
    ((∀ acc x y k m, i ≠ .mac acc x y k m) → (fieldsOf w).lb = 0) ∧
    (((∃ dst, i = .fneg dst) ∨ ∃ dst, i = .fcorr dst) → (fieldsOf w).src1 = 0 ∧ (fieldsOf w).src2 = 0) ∧
    (((∃ dst src1, i = .mred dst src1) ∨ (∃ dst src1, i = .fdiv2 dst src1) ∨ ∃ dst src1, i = .fsqr dst src1) →
      (fieldsOf w).src2 = 0)

/-- Rules R61 to R65: decoding the word of any well-formed instruction gives it back, with every operand. -/
def Obligations.DecodeOfEncodeIsIdentity : Prop :=
  ∀ i : Instr, i.wellFormed = true → decode (encode i) = .ok i

/-- Rules R63 to R66: every word has one meaning: a word that decodes to an instruction is the word of that instruction, which is
well-formed. -/
def Obligations.EncodeOfDecodeIsIdentity : Prop :=
  ∀ (w : BitVec 64) (i : Instr), decode w = .ok i → i.wellFormed = true ∧ encode i = w

/-- Rule R66: the decoder is total; a word is illegal exactly when it matches no row, that is, when its opcode is none of the table's, a reserved field is nonzero, or a field its format
marks zero is nonzero; an illegal word is answered ILLEGAL_OP and changes no state; the all-zero word and the all-ones word
are illegal. -/
def Obligations.IllegalWordsAreRejected : Prop :=
  (∀ w : BitVec 64, (∃ i, decode w = .ok i) ∨ decode w = .error .illegalOp) ∧
  (∀ w : BitVec 64, decode w = .error .illegalOp ↔ ∀ o : Op, w &&& o.format.mask ≠ o.pattern) ∧
  (∀ w : BitVec 64,
    decode w = .error .illegalOp ↔
      ((opField w).toNat = 0 ∨ (0x06 ≤ (opField w).toNat ∧ (opField w).toNat ≤ 0x0F) ∨ 0x17 ≤ (opField w).toNat) ∨
      w.extractLsb' 24 8 ≠ 0#8 ∨ w.extractLsb' 62 2 ≠ 0#2 ∨
      ((opField w = 0x01#8 ∨ opField w = 0x02#8) ∧ (fieldsOf w).lb ≠ 0) ∨
      ((opField w = 0x04#8 ∨ opField w = 0x10#8 ∨ opField w = 0x11#8 ∨ opField w = 0x15#8) ∧
        ((fieldsOf w).la ≠ 0 ∨ (fieldsOf w).lb ≠ 0)) ∨
      ((opField w = 0x05#8 ∨ opField w = 0x13#8 ∨ opField w = 0x16#8) ∧
        ((fieldsOf w).la ≠ 0 ∨ (fieldsOf w).lb ≠ 0 ∨ (fieldsOf w).src2 ≠ 0)) ∨
      ((opField w = 0x12#8 ∨ opField w = 0x14#8) ∧
        ((fieldsOf w).la ≠ 0 ∨ (fieldsOf w).lb ≠ 0 ∨ (fieldsOf w).src1 ≠ 0 ∨ (fieldsOf w).src2 ≠ 0))) ∧
  (∀ (w : BitVec 64) (s : State), decode w = .error .illegalOp →
    ∃ t, issue w s = .next t ∧ t.reply = .response .illegalOp s.c ∧ t.triple = s.triple ∧ t.params = s.params ∧
      t.pending = s.pending ∧ t.draws = s.draws) ∧
  decode 0#64 = .error .illegalOp ∧ decode (BitVec.allOnes 64) = .error .illegalOp

/-- Rule R64: the twelve rows (op, mnemonic, format, match, mask), and no word matches two of them. -/
def Obligations.OpcodeRowsAreExclusive : Prop :=
  opcodeTable.map (fun o => (o.code, mnemonic (o.build (fieldsOf 0#64)), o.format, o.pattern, o.format.mask)) =
    [(0x01#8, "ADD", .L3, 0x01#64, 0xC0000000FFFF00FF#64), (0x02#8, "SUB", .L3, 0x02#64, 0xC0000000FFFF00FF#64),
      (0x03#8, "MAC", .M, 0x03#64, 0xC0000000FF0000FF#64), (0x04#8, "KMUL", .F3, 0x04#64, 0xC0000000FFFFFFFF#64),
      (0x05#8, "MRED", .F2, 0x05#64, 0xFFF00000FFFFFFFF#64), (0x10#8, "FADD", .F3, 0x10#64, 0xC0000000FFFFFFFF#64),
      (0x11#8, "FSUB", .F3, 0x11#64, 0xC0000000FFFFFFFF#64), (0x12#8, "FNEG", .F1, 0x12#64, 0xFFFFFC00FFFFFFFF#64),
      (0x13#8, "FDIV2", .F2, 0x13#64, 0xFFF00000FFFFFFFF#64), (0x14#8, "FCORR", .F1, 0x14#64, 0xFFFFFC00FFFFFFFF#64),
      (0x15#8, "FMUL", .F3, 0x15#64, 0xC0000000FFFFFFFF#64), (0x16#8, "FSQR", .F2, 0x16#64, 0xFFF00000FFFFFFFF#64)] ∧
  ∀ (o o' : Op) (w : BitVec 64), w &&& o.format.mask = o.pattern → w &&& o'.format.mask = o'.pattern → o = o'

/-- 95_test_vectors.md section 7: words of the spec's programs, one of each format, decode to the commands beside them. -/
def Obligations.PrintedWordsDecode : Prop :=
  decode 0x0040002000000401#64 = .ok (.add 32 0 4 4) ∧ decode 0x0040000800080403#64 = .ok (.mac 8 0 4 4 8) ∧
  decode 0x0080180C00000004#64 = .ok (.kmul 12 6 8) ∧ decode 0x0000301000000005#64 = .ok (.mred 16 12) ∧
  decode 0x0000000600000014#64 = .ok (.fcorr 6)

/-! ### The step and the host's actions -/

/-- Rules R8, R60, R65: issuing a word that decodes to `i` is exec of `i`. Where the action is found is the model's choice, not the
spec's: that a step takes the front of State.pending (the first clause, and the remaining actions in the second) is log entry 1,
and that placing a word with withFetchWord makes it that next action (the third clause) is log entry 17. -/
def Obligations.StepRunsTheDecodedCommand : Prop :=
  (∀ (s : State) (a : HostAction) (rest : List HostAction), s.pending = a :: rest →
    step s = perform a { s with pending := rest }) ∧
  (∀ (s : State) (w : BitVec 64) (rest : List HostAction) (i : Instr), s.pending = .issue w :: rest → decode w = .ok i →
    step s = exec i { s with pending := rest }) ∧
  ∀ (s : State) (w : BitVec 64) (i : Instr), decode w = .ok i → step (s.withFetchWord 64 w.toNat) = exec i s

/-- The model's choice (log entry 3; rules R32, R165 say the engine is idle and a run ends when the host issues no more): with no
pending action the state does not change. -/
def Obligations.IdleStepChangesNothing : Prop :=
  ∀ s : State, s.pending = [] → step s = .next s

/-- Rule R40 (b), R51, R47: HWRITE makes its cell written with the W-bit value and changes no other cell, no flag and no constant;
HREAD returns the value of a written cell and changes nothing; an address outside OM leaves the host stuck. -/
def Obligations.LimbPortReadsAndWritesOneCell : Prop :=
  ∀ (s : State) (a v : Nat), v < 2 ^ s.ps.W →
    (a < s.params.omLimbs → ∃ t, hwrite a v s = .next t ∧ t.om.read a = some v ∧
      (∀ a', a' ≠ a → t.om.read a' = s.om.read a') ∧ t.c = s.c ∧ t.ps = s.ps ∧ t.params = s.params ∧
      t.pending = s.pending ∧ hread a t = .next (t.answer (.value v))) ∧
    (a < s.params.omLimbs → ∀ x, s.om.read a = some x → hread a s = .next (s.answer (.value x))) ∧
    (s.params.omLimbs ≤ a → hwrite a v s = .fault .stuckAddress ∧ hread a s = .fault .stuckAddress)

/-- Rule R47: "No address of OM or K has a read side effect": a host read that answers leaves (PS, OM, C) as it was. Rules R23,
R76: HREADC returns the written flag. -/
def Obligations.HostReadsHaveNoSideEffect : Prop :=
  (∀ (s t : State) (act : HostAction),
    ((∃ a, act = .hread a) ∨ (∃ b n, act = .memRead b n) ∨ act = .hreadc ∨ ∃ k i, act = .hreadk k i) →
    perform act s = .next t → t.triple = s.triple ∧ t.params = s.params ∧ t.pending = s.pending) ∧
  ∀ (s : State) (c : Bool), s.c = some c → hreadc s = .next (s.answer (.flag c))

/-- Rule R42: MemRead(b, n) returns the sum over j < n of byte(b + j) * 2^(8*j), wherever the range starts and ends, byte address x
being bits 8*(x mod BPL) to 8*(x mod BPL) + 7 of cell x div BPL; and "MemRead(a*BPL, N*BPL) = val(OM[a..a+N-1])", for a buffer of
any length inside OM: its byte image is the little-endian byte string of its value. -/
def Obligations.ByteImageOfABufferIsItsValue : Prop :=
  (∀ (s : State) (b n : Nat) (limb : Nat → Nat), s.ps.W % 8 = 0 → 1 ≤ n →
    b + n ≤ s.params.omLimbs * bytesPerLimb s.ps.W →
    (∀ j, j < n → s.om.read ((b + j) / bytesPerLimb s.ps.W) = some (limb j)) →
    memRead b n s = .next (s.answer (.value
      (∑ j ∈ Finset.range n, ((limb j >>> (8 * ((b + j) % bytesPerLimb s.ps.W))) &&& 0xFF) * 2 ^ (8 * j))))) ∧
  ∀ (s : State) (a n : Nat) (xs : List Nat), s.wf = true → s.ps.W % 8 = 0 → 1 ≤ n → a + n ≤ s.params.omLimbs →
    s.om.readMany a n = .ok xs →
    memRead (a * bytesPerLimb s.ps.W) (n * bytesPerLimb s.ps.W) s = .next (s.answer (.value (val s.ps.W xs)))

/-- Rule R42: MemWrite(b, n, v) sets byte(b + j) to (v >> (8*j)) AND 0xFF for j < n in every cell that was written or is covered
whole, leaves every other byte as it was, and leaves an unwritten cell it covers only in part unwritten. -/
def Obligations.ByteWriteSetsExactlyItsBytes : Prop :=
  ∀ (s : State) (b n v : Nat), s.wf = true → s.ps.W % 8 = 0 → 1 ≤ n →
    b + n ≤ s.params.omLimbs * bytesPerLimb s.ps.W →
    ∃ t, memWrite b n v s = .next t ∧ t.c = s.c ∧ t.ps = s.ps ∧ t.params = s.params ∧ t.pending = s.pending ∧
      ∀ x, x < s.params.omLimbs * bytesPerLimb s.ps.W →
        ((s.om.read (x / bytesPerLimb s.ps.W)).isSome = true → ∀ y, s.om.readByte s.ps.W x = some y →
          t.om.readByte s.ps.W x = some (if b ≤ x ∧ x < b + n then (v >>> (8 * (x - b))) &&& 0xFF else y)) ∧
        (s.om.read (x / bytesPerLimb s.ps.W) = none →
          b ≤ x / bytesPerLimb s.ps.W * bytesPerLimb s.ps.W →
          x / bytesPerLimb s.ps.W * bytesPerLimb s.ps.W + bytesPerLimb s.ps.W ≤ b + n →
          t.om.readByte s.ps.W x = some ((v >>> (8 * (x - b))) &&& 0xFF)) ∧
        (s.om.read (x / bytesPerLimb s.ps.W) = none →
          (x / bytesPerLimb s.ps.W * bytesPerLimb s.ps.W < b ∨
            b + n < x / bytesPerLimb s.ps.W * bytesPerLimb s.ps.W + bytesPerLimb s.ps.W) →
          t.om.read (x / bytesPerLimb s.ps.W) = none)

/-- Rule R40: a byte range that leaves OM, and the byte port of a bundle with W mod 8 ≠ 0, leave the host stuck (for n ≥ 1). -/
def Obligations.BytePortStopsOutsideMemory : Prop :=
  ∀ (s : State) (b n v : Nat), 1 ≤ n →
    (s.ps.W % 8 ≠ 0 → memRead b n s = .fault .stuckBytePort ∧ memWrite b n v s = .fault .stuckBytePort) ∧
    (s.ps.W % 8 = 0 → s.params.omLimbs * bytesPerLimb s.ps.W < b + n →
      memRead b n s = .fault .stuckAddress ∧ memWrite b n v s = .fault .stuckAddress)

/-- Rule R24's table: HREADK answers limb i of K.P (value p), K.P2 (2p), K.PP1 (p + 1), K.R2 (R^2 mod p) for i < N, and W, N,
EA, EB for k = 4; the low Z limbs of K.PP1 are zero; every other index leaves the host stuck (rule R76). -/
def Obligations.ConstantTableHoldsTheBundle : Prop :=
  ∀ s : State, s.wf = true →
    s.ps.p = 2 ^ s.ps.info.EA * 3 ^ s.ps.info.EB - 1 ∧ s.ps.R = 2 ^ (s.ps.W * s.ps.N) ∧
    (val s.ps.W s.ps.P = s.ps.p ∧ val s.ps.W s.ps.P2 = 2 * s.ps.p ∧ val s.ps.W s.ps.PP1 = s.ps.p + 1 ∧
      val s.ps.W s.ps.R2 = s.ps.R ^ 2 % s.ps.p) ∧
    (∀ i, i < s.ps.info.EA / s.ps.W → s.ps.PP1[i]? = some 0) ∧
    (∀ k i, k ≤ 3 → i < s.ps.N → ∃ x, x < 2 ^ s.ps.W ∧
      [s.ps.P, s.ps.P2, s.ps.PP1, s.ps.R2][k]? >>= (fun xs => xs[i]?) = some x ∧
      hreadk k i s = .next (s.answer (.value x))) ∧
    (hreadk 4 0 s = .next (s.answer (.value s.ps.W)) ∧ hreadk 4 1 s = .next (s.answer (.value s.ps.N)) ∧
      hreadk 4 2 s = .next (s.answer (.value s.ps.info.EA)) ∧ hreadk 4 3 s = .next (s.answer (.value s.ps.info.EB))) ∧
    (∀ k i, (k ≤ 3 ∧ s.ps.N ≤ i) ∨ (k = 4 ∧ 4 ≤ i) ∨ 5 ≤ k → hreadk k i s = .fault .stuckConstant)

/-- Rule R24: "a constant table K that no command and no host action can write": only a reset changes PS (rule R30). -/
def Obligations.OnlyResetWritesTheConstants : Prop :=
  ∀ (s t : State), (∀ psel rest, s.pending ≠ .reset psel :: rest) → step s = .next t → t.ps = s.ps ∧ t.params = s.params

/-- Rule R170: a reset that samples a PSEL naming a bundle that meets the constraints of rules R10 and R11, p prime among them,
makes PS that bundle and every cell of OM and C unwritten; with the same bundle selected PS does not change. A bundle that breaks
one of them "(p not prime, 4p > R) is refused at configuration" (93_implementation_defined.md U14). That the pending actions stay,
and that a PSEL past the list is refused, is the model's choice (log entry 15). -/
def Obligations.ResetSelectsTheBundleAndClears : Prop :=
  ∀ (s : State) (psel : Nat),
    (∀ q, s.params.sets[psel]? = some q → q.Valid s.params.omLimbs →
      ∃ t, resetEngine psel s = .next t ∧ t.ps = ConstBundle.ofParams q ∧ (∀ a, t.om.read a = none) ∧ t.c = none ∧
        t.params = s.params ∧ t.pending = s.pending ∧ (s.ps = ConstBundle.ofParams q → t.ps = s.ps)) ∧
    (∀ q, s.params.sets[psel]? = some q → ¬q.Valid s.params.omLimbs → resetEngine psel s = .refused (.badBundle psel)) ∧
    (s.params.sets[psel]? = none → resetEngine psel s = .refused (.noSuchBundle psel))

/-- Rule R11: a bundle with 4*p > R is refused at configuration time; for a bundle of rule R10 the constraint is the same as
4p - 2 < R (the double of the largest Field Element fits), and it gives (2p-1)^2 < R*p. -/
def Obligations.HeadroomIsEnforcedAndBoundsProducts : Prop :=
  (∀ (s : State) (psel : Nat) (q : ParamSet), s.params.sets[psel]? = some q → q.R < 4 * q.p →
    resetEngine psel s = .refused (.badBundle psel)) ∧
  ∀ q : ParamSet, 2 ≤ q.W → 1 ≤ q.N → 1 ≤ q.EA →
    (4 * q.p ≤ q.R ↔ 4 * q.p - 2 < q.R) ∧ (4 * q.p ≤ q.R → (2 * q.p - 1) ^ 2 < q.R * q.p)

/-- Rule R31: in the state after reset, the one the model starts in and any that a reset leads to, every cell of OM and C are
unwritten, and reading an unwritten cell or the unwritten C is a model fault: HREAD, MemRead and HREADC fault, and so does
every admitted command, since each reads at least one cell. -/
def Obligations.AfterResetNothingIsWritten : Prop :=
  ∀ t : State, (t = State.reset ∨ ∃ psel s, resetEngine psel s = .next t) →
    (∀ a, t.om.read a = none) ∧ t.c = none ∧ hreadc t = .fault .unwrittenFlag ∧
    (∀ a, a < t.params.omLimbs → hread a t = .fault (.unwrittenCell a)) ∧
    (∀ b n, t.ps.W % 8 = 0 → 1 ≤ n → b + n ≤ t.params.omLimbs * bytesPerLimb t.ps.W →
      ∃ a, memRead b n t = .fault (.unwrittenCell a)) ∧
    ∀ i, t.admission i = .ok → ∃ a, exec i t = .fault (.unwrittenCell a)

/-! ### Admission, rejection, faults, frames -/

/-- Rule R151: a rejected word ends at once with its code and the unchanged flag; the state after it equals the state before it,
which cells are unwritten included; its duration depends on the command word alone on one engine. -/
def Obligations.RejectionChangesNothing : Prop :=
  ∀ (w : BitVec 64) (s : State), s.responseCode w ≠ .ok →
    (∃ t, issue w s = .next t ∧ t.reply = .response (s.responseCode w) s.c ∧ t.triple = s.triple ∧
      t.params = s.params ∧ t.pending = s.pending ∧ t.draws = s.draws) ∧
    ∀ s' : State, s'.ps = s.ps → s'.params = s.params →
      s'.responseCode w = s.responseCode w ∧ s'.issueDuration w = s.issueDuration w

/-- Rule R154: ILLEGAL_OP before BAD_SHAPE before BAD_ADDR before BAD_ALIAS, over the buffers of the command (rule R72); a command
none of these applies to is admitted; the rule's four examples, for N = 2 and OM_LIMBS = 1024. -/
def Obligations.AdmissionReportsTheFirstCause : Prop :=
  (∀ (s : State) (w : BitVec 64), decode w = .error .illegalOp → issue w s = s.reject .illegalOp) ∧
  (∀ (s : State) (i : Instr),
    (shapeFits i = false → exec i s = s.reject .badShape) ∧
    (shapeFits i = true → (∃ x ∈ writtenBuffer s.ps.N i :: readOnlyBuffers s.ps.N i, s.params.omLimbs < x.base + x.len) →
      exec i s = s.reject .badAddr) ∧
    (shapeFits i = true → (∀ x ∈ writtenBuffer s.ps.N i :: readOnlyBuffers s.ps.N i, x.base + x.len ≤ s.params.omLimbs) →
      (∃ x ∈ readOnlyBuffers s.ps.N i, (writtenBuffer s.ps.N i).base < x.base + x.len ∧
        x.base < (writtenBuffer s.ps.N i).base + (writtenBuffer s.ps.N i).len) → exec i s = s.reject .badAlias) ∧
    (shapeFits i = true → (∀ x ∈ writtenBuffer s.ps.N i :: readOnlyBuffers s.ps.N i, x.base + x.len ≤ s.params.omLimbs) →
      (∀ x ∈ readOnlyBuffers s.ps.N i, ¬((writtenBuffer s.ps.N i).base < x.base + x.len ∧
        x.base < (writtenBuffer s.ps.N i).base + (writtenBuffer s.ps.N i).len)) → s.admission i = .ok)) ∧
  ∀ s : State, s.ps.N = 2 → s.params.omLimbs = 1024 →
    issue 0x0000000001000001#64 s = s.reject .illegalOp ∧ exec (.add 1020 1020 1020 0) s = s.reject .badShape ∧
    exec (.add 1020 1020 1020 8) s = s.reject .badAddr ∧ exec (.add 8 8 16 4) s = s.reject .badAlias

/-- Rule R158: a command stops the model exactly when it is admitted and a cell it reads is unwritten, and then names such a cell;
a rejected command cannot fault; HREAD, MemRead and HREADC stop on unwritten state. -/
def Obligations.ModelFaultsExactlyOnUnwrittenReads : Prop :=
  (∀ (i : Instr) (s : State) (f : Fault), exec i s = .fault f →
    s.admission i = .ok ∧ ∃ a, f = .unwrittenCell a ∧ s.om.read a = none ∧
      ∃ x ∈ readBuffers s.ps.N i, x.contains a = true) ∧
  (∀ (i : Instr) (s : State) (a : Nat), s.admission i = .ok → s.om.read a = none →
    (∃ x ∈ readBuffers s.ps.N i, x.contains a = true) → ∃ a', exec i s = .fault (.unwrittenCell a')) ∧
  (∀ (s : State) (a : Nat), a < s.params.omLimbs → s.om.read a = none → hread a s = .fault (.unwrittenCell a)) ∧
  (∀ (s : State) (b n j : Nat), s.ps.W % 8 = 0 → b + n ≤ s.params.omLimbs * bytesPerLimb s.ps.W → j < n →
    s.om.read ((b + j) / bytesPerLimb s.ps.W) = none → ∃ a, memRead b n s = .fault (.unwrittenCell a)) ∧
  ∀ s : State, s.c = none → hreadc s = .fault .unwrittenFlag

/-- Rules R160, R171: every one of the twelve commands that is admitted and whose read cells are written completes, with response
OK, whatever the values. -/
def Obligations.AdmittedReadableCommandCompletes : Prop :=
  ∀ (i : Instr) (s : State), s.admission i = .ok → s.readable i →
    ∃ t, exec i s = .next t ∧ t.reply = .response .ok t.c

/-- Rules R164, R47, R23: the frame of all twelve commands. Whenever exec answers a next state, every cell outside the command's
written buffer reads as before (every cell, if it was rejected); C is unchanged unless the command is an admitted ADD, SUB or
MAC; PS, the parameters and the pending actions are unchanged; no draw is made outside MRED, FMUL and FSQR. -/
def Obligations.CommandsChangeOnlyTheirDestination : Prop :=
  ∀ (i : Instr) (s t : State), s.wf = true → exec i s = .next t →
    (∀ a, a < (writtenBuffer s.ps.N i).base ∨ (writtenBuffer s.ps.N i).base + (writtenBuffer s.ps.N i).len ≤ a →
      t.om.read a = s.om.read a) ∧
    (s.admission i ≠ .ok → t.om = s.om ∧ t.c = s.c ∧ t.draws = s.draws) ∧
    ((∀ dst src1 src2 len, i ≠ .add dst src1 src2 len) → (∀ dst src1 src2 len, i ≠ .sub dst src1 src2 len) →
      (∀ acc x y k m, i ≠ .mac acc x y k m) → t.c = s.c) ∧
    ((∀ dst src1, i ≠ .mred dst src1) → (∀ dst src1 src2, i ≠ .fmul dst src1 src2) → (∀ dst src1, i ≠ .fsqr dst src1) →
      t.draws = s.draws) ∧
    t.ps = s.ps ∧ t.params = s.params ∧ t.pending = s.pending

/-- Rule R23, over the whole machine: a step that changes C is the issue of an ADD, SUB or MAC, or a reset. -/
def Obligations.FlagIsWrittenOnlyByAddSubMacAndReset : Prop :=
  ∀ (s t : State), step s = .next t → t.c ≠ s.c →
    (∃ w rest i, s.pending = .issue w :: rest ∧ decode w = .ok i ∧
      ((∃ dst src1 src2 len, i = .add dst src1 src2 len) ∨ (∃ dst src1 src2 len, i = .sub dst src1 src2 len) ∨
        ∃ acc x y k m, i = .mac acc x y k m)) ∨
    ∃ psel rest, s.pending = .reset psel :: rest

/-- Rule R176 (1), (4), rule R160: two states with the same bundle, parameters and set of written cells are answered alike,
whatever their limbs: the same fault, or next states with the same response code and the same set of written cells; a command
answered OK writes exactly the cells of its written buffer in both (all of them are written afterwards, every other cell reads as
before), a rejected one none. -/
def Obligations.OutcomeDoesNotDependOnLimbValues : Prop :=
  ∀ (i : Instr) (s s' : State), s.wf = true → s'.wf = true → s.params = s'.params → s.ps = s'.ps →
    (∀ a, (s.om.read a).isSome = (s'.om.read a).isSome) →
    (∀ f, exec i s = .fault f ↔ exec i s' = .fault f) ∧
    ∀ t, exec i s = .next t → ∃ t' code, exec i s' = .next t' ∧ t.reply = .response code t.c ∧
      t'.reply = .response code t'.c ∧ (∀ a, (t.om.read a).isSome = (t'.om.read a).isSome) ∧
      (∀ a, (writtenBuffer s.ps.N i).contains a = false → t.om.read a = s.om.read a ∧ t'.om.read a = s'.om.read a) ∧
      (code = .ok → ∀ a, (writtenBuffer s.ps.N i).contains a = true → t.written a ∧ t'.written a) ∧
      (code ≠ .ok → t.om = s.om ∧ t'.om = s'.om)

/-- Rule R177: the duration of ISSUE takes no limb value, no address and no flag: on engines with one bundle it is the same for
two words with the same op, la, lb that are answered with the same code, and on one engine it is the same whatever OM and C
hold. -/
def Obligations.DurationDoesNotDependOnData : Prop :=
  (∀ (s s' : State) (w w' : BitVec 64), s.ps = s'.ps → opField w = opField w' → (fieldsOf w).la = (fieldsOf w').la →
    (fieldsOf w).lb = (fieldsOf w').lb → s.responseCode w = s'.responseCode w' →
    s.issueDuration w = s'.issueDuration w') ∧
  ∀ (s s' : State) (w : BitVec 64), s.ps = s'.ps → s.params = s'.params → s.issueDuration w = s'.issueDuration w

/-! ### Invariants -/

/-- Every step from a well-formed state leads to a well-formed state: operand memory keeps its canonical form, every written cell
exists and holds a W-bit limb, and PS stays the complete constants of a valid bundle of the engine. -/
def Obligations.StepKeepsTheStateWellFormed : Prop :=
  ∀ (s t : State), s.wf = true → step s = .next t → t.wf = true

/-- The state after reset is well-formed (the reference bundle is the model's choice, log entry 5). -/
def Obligations.ResetStateIsWellFormed : Prop := State.reset.wf = true

/-! ### The component functions -/

/-- Rule R121: p is odd; n' = K.NPRIME is the limb with (p * n' + 1) mod B = 0; when EA ≥ W, p is congruent to -1 modulo B and n' is
1, the case of both reference bundles. -/
def Obligations.NprimeIsTheNegatedInverse : Prop :=
  ∀ s : State, s.wf = true →
    s.ps.p % 2 = 1 ∧ s.ps.nprime < 2 ^ s.ps.W ∧ (s.ps.p * s.ps.nprime + 1) % 2 ^ s.ps.W = 0 ∧
    (∀ n, n < 2 ^ s.ps.W → (s.ps.p * n + 1) % 2 ^ s.ps.W = 0 → n = s.ps.nprime) ∧
    (s.ps.W ≤ s.ps.info.EA → (s.ps.p + 1) % 2 ^ s.ps.W = 0 ∧ s.ps.nprime = 1) ∧
    (s.ps = .ofParams .P751 ∨ s.ps = .ofParams .P964 → s.ps.W ≤ s.ps.info.EA)

/-- Rule R104: the schoolbook product of two n-limb arrays is 2n W-bit limbs of the exact product. -/
def Obligations.SchoolbookProductIsExact : Prop :=
  ∀ (W : Nat) (a b : List Nat), a.length = b.length → LimbsFit W a → LimbsFit W b →
    (smul W a b).length = 2 * a.length ∧ LimbsFit W (smul W a b) ∧ val W (smul W a b) = val W a * val W b

/-- Rule R110, rule R114: the Karatsuba product is exact at every depth, for every pair of arrays of one length, with no
precondition on their values. -/
def Obligations.KaratsubaProductIsExact : Prop :=
  ∀ (W d : Nat) (a b : List Nat), 2 ≤ W → 1 ≤ a.length → a.length = b.length → LimbsFit W a → LimbsFit W b →
    (km W d a b).length = 2 * a.length ∧ LimbsFit W (km W d a b) ∧ val W (km W d a b) = val W a * val W b

/-- Rule R117, rule R113: the Karatsuba multiplier matches the schoolbook multiplier limb for limb, and its result does not depend
on the depth. -/
def Obligations.KaratsubaMatchesSchoolbook : Prop :=
  ∀ (W d d' : Nat) (a b : List Nat), 2 ≤ W → 1 ≤ a.length → a.length = b.length → LimbsFit W a → LimbsFit W b →
    km W d a b = smul W a b ∧ km W d a b = km W d' a b

/-- Rules R120, R122: MREDF's result. With v the limbs v[i ..] at the start of round i and q its factor, each round leaves v[i] = 0
and drops no carry. With m the sum of q_i * 2^(W*i): m is in [0, R-1], it is the only number there with R dividing val(t) + m*p,
it is (val(t) mod R) * ((-p^(-1)) mod R) mod R, and val(r) + top*R = (val(t) + m*p) / R. For val(t) < R*p, top = 0, val(r) <= 2p-1
and val(r)*R is congruent to val(t) modulo p. -/
def Obligations.ReducerReturnsTheMontgomeryQuotient : Prop :=
  ∀ (s : State) (t : List Nat), s.wf = true → t.length = 2 * s.ps.N → LimbsFit s.ps.W t →
    let v := fun i => reduceRounds s.ps.W s.ps.nprime s.ps.P i (t ++ [0])
    let q := fun i => (v i).headD 0 * s.ps.nprime % 2 ^ s.ps.W
    let m := ∑ i ∈ Finset.range s.ps.N, q i * 2 ^ (s.ps.W * i)
    (∀ i, i < s.ps.N → (macRow s.ps.W (q i) s.ps.P (v i)).1.head? = some 0 ∧ (macRow s.ps.W (q i) s.ps.P (v i)).2 = 0) ∧
    (m < s.ps.R ∧ (val s.ps.W t + m * s.ps.p) % s.ps.R = 0 ∧
      (∀ m', m' < s.ps.R → (val s.ps.W t + m' * s.ps.p) % s.ps.R = 0 → m' = m) ∧
      ∃ n, n < s.ps.R ∧ (s.ps.p * n + 1) % s.ps.R = 0 ∧ m = val s.ps.W t % s.ps.R * n % s.ps.R) ∧
    ((mredf s.ps t).1.length = s.ps.N ∧ LimbsFit s.ps.W (mredf s.ps t).1 ∧ (mredf s.ps t).2 ≤ 1 ∧
      val s.ps.W (mredf s.ps t).1 + (mredf s.ps t).2 * s.ps.R = (val s.ps.W t + m * s.ps.p) / s.ps.R) ∧
    (val s.ps.W t < s.ps.R * s.ps.p →
      (mredf s.ps t).2 = 0 ∧ IsReduction s.ps (val s.ps.W t) (val s.ps.W (mredf s.ps t).1))

/-- Rule R123: whenever EA ≥ W the specialised reducer, which multiplies only the irregular tail K.PP1[Z ..] of p + 1, is the same function; then 1 ≤ Z < N and the low Z limbs of K.PP1 are 0. -/
def Obligations.SpecialisedReducerAgrees : Prop :=
  ∀ (s : State) (t : List Nat), s.wf = true → s.ps.W ≤ s.ps.info.EA → t.length = 2 * s.ps.N → LimbsFit s.ps.W t →
    mredfSpecial s.ps t = mredf s.ps t ∧ s.ps.z = s.ps.info.EA / s.ps.W ∧ 1 ≤ s.ps.z ∧ s.ps.z < s.ps.N ∧
    ∀ i, i < s.ps.z → s.ps.PP1[i]? = some 0

/-! ### The commands. Each statement gives the command's word, its rejections in order, and its OK clause. -/

/-- Rule R92: ADD: the sum modulo 2^(W*L) and its carry. -/
def Obligations.AddWritesSumAndCarry : Prop :=
  ∀ (dst src1 src2 len : Nat) (s : State), s.wf = true →
    (dst < 1024 → src1 < 1024 → src2 < 1024 → len < 256 →
      decode (BitVec.ofNat 64 (0x01 + len * 2 ^ 8 + dst * 2 ^ 32 + src1 * 2 ^ 42 + src2 * 2 ^ 52)) =
        .ok (.add dst src1 src2 len)) ∧
    (len = 0 → exec (.add dst src1 src2 len) s = s.reject .badShape) ∧
    (1 ≤ len → s.params.omLimbs < src1 + len ∨ s.params.omLimbs < src2 + len ∨ s.params.omLimbs < dst + len →
      exec (.add dst src1 src2 len) s = s.reject .badAddr) ∧
    (1 ≤ len → src1 + len ≤ s.params.omLimbs → src2 + len ≤ s.params.omLimbs → dst + len ≤ s.params.omLimbs →
      ((dst < src1 + len ∧ src1 < dst + len) ∨ (dst < src2 + len ∧ src2 < dst + len) →
        exec (.add dst src1 src2 len) s = s.reject .badAlias) ∧
      (¬(dst < src1 + len ∧ src1 < dst + len) → ¬(dst < src2 + len ∧ src2 < dst + len) →
        ∀ a b, s.om.readMany src1 len = .ok a → s.om.readMany src2 len = .ok b →
        ∃ t, exec (.add dst src1 src2 len) s = .next t ∧
          CommandDone s t dst (toLimbs s.ps.W len (val s.ps.W a + val s.ps.W b))
            (some (decide (2 ^ (s.ps.W * len) ≤ val s.ps.W a + val s.ps.W b)))))

/-- Rule R94: SUB, src1 minus src2: the difference modulo 2^(W*L) and its borrow. -/
def Obligations.SubWritesDifferenceAndBorrow : Prop :=
  ∀ (dst src1 src2 len : Nat) (s : State), s.wf = true →
    (dst < 1024 → src1 < 1024 → src2 < 1024 → len < 256 →
      decode (BitVec.ofNat 64 (0x02 + len * 2 ^ 8 + dst * 2 ^ 32 + src1 * 2 ^ 42 + src2 * 2 ^ 52)) =
        .ok (.sub dst src1 src2 len)) ∧
    (len = 0 → exec (.sub dst src1 src2 len) s = s.reject .badShape) ∧
    (1 ≤ len → s.params.omLimbs < src1 + len ∨ s.params.omLimbs < src2 + len ∨ s.params.omLimbs < dst + len →
      exec (.sub dst src1 src2 len) s = s.reject .badAddr) ∧
    (1 ≤ len → src1 + len ≤ s.params.omLimbs → src2 + len ≤ s.params.omLimbs → dst + len ≤ s.params.omLimbs →
      ((dst < src1 + len ∧ src1 < dst + len) ∨ (dst < src2 + len ∧ src2 < dst + len) →
        exec (.sub dst src1 src2 len) s = s.reject .badAlias) ∧
      (¬(dst < src1 + len ∧ src1 < dst + len) → ¬(dst < src2 + len ∧ src2 < dst + len) →
        ∀ a b, s.om.readMany src1 len = .ok a → s.om.readMany src2 len = .ok b →
        ∃ t, exec (.sub dst src1 src2 len) s = .next t ∧
          CommandDone s t dst (toLimbs s.ps.W len (val s.ps.W a + 2 ^ (s.ps.W * len) - val s.ps.W b))
            (some (decide (val s.ps.W a < val s.ps.W b)))))

/-- Rule R102: MAC, the accumulator in place; every cell of it must be written before, whatever x is (model fault otherwise). -/
def Obligations.MacAccumulatesTheRow : Prop :=
  ∀ (acc x y k m : Nat) (s : State), s.wf = true →
    (acc < 1024 → x < 1024 → y < 1024 → k < 256 → m < 256 →
      decode (BitVec.ofNat 64 (0x03 + k * 2 ^ 8 + m * 2 ^ 16 + acc * 2 ^ 32 + x * 2 ^ 42 + y * 2 ^ 52)) =
        .ok (.mac acc x y k m)) ∧
    (k = 0 ∨ m ≤ k → exec (.mac acc x y k m) s = s.reject .badShape) ∧
    (1 ≤ k → k < m → s.params.omLimbs < x + 1 ∨ s.params.omLimbs < y + k ∨ s.params.omLimbs < acc + m →
      exec (.mac acc x y k m) s = s.reject .badAddr) ∧
    (1 ≤ k → k < m → x + 1 ≤ s.params.omLimbs → y + k ≤ s.params.omLimbs → acc + m ≤ s.params.omLimbs →
      ((acc < x + 1 ∧ x < acc + m) ∨ (acc < y + k ∧ y < acc + m) → exec (.mac acc x y k m) s = s.reject .badAlias) ∧
      (¬(acc < x + 1 ∧ x < acc + m) → ¬(acc < y + k ∧ y < acc + m) → (∃ j, j < m ∧ s.om.read (acc + j) = none) →
        ∃ a, exec (.mac acc x y k m) s = .fault (.unwrittenCell a)) ∧
      (¬(acc < x + 1 ∧ x < acc + m) → ¬(acc < y + k ∧ y < acc + m) →
        ∀ xv yv av, s.om.read x = some xv → s.om.readMany y k = .ok yv → s.om.readMany acc m = .ok av →
        ∃ t, exec (.mac acc x y k m) s = .next t ∧
          CommandDone s t acc (toLimbs s.ps.W m (val s.ps.W av + xv * val s.ps.W yv))
            (some (decide (2 ^ (s.ps.W * m) ≤ val s.ps.W av + xv * val s.ps.W yv)))))

/-- Rule R112: KMUL: the exact 2N-limb product, C unchanged. -/
def Obligations.KmulWritesTheExactProduct : Prop :=
  ∀ (dst src1 src2 : Nat) (s : State), s.wf = true →
    (dst < 1024 → src1 < 1024 → src2 < 1024 →
      decode (BitVec.ofNat 64 (0x04 + dst * 2 ^ 32 + src1 * 2 ^ 42 + src2 * 2 ^ 52)) = .ok (.kmul dst src1 src2)) ∧
    (s.params.omLimbs < src1 + s.ps.N ∨ s.params.omLimbs < src2 + s.ps.N ∨ s.params.omLimbs < dst + 2 * s.ps.N →
      exec (.kmul dst src1 src2) s = s.reject .badAddr) ∧
    (src1 + s.ps.N ≤ s.params.omLimbs → src2 + s.ps.N ≤ s.params.omLimbs → dst + 2 * s.ps.N ≤ s.params.omLimbs →
      ((dst < src1 + s.ps.N ∧ src1 < dst + 2 * s.ps.N) ∨ (dst < src2 + s.ps.N ∧ src2 < dst + 2 * s.ps.N) →
        exec (.kmul dst src1 src2) s = s.reject .badAlias) ∧
      (¬(dst < src1 + s.ps.N ∧ src1 < dst + 2 * s.ps.N) → ¬(dst < src2 + s.ps.N ∧ src2 < dst + 2 * s.ps.N) →
        ∀ a b, s.om.readMany src1 s.ps.N = .ok a → s.om.readMany src2 s.ps.N = .ok b →
        ∃ t, exec (.kmul dst src1 src2) s = .next t ∧
          CommandDone s t dst (toLimbs s.ps.W (2 * s.ps.N) (val s.ps.W a * val s.ps.W b)) s.c))

/-- Rules R124, R125: MRED. For val(t) < R*p the limbs are those of the reduction of val(t); for val(t) ≥ R*p the command still
completes with response OK, writes N limbs that nothing is said of, and changes nothing else. -/
def Obligations.MredWritesTheReduction : Prop :=
  ∀ (dst src1 : Nat) (s : State), s.wf = true →
    (dst < 1024 → src1 < 1024 → decode (BitVec.ofNat 64 (0x05 + dst * 2 ^ 32 + src1 * 2 ^ 42)) = .ok (.mred dst src1)) ∧
    (s.params.omLimbs < src1 + 2 * s.ps.N ∨ s.params.omLimbs < dst + s.ps.N →
      exec (.mred dst src1) s = s.reject .badAddr) ∧
    (src1 + 2 * s.ps.N ≤ s.params.omLimbs → dst + s.ps.N ≤ s.params.omLimbs →
      (dst < src1 + 2 * s.ps.N ∧ src1 < dst + s.ps.N → exec (.mred dst src1) s = s.reject .badAlias) ∧
      (¬(dst < src1 + 2 * s.ps.N ∧ src1 < dst + s.ps.N) → ∀ t, s.om.readMany src1 (2 * s.ps.N) = .ok t →
        (val s.ps.W t < s.ps.R * s.ps.p → ∃ u r, exec (.mred dst src1) s = .next u ∧
          CommandDone s u dst (toLimbs s.ps.W s.ps.N r) s.c ∧ IsReduction s.ps (val s.ps.W t) r ∧ u.draws = s.draws) ∧
        (s.ps.R * s.ps.p ≤ val s.ps.W t → ∃ u out, exec (.mred dst src1) s = .next u ∧ out.length = s.ps.N ∧
          LimbsFit s.ps.W out ∧ CommandDone s u dst out s.c)))

/-- Rule R131: FADD: (a + b) mod R, no reduction; exact for Field Elements. -/
def Obligations.FaddWritesTheSum : Prop :=
  ∀ (dst src1 src2 : Nat) (s : State), s.wf = true →
    (dst < 1024 → src1 < 1024 → src2 < 1024 →
      decode (BitVec.ofNat 64 (0x10 + dst * 2 ^ 32 + src1 * 2 ^ 42 + src2 * 2 ^ 52)) = .ok (.fadd dst src1 src2)) ∧
    (s.params.omLimbs < src1 + s.ps.N ∨ s.params.omLimbs < src2 + s.ps.N ∨ s.params.omLimbs < dst + s.ps.N →
      exec (.fadd dst src1 src2) s = s.reject .badAddr) ∧
    (src1 + s.ps.N ≤ s.params.omLimbs → src2 + s.ps.N ≤ s.params.omLimbs → dst + s.ps.N ≤ s.params.omLimbs →
      ((dst < src1 + s.ps.N ∧ src1 < dst + s.ps.N) ∨ (dst < src2 + s.ps.N ∧ src2 < dst + s.ps.N) →
        exec (.fadd dst src1 src2) s = s.reject .badAlias) ∧
      (¬(dst < src1 + s.ps.N ∧ src1 < dst + s.ps.N) → ¬(dst < src2 + s.ps.N ∧ src2 < dst + s.ps.N) →
        ∀ a b, s.om.readMany src1 s.ps.N = .ok a → s.om.readMany src2 s.ps.N = .ok b →
        (∃ t, exec (.fadd dst src1 src2) s = .next t ∧
          CommandDone s t dst (toLimbs s.ps.W s.ps.N ((val s.ps.W a + val s.ps.W b) % s.ps.R)) s.c) ∧
        (FieldElement s.ps a → FieldElement s.ps b →
          (val s.ps.W a + val s.ps.W b) % s.ps.R = val s.ps.W a + val s.ps.W b)))

/-- Rule R132: FSUB, src1 minus src2: a - b, with 2p added when it is negative; a Field Element for Field Elements. -/
def Obligations.FsubWritesTheDifference : Prop :=
  ∀ (dst src1 src2 : Nat) (s : State), s.wf = true →
    (dst < 1024 → src1 < 1024 → src2 < 1024 →
      decode (BitVec.ofNat 64 (0x11 + dst * 2 ^ 32 + src1 * 2 ^ 42 + src2 * 2 ^ 52)) = .ok (.fsub dst src1 src2)) ∧
    (s.params.omLimbs < src1 + s.ps.N ∨ s.params.omLimbs < src2 + s.ps.N ∨ s.params.omLimbs < dst + s.ps.N →
      exec (.fsub dst src1 src2) s = s.reject .badAddr) ∧
    (src1 + s.ps.N ≤ s.params.omLimbs → src2 + s.ps.N ≤ s.params.omLimbs → dst + s.ps.N ≤ s.params.omLimbs →
      ((dst < src1 + s.ps.N ∧ src1 < dst + s.ps.N) ∨ (dst < src2 + s.ps.N ∧ src2 < dst + s.ps.N) →
        exec (.fsub dst src1 src2) s = s.reject .badAlias) ∧
      (¬(dst < src1 + s.ps.N ∧ src1 < dst + s.ps.N) → ¬(dst < src2 + s.ps.N ∧ src2 < dst + s.ps.N) →
        ∀ a b, s.om.readMany src1 s.ps.N = .ok a → s.om.readMany src2 s.ps.N = .ok b →
        ∃ t r, exec (.fsub dst src1 src2) s = .next t ∧ CommandDone s t dst (toLimbs s.ps.W s.ps.N r) s.c ∧
          r < s.ps.R ∧
          (val s.ps.W b ≤ val s.ps.W a → r = val s.ps.W a - val s.ps.W b) ∧
          (val s.ps.W a < val s.ps.W b → r = (val s.ps.W a + s.ps.R - val s.ps.W b + 2 * s.ps.p) % s.ps.R) ∧
          (FieldElement s.ps a → FieldElement s.ps b →
            r < 2 * s.ps.p ∧ (r + val s.ps.W b) % s.ps.p = val s.ps.W a % s.ps.p ∧
            (val s.ps.W a < val s.ps.W b → r = val s.ps.W a + 2 * s.ps.p - val s.ps.W b))))

/-- Rule R133: FNEG, in place: 2p - a, the borrow dropped; in [1, 2p] and congruent to -a for a Field Element. -/
def Obligations.FnegWritesTwoPMinusA : Prop :=
  ∀ (dst : Nat) (s : State), s.wf = true →
    (dst < 1024 → decode (BitVec.ofNat 64 (0x12 + dst * 2 ^ 32)) = .ok (.fneg dst)) ∧
    (s.params.omLimbs < dst + s.ps.N → exec (.fneg dst) s = s.reject .badAddr) ∧
    (dst + s.ps.N ≤ s.params.omLimbs → ∀ a, s.om.readMany dst s.ps.N = .ok a →
      ∃ t r, exec (.fneg dst) s = .next t ∧ CommandDone s t dst (toLimbs s.ps.W s.ps.N r) s.c ∧
        r = (2 * s.ps.p + s.ps.R - val s.ps.W a) % s.ps.R ∧
        (val s.ps.W a ≤ 2 * s.ps.p → r = 2 * s.ps.p - val s.ps.W a) ∧
        (FieldElement s.ps a → 1 ≤ r ∧ r ≤ 2 * s.ps.p ∧ (r + val s.ps.W a) % s.ps.p = 0))

/-- Rule R134: FDIV2: a / 2 for even a, (a + p) / 2 for odd a, the carry of the add dropped; for a Field Element both divisions are
exact and twice the result is congruent to a. -/
def Obligations.Fdiv2WritesTheHalf : Prop :=
  ∀ (dst src1 : Nat) (s : State), s.wf = true →
    (dst < 1024 → src1 < 1024 → decode (BitVec.ofNat 64 (0x13 + dst * 2 ^ 32 + src1 * 2 ^ 42)) = .ok (.fdiv2 dst src1)) ∧
    (s.params.omLimbs < src1 + s.ps.N ∨ s.params.omLimbs < dst + s.ps.N → exec (.fdiv2 dst src1) s = s.reject .badAddr) ∧
    (src1 + s.ps.N ≤ s.params.omLimbs → dst + s.ps.N ≤ s.params.omLimbs →
      (dst < src1 + s.ps.N ∧ src1 < dst + s.ps.N → exec (.fdiv2 dst src1) s = s.reject .badAlias) ∧
      (¬(dst < src1 + s.ps.N ∧ src1 < dst + s.ps.N) → ∀ a, s.om.readMany src1 s.ps.N = .ok a →
        ∃ t r, exec (.fdiv2 dst src1) s = .next t ∧ CommandDone s t dst (toLimbs s.ps.W s.ps.N r) s.c ∧
          (val s.ps.W a % 2 = 0 → r = val s.ps.W a / 2) ∧
          (val s.ps.W a % 2 = 1 → r = (val s.ps.W a + s.ps.p) % s.ps.R / 2) ∧
          (FieldElement s.ps a → r < 2 * s.ps.p ∧ 2 * r % s.ps.p = val s.ps.W a % s.ps.p ∧
            (val s.ps.W a % 2 = 1 → 2 * r = val s.ps.W a + s.ps.p))))

/-- Rule R135: FCORR, in place: one p subtracted from a value of at least p; a mod p for a Field Element. -/
def Obligations.FcorrWritesTheCanonicalValue : Prop :=
  ∀ (dst : Nat) (s : State), s.wf = true →
    (dst < 1024 → decode (BitVec.ofNat 64 (0x14 + dst * 2 ^ 32)) = .ok (.fcorr dst)) ∧
    (s.params.omLimbs < dst + s.ps.N → exec (.fcorr dst) s = s.reject .badAddr) ∧
    (dst + s.ps.N ≤ s.params.omLimbs → ∀ a, s.om.readMany dst s.ps.N = .ok a →
      ∃ t r, exec (.fcorr dst) s = .next t ∧ CommandDone s t dst (toLimbs s.ps.W s.ps.N r) s.c ∧
        (val s.ps.W a < s.ps.p → r = val s.ps.W a) ∧ (s.ps.p ≤ val s.ps.W a → r = val s.ps.W a - s.ps.p) ∧
        (FieldElement s.ps a → r = val s.ps.W a % s.ps.p))

/-- Rules R136, R125, R141: FMUL: the reduction of a*b while a*b < R*p, which holds for Field Elements; otherwise N limbs that
nothing is said of. -/
def Obligations.FmulWritesTheReducedProduct : Prop :=
  ∀ (dst src1 src2 : Nat) (s : State), s.wf = true →
    (dst < 1024 → src1 < 1024 → src2 < 1024 →
      decode (BitVec.ofNat 64 (0x15 + dst * 2 ^ 32 + src1 * 2 ^ 42 + src2 * 2 ^ 52)) = .ok (.fmul dst src1 src2)) ∧
    (s.params.omLimbs < src1 + s.ps.N ∨ s.params.omLimbs < src2 + s.ps.N ∨ s.params.omLimbs < dst + s.ps.N →
      exec (.fmul dst src1 src2) s = s.reject .badAddr) ∧
    (src1 + s.ps.N ≤ s.params.omLimbs → src2 + s.ps.N ≤ s.params.omLimbs → dst + s.ps.N ≤ s.params.omLimbs →
      ((dst < src1 + s.ps.N ∧ src1 < dst + s.ps.N) ∨ (dst < src2 + s.ps.N ∧ src2 < dst + s.ps.N) →
        exec (.fmul dst src1 src2) s = s.reject .badAlias) ∧
      (¬(dst < src1 + s.ps.N ∧ src1 < dst + s.ps.N) → ¬(dst < src2 + s.ps.N ∧ src2 < dst + s.ps.N) →
        ∀ a b, s.om.readMany src1 s.ps.N = .ok a → s.om.readMany src2 s.ps.N = .ok b →
        (val s.ps.W a * val s.ps.W b < s.ps.R * s.ps.p → ∃ t r, exec (.fmul dst src1 src2) s = .next t ∧
          CommandDone s t dst (toLimbs s.ps.W s.ps.N r) s.c ∧ IsReduction s.ps (val s.ps.W a * val s.ps.W b) r ∧
          t.draws = s.draws) ∧
        (FieldElement s.ps a → FieldElement s.ps b → val s.ps.W a * val s.ps.W b < s.ps.R * s.ps.p) ∧
        (s.ps.R * s.ps.p ≤ val s.ps.W a * val s.ps.W b → ∃ t out, exec (.fmul dst src1 src2) s = .next t ∧
          out.length = s.ps.N ∧ LimbsFit s.ps.W out ∧ CommandDone s t dst out s.c)))

/-- Rules R137, R125, R141: FSQR: the reduction of a*a while a*a < R*p, bit for bit what FMUL of a by a writes; otherwise N limbs
that nothing is said of. -/
def Obligations.FsqrWritesTheReducedSquare : Prop :=
  ∀ (dst src1 : Nat) (s : State), s.wf = true →
    (dst < 1024 → src1 < 1024 → decode (BitVec.ofNat 64 (0x16 + dst * 2 ^ 32 + src1 * 2 ^ 42)) = .ok (.fsqr dst src1)) ∧
    (s.params.omLimbs < src1 + s.ps.N ∨ s.params.omLimbs < dst + s.ps.N → exec (.fsqr dst src1) s = s.reject .badAddr) ∧
    (src1 + s.ps.N ≤ s.params.omLimbs → dst + s.ps.N ≤ s.params.omLimbs →
      (dst < src1 + s.ps.N ∧ src1 < dst + s.ps.N → exec (.fsqr dst src1) s = s.reject .badAlias) ∧
      (¬(dst < src1 + s.ps.N ∧ src1 < dst + s.ps.N) → ∀ a, s.om.readMany src1 s.ps.N = .ok a →
        (val s.ps.W a * val s.ps.W a < s.ps.R * s.ps.p → ∃ t r, exec (.fsqr dst src1) s = .next t ∧
          CommandDone s t dst (toLimbs s.ps.W s.ps.N r) s.c ∧ IsReduction s.ps (val s.ps.W a * val s.ps.W a) r ∧
          t.draws = s.draws ∧ exec (.fmul dst src1 src1) s = .next t) ∧
        (FieldElement s.ps a → val s.ps.W a * val s.ps.W a < s.ps.R * s.ps.p) ∧
        (s.ps.R * s.ps.p ≤ val s.ps.W a * val s.ps.W a → ∃ t out, exec (.fsqr dst src1) s = .next t ∧
          out.length = s.ps.N ∧ LimbsFit s.ps.W out ∧ CommandDone s t dst out s.c)))

/-! ### The properties of rule R140 -/

/-- Rule R140: "correction(add(a,b)) == (a+b) mod p" for a, b in [0, p-1], on the limbs the commands write. -/
def Obligations.CorrectionOfASumIsTheSumModP : Prop :=
  ∀ (s : State) (a b : List Nat), s.wf = true → Canonical s.ps a → Canonical s.ps b →
    fieldCorrect s.ps (fieldAdd s.ps a b) = toLimbs s.ps.W s.ps.N ((val s.ps.W a + val s.ps.W b) % s.ps.p)

/-- Rule R140: correction is idempotent, lands in [0, p-1] and keeps the residue class. -/
def Obligations.CorrectionIsIdempotentAndCanonical : Prop :=
  ∀ (s : State) (a : List Nat), s.wf = true → FieldElement s.ps a →
    fieldCorrect s.ps (fieldCorrect s.ps a) = fieldCorrect s.ps a ∧ Canonical s.ps (fieldCorrect s.ps a) ∧
    val s.ps.W (fieldCorrect s.ps a) % s.ps.p = val s.ps.W a % s.ps.p

/-- Rule R140: for x, y in [0, p-1], multiplying their Montgomery representations, reducing the zero-extended product and
correcting it gives x*y mod p. -/
def Obligations.MontgomeryMultiplicationIsModularMultiplication : Prop :=
  ∀ (s : State) (x y : Nat), s.wf = true → x < s.ps.p → y < s.ps.p →
    let a := toLimbs s.ps.W s.ps.N (x * s.ps.R % s.ps.p)
    let b := toLimbs s.ps.W s.ps.N (y * s.ps.R % s.ps.p)
    let product := (mredf s.ps (km s.ps.W s.ps.info.KDEPTH a b)).1
    fieldCorrect s.ps (mredf s.ps (product ++ List.replicate s.ps.N 0)).1 =
      toLimbs s.ps.W s.ps.N (x * y % s.ps.p)

/-- Rule R139: FMUL by K.R2 converts into Montgomery representation: the result is a Field Element congruent to x*R; MRED of a
zero-extended element converts out: the result times R is congruent to x, and is at most p. -/
def Obligations.ConversionsMultiplyByRAndItsInverse : Prop :=
  ∀ (s : State) (x : List Nat), s.wf = true → FieldElement s.ps x →
    FieldElement s.ps (mredf s.ps (km s.ps.W s.ps.info.KDEPTH x s.ps.R2)).1 ∧
    val s.ps.W (mredf s.ps (km s.ps.W s.ps.info.KDEPTH x s.ps.R2)).1 % s.ps.p = val s.ps.W x * s.ps.R % s.ps.p ∧
    val s.ps.W (mredf s.ps (x ++ List.replicate s.ps.N 0)).1 ≤ s.ps.p ∧
    val s.ps.W (mredf s.ps (x ++ List.replicate s.ps.N 0)).1 * s.ps.R % s.ps.p = val s.ps.W x % s.ps.p
end

