-- ==== Sys2Proof/Laws/Arith.lean ====
section
/-! SUPPORT. Laws/Arith.lean: the limb functions of the components: length, range of the limbs, and the integer equation of the
adder, the subtractor and the multiply-accumulate row (40_carry_chain.md rules R91, R93, 41_schoolbook_mac.md rule R101). -/

namespace Sys2Proof.Machine

section val
variable {W : Nat}

@[simp] theorem val_nil : val W [] = 0 := rfl
@[simp] theorem val_cons (x : Nat) (xs : List Nat) : val W (x :: xs) = x + 2 ^ W * val W xs := rfl

theorem val_append (xs ys : List Nat) : val W (xs ++ ys) = val W xs + 2 ^ (W * xs.length) * val W ys := by
  induction xs with
  | nil => simp
  | cons x xs ih =>
    rw [List.cons_append, val_cons, val_cons, ih, List.length_cons, mul_add W, pow_add]
    ring

theorem val_lt {xs : List Nat} (h : LimbsFit W xs) : val W xs < 2 ^ (W * xs.length) := by
  induction xs with
  | nil => simp
  | cons x xs ih =>
    have hx := h x (by simp)
    have ih := ih fun y hy => h y (by simp [hy])
    have := Nat.mul_le_mul_left (2 ^ W) ih
    rw [val_cons, List.length_cons, mul_add, mul_one, add_comm (W * xs.length), pow_add]
    rw [Nat.mul_succ] at this
    omega

@[simp] theorem val_replicate_zero (n : Nat) : val W (List.replicate n 0) = 0 := by
  induction n with
  | zero => rfl
  | succ n ih => simp [List.replicate_succ, ih]

theorem val_take_add_drop (xs : List Nat) {n : Nat} (h : n ≤ xs.length) :
    val W xs = val W (xs.take n) + 2 ^ (W * n) * val W (xs.drop n) := by
  conv_lhs => rw [← List.take_append_drop n xs, val_append]
  rw [List.length_take, Nat.min_eq_left h]

/-- Two arrays of W-bit limbs of one length with one value are equal. -/
theorem val_inj {xs ys : List Nat} (hl : xs.length = ys.length) (hx : LimbsFit W xs) (hy : LimbsFit W ys)
    (h : val W xs = val W ys) : xs = ys := by
  induction xs generalizing ys with
  | nil => cases ys <;> simp_all
  | cons x xs ih =>
    cases ys with
    | nil => simp at hl
    | cons y ys =>
      rw [val_cons, val_cons] at h
      have hx0 := hx x (by simp)
      have hy0 := hy y (by simp)
      have hxy : x = y := by
        have h1 := congrArg (· % 2 ^ W) h
        simpa [Nat.add_mul_mod_self_left, Nat.mod_eq_of_lt hx0, Nat.mod_eq_of_lt hy0] using h1
      subst hxy
      have h2 : val W xs = val W ys := Nat.eq_of_mul_eq_mul_left (Nat.two_pow_pos W) (by omega)
      rw [ih (by simpa using hl) (fun z hz => hx z (by simp [hz])) (fun z hz => hy z (by simp [hz])) h2]

@[simp] theorem toLimbs_length (n v : Nat) : (toLimbs W n v).length = n := by
  induction n generalizing v with
  | zero => rfl
  | succ n ih => simp [toLimbs, ih]

theorem toLimbs_fit (n v : Nat) : LimbsFit W (toLimbs W n v) := by
  induction n generalizing v with
  | zero => intro x hx; cases hx
  | succ n ih =>
    intro x hx
    rcases List.mem_cons.mp hx with rfl | hx
    · exact Nat.mod_lt _ (Nat.two_pow_pos W)
    · exact ih _ x hx

theorem val_toLimbs (n v : Nat) : val W (toLimbs W n v) = v % 2 ^ (W * n) := by
  induction n generalizing v with
  | zero => simp [toLimbs, Nat.mod_one]
  | succ n ih => rw [toLimbs, val_cons, ih, mul_add, mul_one, add_comm (W * n), pow_add, Nat.mod_mul]

/-- Limbs with a given value are the limbs of that value. -/
theorem eq_toLimbs {n v : Nat} {xs : List Nat} (hl : xs.length = n) (hx : LimbsFit W xs)
    (hv : val W xs = v % 2 ^ (W * n)) : xs = toLimbs W n v :=
  val_inj (by simp [hl]) hx (toLimbs_fit _ _) (hv.trans (val_toLimbs n v).symm)

end val

section adder
variable {W : Nat}

theorem addChain_length {a b : List Nat} (h : a.length = b.length) (c : Nat) : (addChain W a b c).1.length = a.length := by
  induction a generalizing b c with
  | nil => cases b <;> rfl
  | cons x xs ih =>
    cases b with
    | nil => simp at h
    | cons y ys => simpa [addChain] using ih (by simpa using h) _

@[simp] theorem addL_length {a b : List Nat} (h : a.length = b.length) : (addL W a b).1.length = a.length :=
  addChain_length h 0

theorem addChain_fit (a b : List Nat) (c : Nat) : LimbsFit W (addChain W a b c).1 := by
  induction a generalizing b c with
  | nil => intro x hx; cases b <;> cases hx
  | cons y ys ih =>
    cases b with
    | nil => intro x hx; cases hx
    | cons z zs =>
      intro x hx
      rcases List.mem_cons.mp hx with rfl | hx
      · exact Nat.mod_lt _ (Nat.two_pow_pos W)
      · exact ih _ _ x hx

theorem addL_fit (a b : List Nat) : LimbsFit W (addL W a b).1 := addChain_fit a b 0

theorem addChain_val {a b : List Nat} (h : a.length = b.length) (c : Nat) :
    val W (addChain W a b c).1 + 2 ^ (W * a.length) * (addChain W a b c).2 = val W a + val W b + c := by
  induction a generalizing b c with
  | nil => cases b <;> simp_all [addChain]
  | cons x xs ih =>
    cases b with
    | nil => simp at h
    | cons y ys =>
      have ih := ih (b := ys) (by simpa using h) ((x + y + c) / 2 ^ W)
      have hdiv := Nat.mod_add_div (x + y + c) (2 ^ W)
      simp only [addChain, val_cons, List.length_cons, mul_add, mul_one, pow_add]
      linear_combination 2 ^ W * ih + hdiv

theorem addChain_carry {a b : List Nat} (ha : LimbsFit W a) (hb : LimbsFit W b) {c : Nat} (hc : c ≤ 1) :
    (addChain W a b c).2 ≤ 1 := by
  induction a generalizing b c with
  | nil => cases b <;> simpa [addChain] using hc
  | cons x xs ih =>
    cases b with
    | nil => simpa [addChain] using hc
    | cons y ys =>
      refine ih (fun z hz => ha z (by simp [hz])) (fun z hz => hb z (by simp [hz])) ?_
      have := ha x (by simp)
      have := hb y (by simp)
      exact Nat.le_of_lt_succ ((Nat.div_lt_iff_lt_mul (Nat.two_pow_pos W)).mpr (by omega))

/-- The property of rule R91: val(a) + val(b) = val(s) + c * 2^(W*L), with c a bit. -/
theorem addL_val {a b : List Nat} (h : a.length = b.length) :
    val W (addL W a b).1 + 2 ^ (W * a.length) * (addL W a b).2 = val W a + val W b := by
  simpa [addL] using addChain_val h 0

theorem addL_carry {a b : List Nat} (ha : LimbsFit W a) (hb : LimbsFit W b) : (addL W a b).2 ≤ 1 :=
  addChain_carry ha hb (by omega)

end adder

section subtractor
variable {W : Nat}

theorem subChain_length {a b : List Nat} (h : a.length = b.length) (c : Nat) : (subChain W a b c).1.length = a.length := by
  induction a generalizing b c with
  | nil => cases b <;> rfl
  | cons x xs ih =>
    cases b with
    | nil => simp at h
    | cons y ys => simpa [subChain] using ih (by simpa using h) _

@[simp] theorem subL_length {a b : List Nat} (h : a.length = b.length) : (subL W a b).1.length = a.length :=
  subChain_length h 0

theorem subChain_fit (a b : List Nat) (c : Nat) : LimbsFit W (subChain W a b c).1 := by
  induction a generalizing b c with
  | nil => intro x hx; cases b <;> cases hx
  | cons y ys ih =>
    cases b with
    | nil => intro x hx; cases hx
    | cons z zs =>
      intro x hx
      rcases List.mem_cons.mp hx with rfl | hx
      · have hpos : (0 : Int) < ((2 ^ W : Nat) : Int) := by exact_mod_cast Nat.two_pow_pos W
        have h1 := Int.emod_lt_of_pos (limbDifference y z c) hpos
        have h2 := Int.emod_nonneg (limbDifference y z c) hpos.ne'
        omega
      · exact ih _ _ x hx

theorem subL_fit (a b : List Nat) : LimbsFit W (subL W a b).1 := subChain_fit a b 0

/-- One limb of the subtractor: x = d + y + bw - bw' * B. -/
theorem limbDifference_spec {x y c : Nat} (hx : x < 2 ^ W) (hy : y < 2 ^ W) (hc : c ≤ 1) :
    x + 2 ^ W * (if limbDifference x y c < 0 then 1 else 0) =
      (limbDifference x y c % (2 ^ W : Nat)).toNat + y + c := by
  unfold limbDifference
  generalize 2 ^ W = B at *
  split
  · rename_i hneg
    have h : ((x : Int) - y - c) % (B : Nat) = (x : Int) - y - c + B := by
      rw [← Int.add_emod_right, Int.emod_eq_of_lt (by omega) (by omega)]
    omega
  · rw [Int.emod_eq_of_lt (by omega) (by omega)]
    omega

theorem subChain_val {a b : List Nat} (h : a.length = b.length) (ha : LimbsFit W a) (hb : LimbsFit W b) {c : Nat}
    (hc : c ≤ 1) :
    val W a + 2 ^ (W * a.length) * (subChain W a b c).2 = val W (subChain W a b c).1 + val W b + c ∧
      (subChain W a b c).2 ≤ 1 := by
  induction a generalizing b c with
  | nil => cases b <;> simp_all [subChain]
  | cons x xs ih =>
    cases b with
    | nil => simp at h
    | cons y ys =>
      have hx := ha x (by simp)
      have hy := hb y (by simp)
      have hc' : (if limbDifference x y c < 0 then 1 else 0) ≤ 1 := by split <;> omega
      obtain ⟨ih, ihc⟩ := ih (b := ys) (by simpa using h) (fun z hz => ha z (by simp [hz]))
        (fun z hz => hb z (by simp [hz])) hc'
      have hlimb := limbDifference_spec hx hy hc
      refine ⟨?_, ihc⟩
      simp only [subChain, val_cons, List.length_cons, mul_add, mul_one, pow_add]
      linear_combination 2 ^ W * ih + hlimb

/-- The property of rule R93: val(a) - val(b) = val(d) - bw * 2^(W*L), with bw a bit. -/
theorem subL_val {a b : List Nat} (h : a.length = b.length) (ha : LimbsFit W a) (hb : LimbsFit W b) :
    val W a + 2 ^ (W * a.length) * (subL W a b).2 = val W (subL W a b).1 + val W b ∧ (subL W a b).2 ≤ 1 := by
  simpa [subL] using subChain_val h ha hb (c := 0) (by omega)

end subtractor

section mask
variable {W : Nat}

@[simp] theorem mask_zero (W : Nat) : mask W 0 = 0 := by simp [mask]

theorem mask_one (W : Nat) : mask W 1 = 2 ^ W - 1 := by
  rw [mask, Nat.mod_eq_of_lt]
  have := Nat.two_pow_pos W
  omega

@[simp] theorem maskLimbs_length (b : Nat) (xs : List Nat) : (maskLimbs W b xs).length = xs.length := by
  simp [maskLimbs]

/-- Masking selects the array or zero (00_scope.md rule R14). -/
theorem maskLimbs_zero (xs : List Nat) : maskLimbs W 0 xs = List.replicate xs.length 0 := by
  induction xs with
  | nil => rfl
  | cons x xs ih => simp_all [maskLimbs, List.replicate_succ]

theorem maskLimbs_one {xs : List Nat} (h : LimbsFit W xs) : maskLimbs W 1 xs = xs := by
  have hx : ∀ x ∈ xs, x &&& mask W 1 = x := fun x hx => by
    rw [mask_one, Nat.and_two_pow_sub_one_eq_mod, Nat.mod_eq_of_lt (h x hx)]
  rw [maskLimbs, List.map_congr_left hx, List.map_id']

theorem maskLimbs_val {b : Nat} {xs : List Nat} (hb : b ≤ 1) (h : LimbsFit W xs) :
    val W (maskLimbs W b xs) = b * val W xs := by
  obtain rfl | rfl : b = 0 ∨ b = 1 := by omega
  · simp [maskLimbs_zero]
  · simp [maskLimbs_one h]

theorem maskLimbs_fit (b : Nat) {xs : List Nat} (h : LimbsFit W xs) : LimbsFit W (maskLimbs W b xs) := by
  intro y hy
  obtain ⟨x, hx, rfl⟩ := List.mem_map.mp hy
  exact lt_of_le_of_lt Nat.and_le_left (h x hx)

end mask

section mac
variable {W : Nat}

theorem rippleCarry_length (as : List Nat) (c : Nat) : (rippleCarry W as c).1.length = as.length := by
  induction as generalizing c with
  | nil => rfl
  | cons a as ih => simp [rippleCarry, ih]

theorem rippleCarry_fit (as : List Nat) (c : Nat) : LimbsFit W (rippleCarry W as c).1 := by
  induction as generalizing c with
  | nil => intro x hx; cases hx
  | cons a as ih =>
    intro x hx
    rcases List.mem_cons.mp hx with rfl | hx
    · exact Nat.mod_lt _ (Nat.two_pow_pos W)
    · exact ih _ x hx

theorem rippleCarry_val (as : List Nat) (c : Nat) :
    val W (rippleCarry W as c).1 + 2 ^ (W * as.length) * (rippleCarry W as c).2 = val W as + c := by
  induction as generalizing c with
  | nil => simp [rippleCarry]
  | cons a as ih =>
    have ih := ih ((a + c) / 2 ^ W)
    have hdiv := Nat.mod_add_div (a + c) (2 ^ W)
    simp only [rippleCarry, val_cons, List.length_cons, mul_add, mul_one, pow_add]
    linear_combination 2 ^ W * ih + hdiv

theorem macChain_length (x : Nat) {ys as : List Nat} (h : ys.length ≤ as.length) (c : Nat) :
    (macChain W x ys as c).1.length = as.length := by
  induction ys generalizing as c with
  | nil => cases as <;> simp [macChain, rippleCarry_length]
  | cons y ys ih =>
    cases as with
    | nil => simp at h
    | cons a as => simpa [macChain] using ih (by simpa using h) _

theorem macChain_fit (x : Nat) (ys as : List Nat) (c : Nat) : LimbsFit W (macChain W x ys as c).1 := by
  induction ys generalizing as c with
  | nil =>
    intro z hz
    rw [show macChain W x [] as c = rippleCarry W as c by cases as <;> rfl] at hz
    exact rippleCarry_fit as c z hz
  | cons y ys ih =>
    cases as with
    | nil => intro z hz; cases hz
    | cons a as =>
      intro z hz
      rcases List.mem_cons.mp hz with rfl | hz
      · exact Nat.mod_lt _ (Nat.two_pow_pos W)
      · exact ih _ _ z hz

theorem macChain_val (x : Nat) {ys as : List Nat} (h : ys.length ≤ as.length) (c : Nat) :
    val W (macChain W x ys as c).1 + 2 ^ (W * as.length) * (macChain W x ys as c).2 = val W as + x * val W ys + c := by
  induction ys generalizing as c with
  | nil =>
    rw [show macChain W x [] as c = rippleCarry W as c by cases as <;> rfl]
    simpa using rippleCarry_val as c
  | cons y ys ih =>
    cases as with
    | nil => simp at h
    | cons a as =>
      have ih := ih (as := as) (by simpa using h) ((a + x * y + c) / 2 ^ W)
      have hdiv := Nat.mod_add_div (a + x * y + c) (2 ^ W)
      simp only [macChain, val_cons, List.length_cons, mul_add, mul_one, pow_add]
      linear_combination 2 ^ W * ih + hdiv

theorem macRow_length (x : Nat) {ys as : List Nat} (h : ys.length ≤ as.length) : (macRow W x ys as).1.length = as.length :=
  macChain_length x h 0

theorem macRow_fit (x : Nat) (ys as : List Nat) : LimbsFit W (macRow W x ys as).1 := macChain_fit x ys as 0

/-- The property of rule R101: val(acc) + x * val(y) = val(acc') + c * 2^(W*m). -/
theorem macRow_val (x : Nat) {ys as : List Nat} (h : ys.length ≤ as.length) :
    val W (macRow W x ys as).1 + 2 ^ (W * as.length) * (macRow W x ys as).2 = val W as + x * val W ys := by
  simpa [macRow] using macChain_val x h 0

/-- The bound of rule R101: with m >= k + 1 the carry out of the accumulator is a bit. -/
theorem macRow_carry {x : Nat} {ys as : List Nat} (hx : x < 2 ^ W) (hy : LimbsFit W ys) (ha : LimbsFit W as)
    (h : ys.length < as.length) : (macRow W x ys as).2 ≤ 1 := by
  have hv := macRow_val (W := W) x (le_of_lt h)
  have hlt := val_lt ha
  have hylt := val_lt hy
  have hprod : x * val W ys < 2 ^ (W * as.length) := by
    calc x * val W ys ≤ x * 2 ^ (W * ys.length) := Nat.mul_le_mul_left _ (le_of_lt hylt)
      _ < 2 ^ W * 2 ^ (W * ys.length) := Nat.mul_lt_mul_of_pos_right hx (Nat.two_pow_pos _)
      _ = 2 ^ (W * (ys.length + 1)) := by rw [← pow_add]; ring_nf
      _ ≤ 2 ^ (W * as.length) := Nat.pow_le_pow_right (by norm_num) (Nat.mul_le_mul_left _ h)
  by_contra hc
  have : 2 ^ (W * as.length) * 2 ≤ 2 ^ (W * as.length) * (macRow W x ys as).2 := Nat.mul_le_mul_left _ (by omega)
  omega

end mac

section multiplier
variable {W : Nat}

theorem smulRows_length {xs b out : List Nat} (h : xs.length + b.length ≤ out.length) :
    (smulRows W xs b out).length = out.length := by
  induction xs generalizing out with
  | nil => rfl
  | cons x xs ih =>
    simp only [List.length_cons] at h
    have hl := macRow_length (W := W) x (ys := b) (as := out) (by omega)
    unfold smulRows
    cases hr : (macRow W x b out).1 with
    | nil => rw [hr] at hl; simp only [List.length_nil] at hl; omega
    | cons o rest =>
      rw [hr, List.length_cons] at hl
      simp only [List.length_cons]
      rw [ih (by omega), hl]

theorem smulRows_fit (xs b : List Nat) {out : List Nat} (h : LimbsFit W out) : LimbsFit W (smulRows W xs b out) := by
  induction xs generalizing out with
  | nil => exact h
  | cons x xs ih =>
    have hf := macRow_fit (W := W) x b out
    unfold smulRows
    cases hr : (macRow W x b out).1 with
    | nil => intro z hz; cases hz
    | cons o rest =>
      rw [hr] at hf
      intro z hz
      rcases List.mem_cons.mp hz with rfl | hz
      · exact hf z (by simp)
      · exact ih (fun w hw => hf w (by simp [hw])) z hz

theorem smul_length {a b : List Nat} (h : a.length = b.length) : (smul W a b).length = 2 * a.length := by
  rw [smul, smulRows_length (by simp; omega)]
  simp

theorem smul_fit (a b : List Nat) : LimbsFit W (smul W a b) := by
  refine smulRows_fit a b fun z hz => ?_
  rw [List.eq_of_mem_replicate hz]
  exact Nat.two_pow_pos W

theorem limbsFit_append {xs ys : List Nat} (hx : LimbsFit W xs) (hy : LimbsFit W ys) : LimbsFit W (xs ++ ys) := by
  intro z hz
  rcases List.mem_append.mp hz with hz | hz
  · exact hx z hz
  · exact hy z hz

theorem limbsFit_take {xs : List Nat} (hx : LimbsFit W xs) (n : Nat) : LimbsFit W (xs.take n) :=
  fun z hz => hx z (List.mem_of_mem_take hz)

theorem limbsFit_drop {xs : List Nat} (hx : LimbsFit W xs) (n : Nat) : LimbsFit W (xs.drop n) :=
  fun z hz => hx z (List.mem_of_mem_drop hz)

theorem addFrom_length {i : Nat} {x y : List Nat} (h : x.length = i + y.length) : (addFrom W i x y).length = x.length := by
  have hl : (x.drop i).length = y.length := by rw [List.length_drop]; omega
  rw [addFrom, List.length_append, addL_length hl, List.length_take, List.length_drop]
  omega

theorem addFrom_fit (i : Nat) {x : List Nat} (y : List Nat) (h : LimbsFit W x) : LimbsFit W (addFrom W i x y) :=
  limbsFit_append (limbsFit_take h i) (addL_fit _ _)

theorem addFrom_val {i : Nat} {x y : List Nat} (h : x.length = i + y.length) :
    val W (addFrom W i x y) + 2 ^ (W * x.length) * (addL W (x.drop i) y).2 = val W x + 2 ^ (W * i) * val W y := by
  have hl : (x.drop i).length = y.length := by rw [List.length_drop]; omega
  have hv := addL_val (W := W) hl
  have hx := val_take_add_drop (W := W) x (n := i) (by omega)
  rw [addFrom, val_append, List.length_take, Nat.min_eq_left (by omega), hx, h, mul_add, pow_add]
  rw [hl] at hv
  linear_combination 2 ^ (W * i) * hv

theorem karatsubaMid_length {h : Nat} {sa sb : List Nat × Nat} {m0 lo hi : List Nat} (ha : sa.1.length = h)
    (hb : sb.1.length = h) (hm : m0.length = 2 * h) (hl : lo.length = 2 * h) (hh : hi.length = 2 * h) :
    (karatsubaMid W h sa sb m0 lo hi).length = 2 * h + 1 := by
  have h1 : (addFrom W h (m0 ++ [0]) (maskLimbs W sa.2 sb.1 ++ [0])).length = 2 * h + 1 := by
    rw [addFrom_length] <;> simp <;> omega
  have h2 : (addFrom W h (addFrom W h (m0 ++ [0]) (maskLimbs W sa.2 sb.1 ++ [0]))
      (maskLimbs W sb.2 sa.1 ++ [0])).length = 2 * h + 1 := by
    rw [addFrom_length, h1]
    rw [h1]; simp; omega
  unfold karatsubaMid
  have h3 : ∀ x : Nat, ((addFrom W h (addFrom W h (m0 ++ [0]) (maskLimbs W sa.2 sb.1 ++ [0]))
      (maskLimbs W sb.2 sa.1 ++ [0])).take (2 * h) ++ [x]).length = 2 * h + 1 := by
    intro x
    rw [List.length_append, List.length_take, h2]
    simp
  simp only
  rw [subL_length, subL_length, h3]
  · rw [h3]; simp [hl]
  · rw [subL_length, h3]
    · simp [hh]
    · rw [h3]; simp [hl]

theorem km_length {a b : List Nat} (d : Nat) (h : a.length = b.length) : (km W d a b).length = 2 * a.length := by
  induction d generalizing a b with
  | zero => exact smul_length h
  | succ d ih =>
    unfold km
    split
    · exact smul_length h
    · rename_i hodd
      obtain ⟨k, hk⟩ : ∃ k, a.length = 2 * k := ⟨a.length / 2, by omega⟩
      have hkb : b.length = 2 * k := by omega
      have hdiv : a.length / 2 = k := by omega
      simp only [hdiv]
      have la : (a.take k).length = k := by rw [List.length_take]; omega
      have ld : (a.drop k).length = k := by rw [List.length_drop]; omega
      have lb : (b.take k).length = k := by rw [List.length_take]; omega
      have lbd : (b.drop k).length = k := by rw [List.length_drop]; omega
      have sa : (addL W (a.take k) (a.drop k)).1.length = k := by rw [addL_length (la.trans ld.symm), la]
      have sb : (addL W (b.take k) (b.drop k)).1.length = k := by rw [addL_length (lb.trans lbd.symm), lb]
      have hlo := ih (la.trans lb.symm)
      have hhi := ih (ld.trans lbd.symm)
      have hm := ih (sa.trans sb.symm)
      rw [la] at hlo
      rw [ld] at hhi
      rw [sa] at hm
      have hmid := karatsubaMid_length (W := W) sa sb hm hlo hhi
      rcases Nat.eq_zero_or_pos k with rfl | hpos
      · rw [karatsubaJoin, addFrom]
        have e1 : km W d (a.take 0) (b.take 0) = [] := List.eq_nil_of_length_eq_zero (by simpa using hlo)
        have e2 : km W d (a.drop 0) (b.drop 0) = [] := List.eq_nil_of_length_eq_zero (by simpa using hhi)
        rw [e1, e2]
        simp [addL, addChain, hk]
      · rw [karatsubaJoin, addFrom_length]
        · simp only [List.length_append, hlo, hhi]
          omega
        · simp only [List.length_append, hlo, hhi, hmid, List.length_replicate]
          omega

theorem km_fit (d : Nat) (a b : List Nat) : LimbsFit W (km W d a b) := by
  induction d generalizing a b with
  | zero => exact smul_fit a b
  | succ d ih =>
    unfold km
    split
    · exact smul_fit a b
    · exact addFrom_fit _ _ (limbsFit_append (ih _ _) (ih _ _))

end multiplier

section reducer
variable {W : Nat}

theorem reduceRounds_length {nprime : Nat} {P : List Nat} {n : Nat} {v : List Nat} (h : n + P.length ≤ v.length) :
    (reduceRounds W nprime P n v).length = v.length - n := by
  induction n generalizing v with
  | zero => rfl
  | succ n ih =>
    rw [reduceRounds, ih] <;> rw [List.length_tail, macRow_length _ (by omega)] <;> omega

theorem reduceRounds_fit (nprime : Nat) (P : List Nat) (n : Nat) {v : List Nat} (h : LimbsFit W v) :
    LimbsFit W (reduceRounds W nprime P n v) := by
  induction n generalizing v with
  | zero => exact h
  | succ n ih => exact ih fun z hz => macRow_fit _ _ _ z (List.mem_of_mem_tail hz)

theorem mredf_length {k : ConstBundle} {t : List Nat} (hP : k.P.length = k.N) (ht : t.length = 2 * k.N) :
    (mredf k t).1.length = k.N := by
  simp only [mredf, List.length_take]
  rw [reduceRounds_length (by simp [hP, ht]; omega)]
  simp [ht]
  omega

theorem mredf_fit (k : ConstBundle) {t : List Nat} (h : LimbsFit k.W t) : LimbsFit k.W (mredf k t).1 := by
  have h0 : LimbsFit k.W [0] := fun z hz => by
    rw [List.mem_singleton.mp hz]
    exact Nat.two_pow_pos _
  exact limbsFit_take (reduceRounds_fit _ _ _ (limbsFit_append h h0)) _

end reducer

section field
variable {W : Nat}

theorem shiftRightOne_length (xs : List Nat) : (shiftRightOne W xs).length = xs.length := by
  induction xs with
  | nil => rfl
  | cons x xs ih => simp [shiftRightOne, ih]

theorem shiftRightOne_fit (xs : List Nat) : LimbsFit W (shiftRightOne W xs) := by
  induction xs with
  | nil => intro z hz; cases hz
  | cons x xs ih =>
    intro z hz
    rcases List.mem_cons.mp hz with rfl | hz
    · exact Nat.mod_lt _ (Nat.two_pow_pos W)
    · exact ih z hz

variable {k : ConstBundle} {a b : List Nat}

theorem fieldAdd_length (h : a.length = b.length) : (fieldAdd k a b).length = a.length := addL_length h

theorem fieldSub_length (h : a.length = b.length) (hP : k.P2.length = a.length) : (fieldSub k a b).length = a.length := by
  rw [fieldSub, addL_length] <;> simp [subL_length h, hP]

theorem fieldNeg_length (hP : k.P2.length = a.length) : (fieldNeg k a).length = a.length := by
  rw [fieldNeg, subL_length hP, hP]

theorem fieldHalve_length (hP : k.P.length = a.length) : (fieldHalve k a).length = a.length := by
  rw [fieldHalve, shiftRightOne_length, addL_length]
  simp [hP]

theorem fieldCorrect_length (hP : k.P.length = a.length) : (fieldCorrect k a).length = a.length := by
  rw [fieldCorrect, addL_length] <;> simp [subL_length hP.symm, hP]

theorem fieldAdd_fit : LimbsFit k.W (fieldAdd k a b) := addL_fit _ _
theorem fieldSub_fit : LimbsFit k.W (fieldSub k a b) := addL_fit _ _
theorem fieldNeg_fit : LimbsFit k.W (fieldNeg k a) := subL_fit _ _
theorem fieldHalve_fit : LimbsFit k.W (fieldHalve k a) := shiftRightOne_fit _
theorem fieldCorrect_fit : LimbsFit k.W (fieldCorrect k a) := addL_fit _ _

end field

end Sys2Proof.Machine
end

