-- ==== Sys2Proof/Laws/Encoding.lean ====
section
/-! SUPPORT. Laws/Encoding.lean: a command word is its eight fields side by side; what the mask test of a row says about
them. Later proofs about words cite these and unfold neither masks nor slices. -/

namespace Sys2Proof

theorem toNat_append_eq {m n : Nat} (x : BitVec m) (y : BitVec n) : (x ++ y).toNat = x.toNat * 2 ^ n + y.toNat := by
  rw [BitVec.toNat_append, ← Nat.shiftLeft_add_eq_or_of_lt y.isLt, Nat.shiftLeft_eq]

theorem toNat_catWord (r1 : BitVec 2) (s2 s1 d : BitVec 10) (r0 lb la op : BitVec 8) :
    (catWord r1 s2 s1 d r0 lb la op).toNat =
      op.toNat + la.toNat * 2 ^ 8 + lb.toNat * 2 ^ 16 + r0.toNat * 2 ^ 24 + d.toNat * 2 ^ 32 + s1.toNat * 2 ^ 42 +
        s2.toNat * 2 ^ 52 + r1.toNat * 2 ^ 62 := by
  simp only [catWord, toNat_append_eq]
  omega

/-- Every word is the fields sliced out of it. -/
theorem eq_catWord (w : BitVec 64) :
    w = catWord (w.extractLsb' 62 2) (w.extractLsb' 52 10) (w.extractLsb' 42 10) (w.extractLsb' 32 10)
      (w.extractLsb' 24 8) (w.extractLsb' 16 8) (w.extractLsb' 8 8) (w.extractLsb' 0 8) := by
  apply BitVec.eq_of_toNat_eq
  rw [toNat_catWord]
  simp only [BitVec.extractLsb'_toNat, Nat.shiftRight_eq_div_pow]
  omega

theorem catWord_inj {r1 r1' : BitVec 2} {s2 s1 d s2' s1' d' : BitVec 10} {r0 lb la op r0' lb' la' op' : BitVec 8} :
    catWord r1 s2 s1 d r0 lb la op = catWord r1' s2' s1' d' r0' lb' la' op' ↔
      r1 = r1' ∧ s2 = s2' ∧ s1 = s1' ∧ d = d' ∧ r0 = r0' ∧ lb = lb' ∧ la = la' ∧ op = op' := by
  constructor
  · intro h
    have h := congrArg BitVec.toNat h
    simp only [toNat_catWord] at h
    refine ⟨?_, ?_, ?_, ?_, ?_, ?_, ?_, ?_⟩ <;> apply BitVec.eq_of_toNat_eq <;> omega
  · rintro ⟨rfl, rfl, rfl, rfl, rfl, rfl, rfl, rfl⟩
    rfl

theorem catWord_and (r1 r1' : BitVec 2) (s2 s1 d s2' s1' d' : BitVec 10) (r0 lb la op r0' lb' la' op' : BitVec 8) :
    catWord r1 s2 s1 d r0 lb la op &&& catWord r1' s2' s1' d' r0' lb' la' op' =
      catWord (r1 &&& r1') (s2 &&& s2') (s1 &&& s1') (d &&& d') (r0 &&& r0') (lb &&& lb') (la &&& la') (op &&& op') := by
  have h : ∀ {m n : Nat} (x x' : BitVec m) (y y' : BitVec n), (x ++ y) &&& (x' ++ y') = (x &&& x') ++ (y &&& y') :=
    fun _ _ _ _ => BitVec.and_append
  exact (h _ _ _ _).trans (congrArg (· ++ (op &&& op')) ((h _ _ _ _).trans (congrArg (· ++ (la &&& la'))
    ((h _ _ _ _).trans (congrArg (· ++ (lb &&& lb')) ((h _ _ _ _).trans (congrArg (· ++ (r0 &&& r0'))
    ((h _ _ _ _).trans (congrArg (· ++ (d &&& d')) ((h _ _ _ _).trans (congrArg (· ++ (s1 &&& s1'))
    (h _ _ _ _))))))))))))

/-- The slices of a word given by its fields. -/
theorem fields_catWord (r1 : BitVec 2) (s2 s1 d : BitVec 10) (r0 lb la op : BitVec 8) :
    opField (catWord r1 s2 s1 d r0 lb la op) = op ∧
      fieldsOf (catWord r1 s2 s1 d r0 lb la op) =
        { la := la.toNat, lb := lb.toNat, dst := d.toNat, src1 := s1.toNat, src2 := s2.toNat } := by
  obtain ⟨_, h2, h1, hd, _, hb, ha, ho⟩ := catWord_inj.mp (eq_catWord (catWord r1 s2 s1 d r0 lb la op))
  exact ⟨ho.symm, by rw [fieldsOf, ← h2, ← h1, ← hd, ← hb, ← ha]⟩

/-- What a format's zero fields demand of a word (rule R63): "used" fields are free, "zero" fields are zero. -/
def Format.zeroFields (w : BitVec 64) : Format → Prop
  | .L3 => w.extractLsb' 16 8 = 0#8
  | .M => True
  | .F3 => w.extractLsb' 8 8 = 0#8 ∧ w.extractLsb' 16 8 = 0#8
  | .F2 => w.extractLsb' 8 8 = 0#8 ∧ w.extractLsb' 16 8 = 0#8 ∧ w.extractLsb' 52 10 = 0#10
  | .F1 => w.extractLsb' 8 8 = 0#8 ∧ w.extractLsb' 16 8 = 0#8 ∧ w.extractLsb' 42 10 = 0#10 ∧ w.extractLsb' 52 10 = 0#10

/-- The masks of rule R63 by fields. -/
theorem mask_eq_catWord :
    Format.mask .L3 =
      catWord (BitVec.allOnes 2) 0#10 0#10 0#10 (BitVec.allOnes 8) (BitVec.allOnes 8) 0#8 (BitVec.allOnes 8) ∧
    Format.mask .M = catWord (BitVec.allOnes 2) 0#10 0#10 0#10 (BitVec.allOnes 8) 0#8 0#8 (BitVec.allOnes 8) ∧
    Format.mask .F3 = catWord (BitVec.allOnes 2) 0#10 0#10 0#10 (BitVec.allOnes 8) (BitVec.allOnes 8)
      (BitVec.allOnes 8) (BitVec.allOnes 8) ∧
    Format.mask .F2 = catWord (BitVec.allOnes 2) (BitVec.allOnes 10) 0#10 0#10 (BitVec.allOnes 8) (BitVec.allOnes 8)
      (BitVec.allOnes 8) (BitVec.allOnes 8) ∧
    Format.mask .F1 = catWord (BitVec.allOnes 2) (BitVec.allOnes 10) (BitVec.allOnes 10) 0#10 (BitVec.allOnes 8)
      (BitVec.allOnes 8) (BitVec.allOnes 8) (BitVec.allOnes 8) := by
  decide

theorem pattern_eq_catWord (o : Op) : o.pattern = catWord 0#2 0#10 0#10 0#10 0#8 0#8 0#8 o.code := by
  cases o <;> decide

/-- The mask test of a row (rule R63) says: the opcode is the row's, the reserved fields are zero, the format's zero fields
are zero. -/
theorem Op.fits_iff (o : Op) (w : BitVec 64) :
    o.fits w = true ↔ opField w = o.code ∧ w.extractLsb' 24 8 = 0#8 ∧ w.extractLsb' 62 2 = 0#2 ∧ o.format.zeroFields w := by
  obtain ⟨mL3, mM, mF3, mF2, mF1⟩ := mask_eq_catWord
  have hw : (o.fits w = true ↔ catWord (w.extractLsb' 62 2) (w.extractLsb' 52 10) (w.extractLsb' 42 10)
      (w.extractLsb' 32 10) (w.extractLsb' 24 8) (w.extractLsb' 16 8) (w.extractLsb' 8 8) (w.extractLsb' 0 8) &&&
      o.format.mask = o.pattern) := by
    rw [← eq_catWord]
    simp [Op.fits]
  rw [hw, pattern_eq_catWord, opField]
  cases hf : o.format <;>
    simp only [mL3, mM, mF3, mF2, mF1, catWord_and, catWord_inj, Format.zeroFields, BitVec.and_allOnes, BitVec.and_zero] <;>
    tauto

/-- At most one row matches a word (rule R64: the rows are pairwise exclusive). -/
theorem Op.fits_unique {o o' : Op} {w : BitVec 64} (h : o.fits w = true) (h' : o'.fits w = true) : o = o' := by
  have hc : o.code = o'.code := ((o.fits_iff w).mp h).1.symm.trans ((o'.fits_iff w).mp h').1
  revert hc
  cases o <;> cases o' <;> decide

/-- What the decoder answers (rule R65, step 1). -/
theorem decode_eq_ok_iff {w : BitVec 64} {i : Instr} :
    decode w = .ok i ↔ ∃ o : Op, o.fits w = true ∧ i = o.build (fieldsOf w) := by
  have hmem : ∀ o : Op, o ∈ opcodeTable := fun o => by cases o <;> decide
  unfold decode
  cases hfind : opcodeTable.find? (fun o => o.fits w) with
  | none =>
    simp only [List.find?_eq_none] at hfind
    constructor
    · intro h; cases h
    · rintro ⟨o, ho, _⟩
      exact absurd ho (hfind o (hmem o))
  | some o =>
    have ho := List.find?_some hfind
    constructor
    · intro h
      cases h
      exact ⟨o, ho, rfl⟩
    · rintro ⟨o', ho', rfl⟩
      rw [Op.fits_unique ho' ho]

/-- The decoder rejects by ILLEGAL_OP exactly the words no row matches (rule R66). -/
theorem decode_eq_error_iff {w : BitVec 64} {c : Code} :
    decode w = .error c ↔ c = .illegalOp ∧ ∀ o : Op, o.fits w = false := by
  cases hd : decode w with
  | ok i =>
    obtain ⟨o, ho, _⟩ := decode_eq_ok_iff.mp hd
    constructor
    · intro h; cases h
    · rintro ⟨_, h⟩
      rw [h o] at ho
      cases ho
  | error c' =>
    have hc' : c' = .illegalOp := by
      unfold decode at hd
      split at hd <;> cases hd
      rfl
    subst hc'
    constructor
    · intro h
      cases h
      refine ⟨rfl, fun o => ?_⟩
      cases hf : o.fits w with
      | false => rfl
      | true => cases (decode_eq_ok_iff.mpr ⟨o, hf, rfl⟩).symm.trans hd
    · rintro ⟨rfl, _⟩
      rfl

end Sys2Proof
end

