-- ==== Sys2Proof/Laws/State.lean ====
section
/-! SUPPORT. Laws/State.lean: what each update of the state does to each field, so that no proof unfolds a record update; and
what an outcome's projections are. -/

namespace Sys2Proof.Machine

section respond
variable (s : State) (code : Code)
@[simp] theorem State.respond_params : (s.respond code).params = s.params := rfl
@[simp] theorem State.respond_ps : (s.respond code).ps = s.ps := rfl
@[simp] theorem State.respond_om : (s.respond code).om = s.om := rfl
@[simp] theorem State.respond_c : (s.respond code).c = s.c := rfl
@[simp] theorem State.respond_draws : (s.respond code).draws = s.draws := rfl
@[simp] theorem State.respond_pending : (s.respond code).pending = s.pending := rfl
@[simp] theorem State.respond_reply : (s.respond code).reply = .response code s.c := rfl
@[simp] theorem State.respond_triple : (s.respond code).triple = s.triple := rfl
end respond

section answer
variable (s : State) (r : Reply)
@[simp] theorem State.answer_params : (s.answer r).params = s.params := rfl
@[simp] theorem State.answer_ps : (s.answer r).ps = s.ps := rfl
@[simp] theorem State.answer_om : (s.answer r).om = s.om := rfl
@[simp] theorem State.answer_c : (s.answer r).c = s.c := rfl
@[simp] theorem State.answer_draws : (s.answer r).draws = s.draws := rfl
@[simp] theorem State.answer_pending : (s.answer r).pending = s.pending := rfl
@[simp] theorem State.answer_reply : (s.answer r).reply = r := rfl
@[simp] theorem State.answer_triple : (s.answer r).triple = s.triple := rfl
end answer

section writeBuffer
variable (s : State) (dst : Nat) (xs : List Nat)
@[simp] theorem State.writeBuffer_params : (s.writeBuffer dst xs).params = s.params := rfl
@[simp] theorem State.writeBuffer_ps : (s.writeBuffer dst xs).ps = s.ps := rfl
@[simp] theorem State.writeBuffer_om : (s.writeBuffer dst xs).om = s.om.writeMany dst xs := rfl
@[simp] theorem State.writeBuffer_c : (s.writeBuffer dst xs).c = s.c := rfl
@[simp] theorem State.writeBuffer_draws : (s.writeBuffer dst xs).draws = s.draws := rfl
@[simp] theorem State.writeBuffer_pending : (s.writeBuffer dst xs).pending = s.pending := rfl
@[simp] theorem State.writeBuffer_reply : (s.writeBuffer dst xs).reply = s.reply := rfl
end writeBuffer

section setFlag
variable (s : State) (carry : Nat)
@[simp] theorem State.setFlag_params : (s.setFlag carry).params = s.params := rfl
@[simp] theorem State.setFlag_ps : (s.setFlag carry).ps = s.ps := rfl
@[simp] theorem State.setFlag_om : (s.setFlag carry).om = s.om := rfl
@[simp] theorem State.setFlag_c : (s.setFlag carry).c = some (carryFlag carry) := rfl
@[simp] theorem State.setFlag_draws : (s.setFlag carry).draws = s.draws := rfl
@[simp] theorem State.setFlag_pending : (s.setFlag carry).pending = s.pending := rfl
@[simp] theorem State.setFlag_reply : (s.setFlag carry).reply = s.reply := rfl
end setFlag

section drawLimbs
variable (s : State) (n : Nat)
@[simp] theorem State.drawLimbs_params : (s.drawLimbs n).2.params = s.params := rfl
@[simp] theorem State.drawLimbs_ps : (s.drawLimbs n).2.ps = s.ps := rfl
@[simp] theorem State.drawLimbs_om : (s.drawLimbs n).2.om = s.om := rfl
@[simp] theorem State.drawLimbs_c : (s.drawLimbs n).2.c = s.c := rfl
@[simp] theorem State.drawLimbs_draws : (s.drawLimbs n).2.draws = s.draws + 1 := rfl
@[simp] theorem State.drawLimbs_pending : (s.drawLimbs n).2.pending = s.pending := rfl
@[simp] theorem State.drawLimbs_reply : (s.drawLimbs n).2.reply = s.reply := rfl
@[simp] theorem State.drawLimbs_length : (s.drawLimbs n).1.length = n := by simp [State.drawLimbs]
theorem State.drawLimbs_fit : LimbsFit s.ps.W (s.drawLimbs n).1 := by
  intro x hx
  obtain ⟨i, _, rfl⟩ := List.mem_map.mp hx
  exact Nat.mod_lt _ (Nat.two_pow_pos _)
end drawLimbs

section withFetchWord
variable (s : State) (nbits w : Nat)
@[simp] theorem State.withFetchWord_params : (s.withFetchWord nbits w).params = s.params := rfl
@[simp] theorem State.withFetchWord_ps : (s.withFetchWord nbits w).ps = s.ps := rfl
@[simp] theorem State.withFetchWord_om : (s.withFetchWord nbits w).om = s.om := rfl
@[simp] theorem State.withFetchWord_c : (s.withFetchWord nbits w).c = s.c := rfl
@[simp] theorem State.withFetchWord_draws : (s.withFetchWord nbits w).draws = s.draws := rfl
@[simp] theorem State.withFetchWord_reply : (s.withFetchWord nbits w).reply = s.reply := rfl
end withFetchWord

@[simp] theorem nextOf_next (s : State) : nextOf (.next s) = some s := rfl
@[simp] theorem nextOf_fault (f : Fault) : nextOf (.fault f) = none := rfl
@[simp] theorem faultOf_next (s : State) : faultOf (.next s) = none := rfl
@[simp] theorem faultOf_fault (f : Fault) : faultOf (.fault f) = some f := rfl

theorem nextOf_eq_some {o : Host.Outcome State Fault Refusal} {t : State} : nextOf o = some t ↔ o = .next t := by
  cases o <;> simp [nextOf]

/-- Well-formedness, part by part. -/
theorem State.wf_iff (s : State) :
    s.wf = true ↔ s.om.wf = true ∧ s.om.fits s.params.omLimbs s.ps.W = true ∧ s.bundleReady = true := by
  simp [State.wf, and_assoc]

/-- PS is a bundle of the engine: a valid entry of the list and its constants. -/
theorem State.bundleReady_iff (s : State) :
    s.bundleReady = true ↔
      ∃ q ∈ s.params.sets, validBundle q s.params.omLimbs = true ∧ s.ps = ConstBundle.ofParams q := by
  simp [State.bundleReady]

/-- The constraints of rules R10 and R11 that hold of an admissible bundle. -/
theorem ParamSet.admissible_iff (q : ParamSet) (n : Nat) :
    q.admissible n = true ↔
      2 ≤ q.W ∧ 1 ≤ q.N ∧ 1 ≤ q.EA ∧ 1 < q.p ∧ 4 * q.p ≤ q.R ∧ 4 * q.N ≤ n ∧ n ≤ 1024 := by
  simp [ParamSet.admissible, and_assoc]

end Sys2Proof.Machine
end

