-- ==== Sys2Proof/Laws/Memory.lean ====
section
/-! SUPPORT. Laws/Memory.lean: reading and writing operand memory: a read after a write, the frame of a write, and that every
memory operation keeps the canonical form and the bounds. -/

namespace Sys2Proof.Machine

theorem Memory.read_write_same (m : Memory) (a : Nat) (v : Nat) : (m.write a v).read a = some v := by
  induction m with
  | nil => simp [Memory.write, Memory.read]
  | cons e rest ih =>
    obtain ⟨b, w⟩ := e
    unfold Memory.write
    split
    · simp [Memory.read]
    · split
      · simp [Memory.read]
      · rename_i h
        simp [Memory.read, h, ih]

theorem Memory.read_write_other (m : Memory) {a a' : Nat} (v : Nat) (h : a' ≠ a) :
    (m.write a v).read a' = m.read a' := by
  induction m with
  | nil => simp [Memory.write, Memory.read, h]
  | cons e rest ih =>
    obtain ⟨b, w⟩ := e
    unfold Memory.write
    split
    · simp [Memory.read, h]
    · split
      · rename_i hab
        subst hab
        simp [Memory.read, h]
      · simp only [Memory.read, ih]

theorem Memory.read_write (m : Memory) (a a' : Nat) (v : Nat) :
    (m.write a v).read a' = if a' = a then some v else m.read a' := by
  split
  · rename_i h
    subst h
    exact m.read_write_same a' v
  · rename_i h
    exact m.read_write_other v h

/-- A write of an array, cell by cell. -/
theorem Memory.read_writeMany (m : Memory) (a a' : Nat) (xs : List Nat) :
    (m.writeMany a xs).read a' = if a ≤ a' ∧ a' < a + xs.length then xs[a' - a]? else m.read a' := by
  induction xs generalizing m a with
  | nil =>
    simp [Memory.writeMany]
  | cons x xs ih =>
    rw [Memory.writeMany, ih, Memory.read_write]
    by_cases h1 : a' = a
    · subst h1
      simp
    · by_cases h2 : a + 1 ≤ a' ∧ a' < a + 1 + xs.length
      · have h3 : a ≤ a' ∧ a' < a + (x :: xs).length := by simp only [List.length_cons]; omega
        obtain ⟨k, rfl⟩ : ∃ k, a' = a + 1 + k := ⟨a' - (a + 1), by omega⟩
        rw [if_pos h2, if_pos h3, show a + 1 + k - (a + 1) = k by omega, show a + 1 + k - a = k + 1 by omega,
          List.getElem?_cons_succ]
      · have h3 : ¬(a ≤ a' ∧ a' < a + (x :: xs).length) := by simp only [List.length_cons]; omega
        rw [if_neg h2, if_neg h3, if_neg h1]

/-- The frame of an array write: every cell outside reads as before. -/
theorem Memory.read_writeMany_outside (m : Memory) {a a' : Nat} (xs : List Nat) (h : a' < a ∨ a + xs.length ≤ a') :
    (m.writeMany a xs).read a' = m.read a' := by
  rw [Memory.read_writeMany, if_neg (by omega)]

/-- What a fetch of n cells answers when it answers. -/
theorem Memory.readMany_ok_iff (m : Memory) (a n : Nat) (xs : List Nat) :
    m.readMany a n = .ok xs ↔ xs.length = n ∧ ∀ j, j < n → m.read (a + j) = xs[j]? := by
  induction n generalizing a xs with
  | zero =>
    cases xs <;> simp [Memory.readMany]
  | succ n ih =>
    unfold Memory.readMany
    cases hx : m.read a with
    | none =>
      simp only [reduceCtorEq, false_iff, not_and, not_forall]
      intro hl
      refine ⟨0, by omega, ?_⟩
      cases xs with
      | nil => simp at hl
      | cons y ys => simp [hx]
    | some x =>
      cases hr : m.readMany (a + 1) n with
      | error f =>
        simp only [reduceCtorEq, false_iff, not_and]
        intro hl hall
        cases xs with
        | nil => simp at hl
        | cons y ys =>
          have : m.readMany (a + 1) n = .ok ys := (ih (a + 1) ys).mpr
            ⟨by simpa using hl, fun j hj => by
              have := hall (j + 1) (by omega)
              rw [show a + 1 + j = a + (j + 1) by omega, this, List.getElem?_cons_succ]⟩
          rw [hr] at this
          cases this
      | ok ys =>
        have hys := (ih (a + 1) ys).mp hr
        constructor
        · intro h
          cases h
          refine ⟨by simp [hys.1], fun j hj => ?_⟩
          cases j with
          | zero => simpa using hx
          | succ j =>
            rw [List.getElem?_cons_succ, ← hys.2 j (by omega), show a + 1 + j = a + (j + 1) by omega]
        · rintro ⟨hl, hall⟩
          refine congrArg Except.ok (List.ext_getElem? ?_)
          intro j
          by_cases hj : j < n + 1
          · rw [← hall j hj]
            cases j with
            | zero => simpa using hx.symm
            | succ j =>
              rw [List.getElem?_cons_succ, ← hys.2 j (by omega), show a + 1 + j = a + (j + 1) by omega]
          · rw [List.getElem?_eq_none (by simp [hys.1]; omega), List.getElem?_eq_none (by omega)]

theorem Memory.readMany_length {m : Memory} {a n : Nat} {xs : List Nat} (h : m.readMany a n = .ok xs) :
    xs.length = n := ((m.readMany_ok_iff a n xs).mp h).1

/-- A fetch answers exactly when every cell is written. -/
theorem Memory.readMany_isOk_iff (m : Memory) (a n : Nat) :
    (∃ xs, m.readMany a n = .ok xs) ↔ ∀ j, j < n → (m.read (a + j)).isSome = true := by
  induction n generalizing a with
  | zero => simp [Memory.readMany]
  | succ n ih =>
    unfold Memory.readMany
    cases hx : m.read a with
    | none =>
      simp only [reduceCtorEq, exists_false, false_iff, not_forall]
      exact ⟨0, by omega, by simp [hx]⟩
    | some x =>
      have hstep : (∃ xs, m.readMany (a + 1) n = .ok xs) ↔ ∀ j, j < n + 1 → (m.read (a + j)).isSome = true := by
        rw [ih]
        constructor
        · intro h j hj
          cases j with
          | zero => simp [hx]
          | succ j => simpa [show a + 1 + j = a + (j + 1) by omega] using h j (by omega)
        · intro h j hj
          simpa [show a + (j + 1) = a + 1 + j by omega] using h (j + 1) (by omega)
      rw [← hstep]
      cases m.readMany (a + 1) n <;> simp

/-- When a fetch faults it names its first unwritten cell. -/
theorem Memory.readMany_error {m : Memory} {a n : Nat} {f : Fault} (h : m.readMany a n = .error f) :
    ∃ j, j < n ∧ m.read (a + j) = none ∧ (∀ k, k < j → (m.read (a + k)).isSome = true) ∧ f = .unwrittenCell (a + j) := by
  induction n generalizing a with
  | zero => simp [Memory.readMany] at h
  | succ n ih =>
    unfold Memory.readMany at h
    cases hx : m.read a with
    | none =>
      simp only [hx, Except.error.injEq] at h
      exact ⟨0, by omega, by simpa using hx, by omega, by simp [← h]⟩
    | some x =>
      cases hr : m.readMany (a + 1) n with
      | ok ys => simp [hx, hr] at h
      | error g =>
        simp only [hx, hr, Except.error.injEq] at h
        subst h
        obtain ⟨j, hj, hn, hall, rfl⟩ := ih hr
        refine ⟨j + 1, by omega, by rwa [show a + (j + 1) = a + 1 + j by omega], fun k hk => ?_,
          by rw [show a + 1 + j = a + (j + 1) by omega]⟩
        cases k with
        | zero => simp [hx]
        | succ k => rw [show a + (k + 1) = a + 1 + k by omega]; exact hall k (by omega)

/-- Reading back what was just written. -/
theorem Memory.readMany_writeMany (m : Memory) (a : Nat) (xs : List Nat) :
    (m.writeMany a xs).readMany a xs.length = .ok xs := by
  rw [Memory.readMany_ok_iff]
  refine ⟨rfl, fun j hj => ?_⟩
  rw [Memory.read_writeMany, if_pos (by omega), show a + j - a = j by omega]

/-- A fetch that shares no cell with an array write reads as before. -/
theorem Memory.readMany_writeMany_outside (m : Memory) (a b n : Nat) (xs : List Nat)
    (h : b + n ≤ a ∨ a + xs.length ≤ b) : (m.writeMany a xs).readMany b n = m.readMany b n := by
  induction n generalizing b with
  | zero => rfl
  | succ n ih =>
    unfold Memory.readMany
    rw [ih (b + 1) (by omega), Memory.read_writeMany_outside m xs (a := a) (a' := b) (by omega)]

/-- The entries of a written memory. -/
theorem Memory.mem_write {m : Memory} {a : Nat} {v : Nat} {e : Nat × Nat} (h : e ∈ m.write a v) :
    e = (a, v) ∨ e ∈ m := by
  induction m with
  | nil => simpa [Memory.write] using h
  | cons b rest ih =>
    unfold Memory.write at h
    split at h
    · simpa using h
    · split at h
      · simp only [List.mem_cons] at h ⊢
        tauto
      · simp only [List.mem_cons] at h ⊢
        rcases h with h | h
        · tauto
        · rcases ih h with h | h <;> tauto

theorem Memory.wf_cons (a : Nat) (v : Nat) (m : Memory) :
    Memory.wf ((a, v) :: m) = true ↔ (∀ e ∈ m, a < e.1) ∧ m.wf = true := by
  simp only [Memory.wf, Bool.and_eq_true, List.all_eq_true, decide_eq_true_eq]

/-- A write keeps the canonical form. -/
theorem Memory.write_wf {m : Memory} (a : Nat) (v : Nat) (h : m.wf = true) : (m.write a v).wf = true := by
  induction m with
  | nil => simp [Memory.write, Memory.wf]
  | cons e rest ih =>
    obtain ⟨b, w⟩ := e
    obtain ⟨hlt, hrest⟩ := (Memory.wf_cons b w rest).mp h
    unfold Memory.write
    split
    · rename_i hab
      refine (Memory.wf_cons _ _ _).mpr ⟨fun e he => ?_, h⟩
      rcases List.mem_cons.mp he with rfl | he
      · exact hab
      · exact hab.trans (hlt e he)
    · split
      · rename_i hab
        subst hab
        exact (Memory.wf_cons _ _ _).mpr ⟨hlt, hrest⟩
      · refine (Memory.wf_cons _ _ _).mpr ⟨fun e he => ?_, ih hrest⟩
        rcases Memory.mem_write he with rfl | he
        · omega
        · exact hlt e he

theorem Memory.writeMany_wf {m : Memory} (a : Nat) (xs : List Nat) (h : m.wf = true) : (m.writeMany a xs).wf = true := by
  induction xs generalizing m a with
  | nil => exact h
  | cons x xs ih => exact ih (a + 1) (Memory.write_wf a x h)

theorem Memory.fits_iff (m : Memory) (n W : Nat) : m.fits n W = true ↔ ∀ e ∈ m, e.1 < n ∧ e.2 < 2 ^ W := by
  simp [Memory.fits]

/-- A write of a W-bit value to an existing cell keeps the bounds. -/
theorem Memory.write_fits {m : Memory} {n W a v : Nat} (h : m.fits n W = true) (ha : a < n) (hv : v < 2 ^ W) :
    (m.write a v).fits n W = true := by
  rw [Memory.fits_iff] at h ⊢
  intro e he
  rcases Memory.mem_write he with rfl | he
  · exact ⟨ha, hv⟩
  · exact h e he

theorem Memory.writeMany_fits {m : Memory} {n W a : Nat} {xs : List Nat} (h : m.fits n W = true)
    (ha : a + xs.length ≤ n) (hx : LimbsFit W xs) : (m.writeMany a xs).fits n W = true := by
  induction xs generalizing m a with
  | nil => exact h
  | cons x xs ih =>
    simp only [List.length_cons] at ha
    exact ih (Memory.write_fits h (by omega) (hx x (by simp))) (by omega) fun y hy => hx y (by simp [hy])

theorem Memory.mem_of_read {m : Memory} {a : Nat} {v : Nat} (h : m.read a = some v) : (a, v) ∈ m := by
  induction m with
  | nil => simp [Memory.read] at h
  | cons e rest ih =>
    obtain ⟨b, w⟩ := e
    unfold Memory.read at h
    split at h
    · rename_i hab
      cases h
      simp [hab]
    · simp [ih h]

/-- What is read from a memory within bounds is a W-bit value of an existing cell. -/
theorem Memory.read_fits {m : Memory} {n W a v : Nat} (h : m.fits n W = true) (hr : m.read a = some v) :
    a < n ∧ v < 2 ^ W := (Memory.fits_iff m n W).mp h _ (Memory.mem_of_read hr)

theorem Memory.readMany_fits {m : Memory} {n W a k : Nat} {xs : List Nat} (h : m.fits n W = true)
    (hr : m.readMany a k = .ok xs) : LimbsFit W xs := by
  obtain ⟨hl, hall⟩ := (m.readMany_ok_iff a k xs).mp hr
  intro x hx
  obtain ⟨j, hj, rfl⟩ := List.mem_iff_getElem.mp hx
  exact (Memory.read_fits h ((hall j (by omega)).trans (List.getElem?_eq_getElem hj))).2

/-- What MemRead returns of a range that lies in written cells: rule R42's sum. -/
theorem Memory.readBytes_eq_sum (W : Nat) (m : Memory) (b n : Nat) (limb : Nat → Nat)
    (h : ∀ j, j < n → m.read ((b + j) / bytesPerLimb W) = some (limb j)) :
    m.readBytes W b n =
      .ok (∑ j ∈ Finset.range n, limb j / 2 ^ (8 * ((b + j) % bytesPerLimb W)) % 2 ^ 8 * 2 ^ (8 * j)) := by
  induction n generalizing b limb with
  | zero => simp [Memory.readBytes]
  | succ n ih =>
    have hrest := ih (b + 1) (fun j => limb (j + 1)) fun j hj => by
      have := h (j + 1) (by omega)
      rwa [← Nat.add_assoc, Nat.add_right_comm b j 1] at this
    have h0 := h 0 (by omega)
    simp only [Nat.add_zero] at h0
    simp only [Memory.readBytes, Memory.readByte, h0, hrest, Option.map_some, Finset.sum_range_succ', Finset.mul_sum]
    congr 1
    rw [add_comm]
    congr 1
    · refine Finset.sum_congr rfl fun j _ => ?_
      rw [show b + (j + 1) = b + 1 + j by omega, mul_add, pow_add]
      ring
    · simp

/-- `MemWrite` on one cell leaves every other cell alone. -/
theorem Memory.read_writeBytesCell_other (W : Nat) (m : Memory) (b n v : Nat) {cell a : Nat} (h : a ≠ cell) :
    (m.writeBytesCell W b n v cell).read a = m.read a := by
  unfold Memory.writeBytesCell
  split
  · exact Memory.read_write_other m _ h
  · split
    · exact Memory.read_write_other m _ h
    · rfl

/-- Every byte of a byte write is below 2^8, so the assembled number of k bytes is below 2^(8*k). -/
theorem bytesAfterWrite_lt (b n v k addr old : Nat) : bytesAfterWrite b n v addr old k < 2 ^ (8 * k) := by
  induction k generalizing addr old with
  | zero => simp [bytesAfterWrite]
  | succ k ih =>
    have hb : byteAfterWrite b n v addr (old % 2 ^ 8) < 2 ^ 8 := by
      unfold byteAfterWrite
      split <;> exact Nat.mod_lt _ (by norm_num)
    have := ih (addr + 1) (old / 2 ^ 8)
    rw [bytesAfterWrite, show 8 * (k + 1) = 8 + 8 * k by ring, pow_add]
    nlinarith

theorem Memory.writeBytesFrom_keeps {W b n v omLimbs : Nat} (hW : W % 8 = 0) {m : Memory} (count cell : Nat)
    (hm : m.wf = true) (hf : m.fits omLimbs W = true) (hc : cell + count ≤ omLimbs) :
    (Memory.writeBytesFrom W b n v m cell count).wf = true ∧
      (Memory.writeBytesFrom W b n v m cell count).fits omLimbs W = true := by
  induction count generalizing m cell with
  | zero => exact ⟨hm, hf⟩
  | succ count ih =>
    have hlt : ∀ addr old, bytesAfterWrite b n v addr old (bytesPerLimb W) < 2 ^ W := fun addr old => by
      have := bytesAfterWrite_lt b n v (bytesPerLimb W) addr old
      rwa [show 8 * bytesPerLimb W = W by unfold bytesPerLimb; omega] at this
    have hcell : (m.writeBytesCell W b n v cell).wf = true ∧ (m.writeBytesCell W b n v cell).fits omLimbs W = true := by
      unfold Memory.writeBytesCell
      split
      · exact ⟨Memory.write_wf _ _ hm, Memory.write_fits hf (by omega) (hlt _ _)⟩
      · split
        · exact ⟨Memory.write_wf _ _ hm, Memory.write_fits hf (by omega) (hlt _ _)⟩
        · exact ⟨hm, hf⟩
    exact ih (cell + 1) hcell.1 hcell.2 (by omega)

/-- The byte port keeps the canonical form and the bounds. -/
theorem Memory.writeBytes_keeps {W b n v omLimbs : Nat} {m : Memory} (hW : W % 8 = 0) (hW' : 8 ≤ W)
    (hm : m.wf = true) (hf : m.fits omLimbs W = true) (hb : b + n ≤ omLimbs * bytesPerLimb W) :
    (m.writeBytes W b n v).wf = true ∧ (m.writeBytes W b n v).fits omLimbs W = true := by
  unfold Memory.writeBytes
  split
  · exact ⟨hm, hf⟩
  · rename_i hn
    refine Memory.writeBytesFrom_keeps hW _ _ hm hf ?_
    have hpos : 0 < bytesPerLimb W := by unfold bytesPerLimb; omega
    have h1 : (b + n - 1) / bytesPerLimb W < omLimbs := by
      rw [Nat.div_lt_iff_lt_mul hpos]
      omega
    have h2 : b / bytesPerLimb W ≤ (b + n - 1) / bytesPerLimb W := Nat.div_le_div_right (by omega)
    omega

end Sys2Proof.Machine
end

