-- ==== Sys2Proof/Laws/Commands.lean ====
section
/-! SUPPORT. Laws/Commands.lean: one lemma per shared operation of the commands, saying everything it can do, and from them the
one inversion of exec that invariants and frames cite. -/

namespace Sys2Proof.Machine

theorem State.admitted_ok {s : State} {i : Instr} (h : s.admission i = .ok) (run : Host.Outcome State Fault Refusal) :
    s.admitted i run = run := by
  simp [State.admitted, h]

theorem State.admitted_reject {s : State} {i : Instr} (h : s.admission i ≠ .ok) (run : Host.Outcome State Fault Refusal) :
    s.admitted i run = .next (s.respond (s.admission i)) := by
  unfold State.admitted
  split
  · rename_i h'
    exact absurd h' h
  · rfl

theorem State.withBuffer_ok {s : State} {base n : Nat} {xs : List Nat} (h : s.om.readMany base n = .ok xs)
    (rest : List Nat → Host.Outcome State Fault Refusal) : s.withBuffer base n rest = rest xs := by
  simp [State.withBuffer, h]

theorem State.withBuffer_error {s : State} {base n : Nat} {f : Fault} (h : s.om.readMany base n = .error f)
    (rest : List Nat → Host.Outcome State Fault Refusal) : s.withBuffer base n rest = .fault f := by
  simp [State.withBuffer, h]

/-- A fetch that leads to a next state has read its buffer. -/
theorem State.withBuffer_next_iff {s t : State} {base n : Nat} {rest : List Nat → Host.Outcome State Fault Refusal} :
    s.withBuffer base n rest = .next t ↔ ∃ xs, s.om.readMany base n = .ok xs ∧ rest xs = .next t := by
  unfold State.withBuffer
  cases s.om.readMany base n <;> simp

/-- A fetch that leads to a fault has either faulted itself or read its buffer and gone on to the fault. -/
theorem State.withBuffer_fault_iff {s : State} {base n : Nat} {f : Fault}
    {rest : List Nat → Host.Outcome State Fault Refusal} :
    s.withBuffer base n rest = .fault f ↔
      s.om.readMany base n = .error f ∨ ∃ xs, s.om.readMany base n = .ok xs ∧ rest xs = .fault f := by
  unfold State.withBuffer
  cases s.om.readMany base n <;> simp

theorem State.withBuffer_refused_iff {s : State} {base n : Nat} {r : Refusal}
    {rest : List Nat → Host.Outcome State Fault Refusal} :
    s.withBuffer base n rest = .refused r ↔ ∃ xs, s.om.readMany base n = .ok xs ∧ rest xs = .refused r := by
  unfold State.withBuffer
  cases s.om.readMany base n <;> simp

/-- What a reduction leaves alone. -/
theorem State.reduce_keeps (s : State) (t : List Nat) :
    (s.reduce t).2.params = s.params ∧ (s.reduce t).2.ps = s.ps ∧ (s.reduce t).2.om = s.om ∧ (s.reduce t).2.c = s.c ∧
      (s.reduce t).2.pending = s.pending ∧ (s.reduce t).2.reply = s.reply := by
  unfold State.reduce
  split <;> simp

theorem State.reduce_eq {s : State} {t : List Nat} (h : val s.ps.W t < s.ps.R * s.ps.p) :
    s.reduce t = ((mredf s.ps t).1, s) := if_pos h

theorem State.reduce_draw {s : State} {t : List Nat} (h : s.ps.R * s.ps.p ≤ val s.ps.W t) :
    s.reduce t = s.drawLimbs s.ps.N := if_neg (not_lt.mpr h)

theorem State.reduce_length {s : State} {t : List Nat} (hP : s.ps.P.length = s.ps.N) (ht : t.length = 2 * s.ps.N) :
    (s.reduce t).1.length = s.ps.N := by
  unfold State.reduce
  split
  · exact mredf_length hP ht
  · simp

theorem State.reduce_fit {s : State} {t : List Nat} (h : LimbsFit s.ps.W t) : LimbsFit s.ps.W (s.reduce t).1 := by
  unfold State.reduce
  split
  · exact mredf_fit _ h
  · exact s.drawLimbs_fit _

@[simp] theorem Buffer.inside_iff (x : Buffer) (n : Nat) : x.inside n = true ↔ x.base + x.len ≤ n := by
  simp [Buffer.inside]

@[simp] theorem Buffer.contains_iff (x : Buffer) (a : Nat) : x.contains a = true ↔ x.base ≤ a ∧ a < x.base + x.len := by
  simp [Buffer.contains]

@[simp] theorem Buffer.overlaps_iff (x y : Buffer) :
    x.overlaps y = true ↔ x.base < y.base + y.len ∧ y.base < x.base + x.len := by
  simp [Buffer.overlaps]

@[simp] theorem Buffer.overlaps_eq_false_iff (x y : Buffer) :
    x.overlaps y = false ↔ ¬(x.base < y.base + y.len ∧ y.base < x.base + x.len) := by
  rw [← Buffer.overlaps_iff, Bool.not_eq_true]

/-- The three codes of a command that is not admitted (30_encoding.md rule R65). -/
theorem admission_badShape {N n : Nat} {i : Instr} (h : shapeFits i = false) : admission N n i = .badShape := by
  simp [admission, h]

theorem admission_badAddr {N n : Nat} {i : Instr} {x : Buffer} (h : shapeFits i = true)
    (hx : x ∈ writtenBuffer N i :: readOnlyBuffers N i) (hn : n < x.base + x.len) : admission N n i = .badAddr := by
  rw [admission, if_pos h, if_neg]
  intro hall
  have := (x.inside_iff n).mp (List.all_eq_true.mp hall x hx)
  omega

theorem admission_badAlias {N n : Nat} {i : Instr} {x : Buffer} (h : shapeFits i = true)
    (hall : ∀ y ∈ writtenBuffer N i :: readOnlyBuffers N i, y.inside n = true) (hx : x ∈ readOnlyBuffers N i)
    (ho : (writtenBuffer N i).overlaps x = true) : admission N n i = .badAlias := by
  rw [admission, if_pos h, if_pos (List.all_eq_true.mpr hall), if_pos (List.any_eq_true.mpr ⟨x, hx, ho⟩)]

/-- When a command is admitted (30_encoding.md rule R65). -/
theorem admission_ok_iff (N n : Nat) (i : Instr) :
    admission N n i = .ok ↔ shapeFits i = true ∧
      (∀ x ∈ writtenBuffer N i :: readOnlyBuffers N i, x.inside n = true) ∧
      ∀ x ∈ readOnlyBuffers N i, (writtenBuffer N i).overlaps x = false := by
  unfold admission
  split
  · rename_i h1
    split
    · rename_i h2
      split
      · rename_i h3
        simp only [List.any_eq_true] at h3
        obtain ⟨x, hx, hov⟩ := h3
        simp only [reduceCtorEq, false_iff, not_and]
        intro _ _ h
        rw [h x hx] at hov
        cases hov
      · rename_i h3
        simp only [List.any_eq_true, not_exists, not_and, Bool.not_eq_true] at h3
        simp only [true_iff]
        exact ⟨h1, by simpa using h2, h3⟩
    · rename_i h2
      simp only [reduceCtorEq, false_iff, not_and]
      intro _ h
      exact absurd (List.all_eq_true.mpr h) h2
  · rename_i h1
    simp only [reduceCtorEq, false_iff, not_and]
    intro h
    exact absurd h h1

theorem admission_ne_illegalOp (N n : Nat) (i : Instr) : admission N n i ≠ .illegalOp := by
  unfold admission
  split
  · split
    · split <;> simp
    · simp
  · simp

/-- An admitted command's written buffer lies inside operand memory. -/
theorem written_inside {s : State} {i : Instr} (h : s.admission i = .ok) :
    (writtenBuffer s.ps.N i).base + (writtenBuffer s.ps.N i).len ≤ s.params.omLimbs := by
  have := ((admission_ok_iff _ _ _).mp h).2.1 (writtenBuffer s.ps.N i) (by simp)
  simpa using this

/-- The constant arrays have N limbs. -/
structure ConstBundle.Sized (k : ConstBundle) : Prop where
  P : k.P.length = k.N
  P2 : k.P2.length = k.N
  PP1 : k.PP1.length = k.N
  R2 : k.R2.length = k.N

theorem ConstBundle.ofParams_sized (q : ParamSet) : (ConstBundle.ofParams q).Sized := by
  constructor <;> simp [ConstBundle.ofParams]

theorem State.bundle_sized {s : State} (h : s.bundleReady = true) : s.ps.Sized := by
  obtain ⟨q, _, _, hq⟩ := s.bundleReady_iff.mp h
  rw [hq]
  exact ConstBundle.ofParams_sized q

/-- What an executed command does to the state: `len` W-bit limbs are written at the base of its written buffer, the flag is
written by ADD, SUB and MAC alone, a draw may have been made, and the response is OK with the flag as it then stands. -/
structure Executed (i : Instr) (s t : State) : Prop where
  params : t.params = s.params
  ps : t.ps = s.ps
  pending : t.pending = s.pending
  flag : writesFlag i = false → t.c = s.c
  flagWritten : writesFlag i = true → t.c.isSome = true
  reply : t.reply = .response .ok t.c
  draws : s.draws ≤ t.draws
  memory : ∃ xs : List Nat, t.om = s.om.writeMany (writtenBuffer s.ps.N i).base xs ∧
    (s.ps.Sized → xs.length = (writtenBuffer s.ps.N i).len) ∧
    ((∀ e ∈ s.om, e.2 < 2 ^ s.ps.W) → LimbsFit s.ps.W xs)

theorem Executed.of_complete {i : Instr} {s t u : State} {dst : Nat} {xs : List Nat} (hu : u.params = s.params ∧ u.ps = s.ps ∧
    u.om = s.om ∧ u.c = s.c ∧ u.pending = s.pending) (hd : s.draws ≤ u.draws) (hw : writesFlag i = false)
    (hb : (writtenBuffer s.ps.N i).base = dst) (hl : s.ps.Sized → xs.length = (writtenBuffer s.ps.N i).len)
    (hf : (∀ e ∈ s.om, e.2 < 2 ^ s.ps.W) → LimbsFit s.ps.W xs) (h : u.complete dst xs = .next t) : Executed i s t := by
  obtain ⟨h1, h2, h3, h4, h5⟩ := hu
  cases h
  refine ⟨h1, h2, h5, fun _ => h4, fun h => ?_, rfl, hd, xs, ?_, hl, hf⟩
  · rw [hw] at h
    cases h
  · simp [hb, h3]

theorem Executed.of_completeWithFlag {i : Instr} {s t : State} {dst : Nat} {r : List Nat × Nat} (hw : writesFlag i = true)
    (hb : (writtenBuffer s.ps.N i).base = dst) (hl : s.ps.Sized → r.1.length = (writtenBuffer s.ps.N i).len)
    (hf : LimbsFit s.ps.W r.1) (h : s.completeWithFlag dst r = .next t) : Executed i s t := by
  cases h
  refine ⟨rfl, rfl, rfl, fun h => ?_, fun _ => rfl, rfl, le_refl _, r.1, ?_, hl, fun _ => hf⟩
  · rw [hw] at h
    cases h
  · simp [hb]

theorem Executed.of_completeReduced {i : Instr} {s t : State} {dst : Nat} {xs : List Nat} (hw : writesFlag i = false)
    (hb : writtenBuffer s.ps.N i = ⟨dst, s.ps.N⟩) (hx : xs.length = 2 * s.ps.N)
    (hf : (∀ e ∈ s.om, e.2 < 2 ^ s.ps.W) → LimbsFit s.ps.W xs) (h : s.completeReduced dst xs = .next t) : Executed i s t := by
  obtain ⟨h1, h2, h3, h4, h5, _⟩ := s.reduce_keeps xs
  refine Executed.of_complete ⟨h1, h2, h3, h4, h5⟩ ?_ hw (by rw [hb]) (fun hs => ?_) (fun he => State.reduce_fit (hf he)) h
  · unfold State.reduce
    split <;> simp
  · rw [hb, State.reduce_length hs.P hx]

theorem Memory.readMany_fit {m : Memory} {W a k : Nat} {xs : List Nat} (h : ∀ e ∈ m, e.2 < 2 ^ W)
    (hr : m.readMany a k = .ok xs) : LimbsFit W xs := by
  obtain ⟨hl, hall⟩ := (m.readMany_ok_iff a k xs).mp hr
  intro x hx
  obtain ⟨j, hj, rfl⟩ := List.mem_iff_getElem.mp hx
  exact h _ (Memory.mem_of_read ((hall j (by omega)).trans (List.getElem?_eq_getElem hj)))

/-- exec by admission: a command that is not admitted is rejected, one that is executes (rule R65). -/
theorem exec_rejected {i : Instr} {s : State} (h : s.admission i ≠ .ok) : exec i s = .next (s.respond (s.admission i)) := by
  cases i <;> exact State.admitted_reject h _

/-- The inversion of exec: a next state comes from a rejection or from an executed command. -/
theorem exec_next {i : Instr} {s t : State} (h : exec i s = .next t) :
    (s.admission i ≠ .ok ∧ t = s.respond (s.admission i)) ∨ (s.admission i = .ok ∧ Executed i s t) := by
  by_cases ha : s.admission i = .ok
  · refine .inr ⟨ha, ?_⟩
    cases i with
    | add dst src1 src2 len =>
      simp only [exec, execAdd, State.admitted_ok ha, State.withBuffer_next_iff] at h
      obtain ⟨a, hra, b, hrb, h⟩ := h
      refine .of_completeWithFlag rfl rfl (fun _ => ?_) (addL_fit _ _) h
      rw [addL_length ((Memory.readMany_length hra).trans (Memory.readMany_length hrb).symm), Memory.readMany_length hra]
      rfl
    | sub dst src1 src2 len =>
      simp only [exec, execSub, State.admitted_ok ha, State.withBuffer_next_iff] at h
      obtain ⟨a, hra, b, hrb, h⟩ := h
      refine .of_completeWithFlag rfl rfl (fun _ => ?_) (subL_fit _ _) h
      rw [subL_length ((Memory.readMany_length hra).trans (Memory.readMany_length hrb).symm), Memory.readMany_length hra]
      rfl
    | mac acc x y k m =>
      simp only [exec, execMac, State.admitted_ok ha, State.withBuffer_next_iff] at h
      obtain ⟨xv, _, yv, hry, av, hra, h⟩ := h
      refine .of_completeWithFlag rfl rfl (fun _ => ?_) (macRow_fit _ _ _) h
      have hkm : k < m := by
        have := ((admission_ok_iff _ _ _).mp ha).1
        simp [shapeFits] at this
        omega
      rw [macRow_length _ (by rw [Memory.readMany_length hry, Memory.readMany_length hra]; omega),
        Memory.readMany_length hra]
      rfl
    | kmul dst src1 src2 =>
      simp only [exec, execKmul, State.admitted_ok ha, State.withBuffer_next_iff] at h
      obtain ⟨a, hra, b, hrb, h⟩ := h
      refine .of_complete ⟨rfl, rfl, rfl, rfl, rfl⟩ (le_refl _) rfl rfl (fun _ => ?_) (fun _ => km_fit _ _ _) h
      rw [km_length _ ((Memory.readMany_length hra).trans (Memory.readMany_length hrb).symm), Memory.readMany_length hra]
      rfl
    | mred dst src1 =>
      simp only [exec, execMred, State.admitted_ok ha, State.withBuffer_next_iff] at h
      obtain ⟨a, hra, h⟩ := h
      exact .of_completeReduced rfl rfl (Memory.readMany_length hra) (fun he => Memory.readMany_fit he hra) h
    | fadd dst src1 src2 =>
      simp only [exec, execFadd, State.admitted_ok ha, State.withBuffer_next_iff] at h
      obtain ⟨a, hra, b, hrb, h⟩ := h
      refine .of_complete ⟨rfl, rfl, rfl, rfl, rfl⟩ (le_refl _) rfl rfl (fun _ => ?_) (fun _ => fieldAdd_fit) h
      rw [fieldAdd_length ((Memory.readMany_length hra).trans (Memory.readMany_length hrb).symm),
        Memory.readMany_length hra]
      rfl
    | fsub dst src1 src2 =>
      simp only [exec, execFsub, State.admitted_ok ha, State.withBuffer_next_iff] at h
      obtain ⟨a, hra, b, hrb, h⟩ := h
      refine .of_complete ⟨rfl, rfl, rfl, rfl, rfl⟩ (le_refl _) rfl rfl (fun hs => ?_) (fun _ => fieldSub_fit) h
      rw [fieldSub_length ((Memory.readMany_length hra).trans (Memory.readMany_length hrb).symm)
        (hs.P2.trans (Memory.readMany_length hra).symm), Memory.readMany_length hra]
      rfl
    | fneg dst =>
      simp only [exec, execFneg, State.admitted_ok ha, State.withBuffer_next_iff] at h
      obtain ⟨a, hra, h⟩ := h
      refine .of_complete ⟨rfl, rfl, rfl, rfl, rfl⟩ (le_refl _) rfl rfl (fun hs => ?_) (fun _ => fieldNeg_fit) h
      rw [fieldNeg_length (hs.P2.trans (Memory.readMany_length hra).symm), Memory.readMany_length hra]
      rfl
    | fdiv2 dst src1 =>
      simp only [exec, execFdiv2, State.admitted_ok ha, State.withBuffer_next_iff] at h
      obtain ⟨a, hra, h⟩ := h
      refine .of_complete ⟨rfl, rfl, rfl, rfl, rfl⟩ (le_refl _) rfl rfl (fun hs => ?_) (fun _ => fieldHalve_fit) h
      rw [fieldHalve_length (hs.P.trans (Memory.readMany_length hra).symm), Memory.readMany_length hra]
      rfl
    | fcorr dst =>
      simp only [exec, execFcorr, State.admitted_ok ha, State.withBuffer_next_iff] at h
      obtain ⟨a, hra, h⟩ := h
      refine .of_complete ⟨rfl, rfl, rfl, rfl, rfl⟩ (le_refl _) rfl rfl (fun hs => ?_) (fun _ => fieldCorrect_fit) h
      rw [fieldCorrect_length (hs.P.trans (Memory.readMany_length hra).symm), Memory.readMany_length hra]
      rfl
    | fmul dst src1 src2 =>
      simp only [exec, execFmul, State.admitted_ok ha, State.withBuffer_next_iff] at h
      obtain ⟨a, hra, b, hrb, h⟩ := h
      refine .of_completeReduced rfl rfl ?_ (fun _ => km_fit _ _ _) h
      rw [km_length _ ((Memory.readMany_length hra).trans (Memory.readMany_length hrb).symm), Memory.readMany_length hra]
    | fsqr dst src1 =>
      simp only [exec, execFsqr, State.admitted_ok ha, State.withBuffer_next_iff] at h
      obtain ⟨a, hra, h⟩ := h
      refine .of_completeReduced rfl rfl ?_ (fun _ => km_fit _ _ _) h
      rw [km_length _ rfl, Memory.readMany_length hra]
  · refine .inl ⟨ha, ?_⟩
    rw [exec_rejected ha] at h
    cases h
    rfl

/-- A fault of an admitted command is the fault of fetching one of the buffers it reads. -/
theorem exec_fault {i : Instr} {s : State} {f : Fault} (h : s.admission i = .ok) (he : exec i s = .fault f) :
    ∃ x ∈ readBuffers s.ps.N i, s.om.readMany x.base x.len = .error f := by
  cases i <;>
    simp only [exec, execAdd, execSub, execMac, execKmul, execMred, execFadd, execFsub, execFneg, execFdiv2, execFcorr,
      execFmul, execFsqr, State.admitted_ok h, State.withBuffer_fault_iff, State.complete, State.completeWithFlag,
      State.completeReduced, reduceCtorEq, and_false, or_false, exists_false] at he <;>
    simp only [readBuffers, readOnlyBuffers, inPlace, writtenBuffer, List.mem_append, List.mem_cons, List.not_mem_nil,
      or_false, if_true, if_false, Bool.false_eq_true, false_or, exists_eq_left, or_and_right, exists_or] <;>
    tauto

/-- An admitted command that answers a next state has fetched every buffer it reads. -/
theorem exec_next_reads {i : Instr} {s t : State} (h : s.admission i = .ok) (he : exec i s = .next t) :
    ∀ x ∈ readBuffers s.ps.N i, ∃ xs, s.om.readMany x.base x.len = .ok xs := by
  cases i <;>
    simp only [exec, execAdd, execSub, execMac, execKmul, execMred, execFadd, execFsub, execFneg, execFdiv2, execFcorr,
      execFmul, execFsqr, State.admitted_ok h, State.withBuffer_next_iff] at he <;>
    simp only [readBuffers, readOnlyBuffers, inPlace, writtenBuffer, List.mem_append, List.mem_cons, List.not_mem_nil,
      or_false, if_true, if_false, Bool.false_eq_true, false_or, forall_eq, or_imp, forall_and]
  case mac =>
    obtain ⟨a, ha, b, hb, c, hc, _⟩ := he
    exact ⟨⟨⟨a, ha⟩, ⟨b, hb⟩⟩, ⟨c, hc⟩⟩
  case mred | fneg | fdiv2 | fcorr | fsqr =>
    obtain ⟨a, ha, _⟩ := he
    exact ⟨a, ha⟩
  all_goals
    obtain ⟨a, ha, b, hb, _⟩ := he
    exact ⟨⟨a, ha⟩, ⟨b, hb⟩⟩

/-- No command is refused. -/
theorem exec_not_refused {i : Instr} {s : State} {r : Refusal} : exec i s ≠ .refused r := by
  intro he
  by_cases h : s.admission i = .ok
  · cases i <;>
      simp [exec, execAdd, execSub, execMac, execKmul, execMred, execFadd, execFsub, execFneg, execFdiv2, execFcorr,
        execFmul, execFsqr, State.admitted_ok h, State.withBuffer_refused_iff, State.complete, State.completeWithFlag,
        State.completeReduced] at he
  · rw [exec_rejected h] at he
    cases he

end Sys2Proof.Machine
end

