-- ==== Sys2Proof/Laws/PerInstr.lean ====
section
/-! SUPPORT. Laws/PerInstr.lean: statements about every instruction as syntax, one lemma per constructor. -/

namespace Sys2Proof.Laws.RowRebuilds

/-- The row of an instruction and its fields build it again: no operand is lost between the abstract syntax and the fields of
the command word (30_encoding.md rules R63, R69). -/
def Statement (i : Instr) : Prop := i.op.build i.fields = i

theorem add (dst src1 src2 len : Nat) : Statement (.add dst src1 src2 len) := rfl
theorem sub (dst src1 src2 len : Nat) : Statement (.sub dst src1 src2 len) := rfl
theorem mac (acc x y k m : Nat) : Statement (.mac acc x y k m) := rfl
theorem kmul (dst src1 src2 : Nat) : Statement (.kmul dst src1 src2) := rfl
theorem mred (dst src1 : Nat) : Statement (.mred dst src1) := rfl
theorem fadd (dst src1 src2 : Nat) : Statement (.fadd dst src1 src2) := rfl
theorem fsub (dst src1 src2 : Nat) : Statement (.fsub dst src1 src2) := rfl
theorem fneg (dst : Nat) : Statement (.fneg dst) := rfl
theorem fdiv2 (dst src1 : Nat) : Statement (.fdiv2 dst src1) := rfl
theorem fcorr (dst : Nat) : Statement (.fcorr dst) := rfl
theorem fmul (dst src1 src2 : Nat) : Statement (.fmul dst src1 src2) := rfl
theorem fsqr (dst src1 : Nat) : Statement (.fsqr dst src1) := rfl

end Sys2Proof.Laws.RowRebuilds
end

