-- ==== Sys2Proof/Laws/Primality.lean ====
section
/-! SUPPORT. Laws/Primality.lean: the primality check of a bundle is exact: it answers true precisely for a prime p, so that the
check a reset makes is the whole constraint of rule R10. -/

namespace Sys2Proof.Machine

/-! ### Trial division -/

theorem noDivisorFrom_iff (n fuel d : Nat) (hf : n < (d + fuel) * (d + fuel)) :
    noDivisorFrom n fuel d = true ↔ ∀ m, d ≤ m → m * m ≤ n → ¬m ∣ n := by
  induction fuel generalizing d with
  | zero => exact ⟨fun _ m hm h => absurd (Nat.mul_le_mul hm hm) (by simp only [Nat.add_zero] at hf; omega), fun _ => rfl⟩
  | succ fuel ih =>
    unfold noDivisorFrom
    split
    · rename_i h
      exact ⟨fun _ m hm h' => absurd (Nat.mul_le_mul hm hm) (by omega), fun _ => rfl⟩
    · rename_i h
      split
      · rename_i h0
        exact ⟨fun h => absurd h Bool.false_ne_true, fun hall => absurd (Nat.dvd_of_mod_eq_zero h0) (hall d (le_refl d) (by omega))⟩
      · rename_i h0
        rw [ih (d + 1) (by rwa [Nat.add_right_comm d 1 fuel] )]
        refine ⟨fun hall m hm h' => ?_, fun hall m hm => hall m (by omega)⟩
        rcases Nat.eq_or_lt_of_le hm with rfl | hlt
        · exact fun hd => h0 (Nat.mod_eq_zero_of_dvd hd)
        · exact hall m hlt h'

theorem trialDivision_iff (n : Nat) : (2 ≤ n ∧ noDivisorFrom n n 2 = true) ↔ n.Prime := by
  rw [noDivisorFrom_iff n n 2 (by nlinarith), Nat.prime_def_le_sqrt]
  simp only [Nat.le_sqrt]

/-! ### The certificate -/

section Certificate
variable {F : Type} [Field F] {n : Nat} {i : F}

/-- The value of a + b*i in a field of a characteristic that divides n. -/
def Gauss.value (i : F) (x : Gauss) : F := x.1 + x.2 * i

theorem cast_mod_of_zero (hn : (n : F) = 0) (a : Nat) : ((a % n : Nat) : F) = a := by
  conv_rhs => rw [← Nat.mod_add_div a n]
  simp [hn]

theorem Gauss.value_mul (hn : (n : F) = 0) (h1 : 1 ≤ n) (hi : i ^ 2 = -1) (x y : Gauss) :
    (Gauss.mul n x y).value i = x.value i * y.value i := by
  simp only [Gauss.mul, Gauss.value, cast_mod_of_zero hn]
  push_cast [Nat.cast_sub h1, hn]
  linear_combination (-(x.2 : F) * y.2) * hi

theorem Gauss.value_pow (hn : (n : F) = 0) (h1 : 1 ≤ n) (hi : i ^ 2 = -1) (bits : Nat) (x : Gauss) (e : Nat)
    (he : e < 2 ^ bits) : (Gauss.pow n bits x e).value i = x.value i ^ e := by
  induction bits generalizing x e with
  | zero =>
    obtain rfl : e = 0 := by simpa using he
    simp [Gauss.pow, Gauss.value]
  | succ bits ih =>
    have he' : e / 2 < 2 ^ bits := by rw [pow_succ] at he; omega
    unfold Gauss.pow
    split
    · rename_i h
      rw [value_mul hn h1 hi, ih _ _ he', value_mul hn h1 hi, ← pow_two, ← pow_mul, ← pow_succ']
      congr 1; omega
    · rename_i h
      rw [ih _ _ he', value_mul hn h1 hi, ← pow_two, ← pow_mul]
      congr 1; omega

theorem Gauss.value_cubeRoot (hn : (n : F) = 0) (h1 : 1 ≤ n) (hi : i ^ 2 = -1) {u : Gauss}
    (hu : Gauss.isCubeRoot n u = true) : u.value i ^ 2 + u.value i + 1 = 0 := by
  simp only [Gauss.isCubeRoot, Bool.and_eq_true, beq_iff_eq] at hu
  have e1 := cast_mod_of_zero hn ((Gauss.mul n u u).1 + u.1 + 1)
  have e2 := cast_mod_of_zero hn ((Gauss.mul n u u).2 + u.2)
  rw [hu.1] at e1
  rw [hu.2] at e2
  push_cast at e1 e2
  rw [pow_two, ← value_mul hn h1 hi]
  simp only [Gauss.value] at *
  linear_combination -e1 - i * e2

end Certificate

/-- In the algebraic closure of the field of q elements every a + b*i is fixed by the q^2-th power. -/
theorem Gauss.value_pow_sq {q : Nat} [Fact q.Prime] (hq : q % 2 = 1) {i : AlgebraicClosure (ZMod q)} (hi : i ^ 2 = -1) (x : Gauss) :
    x.value i ^ q ^ 2 = x.value i := by
  have hc (a : Nat) : (a : AlgebraicClosure (ZMod q)) ^ q ^ 2 = a := by
    have h1 : (a : AlgebraicClosure (ZMod q)) ^ q = a := by
      rw [← map_natCast (algebraMap (ZMod q) (AlgebraicClosure (ZMod q))) a, ← map_pow, ZMod.pow_card]
    rw [pow_two, pow_mul, h1, h1]
  have hi4 : i ^ q ^ 2 = i := by
    obtain ⟨k, hk⟩ : ∃ k, q ^ 2 = 4 * k + 1 := by
      obtain ⟨j, rfl⟩ : ∃ j, q = 2 * j + 1 := ⟨q / 2, by omega⟩
      exact ⟨j * j + j, by ring⟩
    have h4 : i ^ 4 = 1 := by rw [show (4 : Nat) = 2 * 2 from rfl, pow_mul, hi]; ring
    rw [hk, pow_succ, pow_mul, h4, one_pow, one_mul]
  unfold Gauss.value
  rw [add_pow_char_pow, mul_pow, hc, hc, hi4]

theorem eq_two_or_three_of_prime_dvd {r a b : Nat} (hr : r.Prime) (h : r ∣ 2 ^ a * 3 ^ b) : r = 2 ∨ (r = 3 ∧ 1 ≤ b) := by
  rcases (hr.dvd_mul).mp h with h | h
  · exact .inl ((Nat.prime_dvd_prime_iff_eq hr Nat.prime_two).mp (hr.dvd_of_dvd_pow h))
  · refine .inr ⟨(Nat.prime_dvd_prime_iff_eq hr Nat.prime_three).mp (hr.dvd_of_dvd_pow h), Nat.one_le_iff_ne_zero.mpr ?_⟩
    rintro rfl
    exact hr.one_lt.ne' (Nat.dvd_one.mp (by simpa using h))

/-- A certificate proves primality: a smallest prime factor q of a composite p would have an element of order p + 1 among the
units a + b*i over it, whose orders divide q^2 - 1 < p. -/
theorem prime_of_certifies {a b x : Nat} (ha : 1 ≤ a) (h1 : 1 < 2 ^ a * 3 ^ b - 1) (h : certifies a b x = true) :
    (2 ^ a * 3 ^ b - 1).Prime := by
  have heven : 2 ∣ 2 ^ a * 3 ^ b := (dvd_pow_self 2 (by omega)).mul_right _
  have hthree : 1 ≤ b → 3 ∣ 2 ^ a * 3 ^ b := fun hb => (dvd_pow_self 3 (by omega)).mul_left _
  have hprimes (r : Nat) (hr : r.Prime) (hd : r ∣ 2 ^ a * 3 ^ b) := eq_two_or_three_of_prime_dvd hr hd
  have hbits : 2 ^ a * 3 ^ b ≤ 2 ^ (a + 2 * b) := by
    rw [pow_add, pow_mul]
    exact Nat.mul_le_mul_left _ (Nat.pow_le_pow_left (by norm_num) b)
  simp only [certifies, Bool.and_eq_true, Bool.or_eq_true, beq_iff_eq] at h
  obtain ⟨p, hp⟩ : ∃ p, 2 ^ a * 3 ^ b = p + 1 := ⟨_, (Nat.sub_add_cancel (by omega)).symm⟩
  simp only [hp, Nat.add_sub_cancel] at *
  generalize Gauss.pow p (a + 2 * b) (x, 1) (p - 1) = w at h
  obtain ⟨h2, h3⟩ := h
  by_contra hnp
  have hq : (p.minFac).Prime := Nat.minFac_prime (by omega)
  have hsq : p.minFac ^ 2 ≤ p := Nat.minFac_sq_le_self (by omega) hnp
  have hdvd : p.minFac ∣ p := p.minFac_dvd
  generalize p.minFac = q at hq hsq hdvd
  have hodd : q % 2 = 1 := by
    rcases hq.eq_two_or_odd with rfl | h
    · omega
    · exact h
  have : Fact q.Prime := ⟨hq⟩
  obtain ⟨i, hi⟩ := IsAlgClosed.exists_pow_nat_eq (-1 : AlgebraicClosure (ZMod q)) (n := 2) (by norm_num)
  have hzero {m : Nat} : ((m : Nat) : AlgebraicClosure (ZMod q)) = 0 ↔ q ∣ m := CharP.cast_eq_zero_iff _ q m
  have hn := hzero.mpr hdvd
  have hhalf : w.value i ^ ((p + 1) / 2) = -1 := by
    rw [← Gauss.value_pow hn (by omega) hi (a + 2 * b) w _ (by omega), h2]
    simp [Gauss.value, Nat.cast_sub (show 1 ≤ p by omega), hn]
  have hneg : (-1 : AlgebraicClosure (ZMod q)) ≠ 1 := fun h => by
    have : q ∣ 2 := hzero.mp (by push_cast; linear_combination -h)
    have := Nat.le_of_dvd (by norm_num) this
    have := hq.two_le
    omega
  have hone : w.value i ^ (p + 1) = 1 := by
    obtain ⟨k, hk⟩ := heven
    rw [hk, Nat.mul_div_cancel_left _ (by norm_num)] at hhalf
    rw [hk, mul_comm, pow_mul, hhalf]
    ring
  have hthird (hb : 1 ≤ b) : w.value i ^ ((p + 1) / 3) ≠ 1 := fun hu => by
    have hu' := Gauss.value_cubeRoot hn (by omega) hi (h3.resolve_left (by omega))
    rw [Gauss.value_pow hn (by omega) hi (a + 2 * b) w _ (by omega), hu] at hu'
    have h3q : q ∣ 3 := hzero.mp (by push_cast; linear_combination hu')
    have hd := (Nat.dvd_add_right hdvd).mp (h3q.trans (hthree hb))
    exact hq.one_lt.ne' (Nat.dvd_one.mp hd)
  have horder : orderOf (w.value i) = p + 1 :=
    orderOf_eq_of_pow_and_pow_div_prime (by omega) hone fun r hr hd => by
      rcases hprimes r hr hd with rfl | ⟨rfl, hb⟩
      · rw [hhalf]; exact hneg
      · exact hthird hb
  have hne : w.value i ≠ 0 := fun h => by
    rw [h, zero_pow (by omega)] at hone
    exact zero_ne_one hone
  have hfix : w.value i ^ (q ^ 2 - 1) = 1 := by
    apply mul_right_cancel₀ hne
    rw [← pow_succ, Nat.sub_add_cancel (Nat.one_le_pow _ _ hq.pos), Gauss.value_pow_sq hodd hi, one_mul]
  have h4 : 4 ≤ q ^ 2 := Nat.pow_le_pow_left hq.two_le 2
  have := Nat.le_of_dvd (by omega) (horder ▸ orderOf_dvd_of_pow_eq_one hfix)
  omega

/-! ### The check is exact -/

/-- The check answers true precisely when p is prime. -/
theorem primeBundle_iff (q : ParamSet) : primeBundle q = true ↔ q.p.Prime := by
  simp only [primeBundle, Bool.and_eq_true, Bool.or_eq_true, decide_eq_true_eq, List.any_eq_true]
  constructor
  · rintro ⟨h2, ⟨hea, x, _, hc⟩ | ht⟩
    · exact prime_of_certifies hea h2 hc
    · exact (trialDivision_iff q.p).mp ⟨h2, ht⟩
  · intro h
    have := (trialDivision_iff q.p).mpr h
    exact ⟨this.1, .inr this.2⟩

/-- The check a reset makes is the whole constraint of rules R10 and R11. -/
theorem validBundle_iff (q : ParamSet) (n : Nat) : validBundle q n = true ↔ q.Valid n := by
  rw [validBundle, Bool.and_eq_true, primeBundle_iff, ParamSet.Valid]

end Sys2Proof.Machine
end

