-- ==== Sys2Proof/Laws/Step.lean ====
section
/-! SUPPORT. Laws/Step.lean: what each action of the host can do when it answers a next state, and what an executed command
leaves behind, for statements about step and exec to cite in place of unfolding them. -/

namespace Sys2Proof.Machine

/-- What the three ways a command ends leave behind. -/
theorem CommandDone.of_complete {s t : State} {dst : Nat} {xs : List Nat} (h : s.complete dst xs = .next t) :
    CommandDone s t dst xs s.c := by
  cases h
  exact ⟨by simp [Memory.readMany_writeMany], fun a ha => by simpa using Memory.read_writeMany_outside _ _ ha,
    rfl, rfl, rfl, rfl, rfl⟩

theorem CommandDone.of_completeWithFlag {s t : State} {dst : Nat} {r : List Nat × Nat}
    (h : s.completeWithFlag dst r = .next t) : CommandDone s t dst r.1 (some (carryFlag r.2)) := by
  cases h
  exact ⟨by simp [Memory.readMany_writeMany], fun a ha => by simpa using Memory.read_writeMany_outside _ _ ha,
    rfl, rfl, rfl, rfl, rfl⟩

theorem CommandDone.of_completeReduced {s t : State} {dst : Nat} {xs : List Nat} (h : s.completeReduced dst xs = .next t) :
    CommandDone s t dst (s.reduce xs).1 s.c := by
  obtain ⟨h1, h2, h3, h4, h5, _⟩ := s.reduce_keeps xs
  obtain ⟨c1, c2, c3, c4, c5, c6, c7⟩ := CommandDone.of_complete h
  exact ⟨c1, fun a ha => by rw [c2 a ha, h3], c3.trans h4, c4.trans (by rw [h4]), c5.trans h2, c6.trans h1, c7.trans h5⟩

theorem step_cons {s : State} {a : HostAction} {rest : List HostAction} (h : s.pending = a :: rest) :
    step s = perform a { s with pending := rest } := by
  simp [step, h]

/-- A step that answers a next state is idle or has performed the first pending action. -/
theorem step_next {s t : State} (h : step s = .next t) :
    (s.pending = [] ∧ t = s) ∨ ∃ a rest, s.pending = a :: rest ∧ perform a { s with pending := rest } = .next t := by
  cases hp : s.pending with
  | nil =>
    simp only [step, hp, Host.Outcome.next.injEq] at h
    exact .inl ⟨rfl, h.symm⟩
  | cons a rest => exact .inr ⟨a, rest, rfl, (step_cons hp).symm.trans h⟩

/-- ISSUE answers a next state by rejecting an illegal word or by exec of the decoded command. -/
theorem issue_next {w : BitVec 64} {s t : State} (h : issue w s = .next t) :
    (∃ code, decode w = .error code ∧ t = s.respond code) ∨ ∃ i, decode w = .ok i ∧ exec i s = .next t := by
  unfold issue at h
  split at h
  · rename_i i hi
    exact .inr ⟨i, hi, h⟩
  · rename_i code hc
    cases h
    exact .inl ⟨code, hc, rfl⟩

theorem hwrite_next {a v : Nat} {s t : State} (h : hwrite a v s = .next t) :
    a < s.params.omLimbs ∧ t = ({ s with om := s.om.write a (v % 2 ^ s.ps.W) }).answer .done := by
  unfold hwrite at h
  split at h
  · rename_i ha
    cases h
    exact ⟨by simpa [State.hasCell] using ha, rfl⟩
  · cases h

theorem memWrite_next {b n v : Nat} {s t : State} (h : memWrite b n v s = .next t) :
    s.ps.W % 8 = 0 ∧ b + n ≤ s.params.omLimbs * bytesPerLimb s.ps.W ∧
      t = ({ s with om := s.om.writeBytes s.ps.W b n v }).answer .done := by
  unfold memWrite at h
  split at h
  · rename_i hp
    split at h
    · rename_i hb
      cases h
      exact ⟨by simpa [State.hasBytePort] using hp, by simpa [State.hasBytes] using hb, rfl⟩
    · cases h
  · cases h

/-- The four host reads answer a value or a flag and change nothing else. -/
theorem hostRead_next {act : HostAction} {s t : State}
    (hact : (∃ a, act = .hread a) ∨ (∃ b n, act = .memRead b n) ∨ act = .hreadc ∨ ∃ k i, act = .hreadk k i)
    (h : perform act s = .next t) : ∃ r, t = s.answer r := by
  rcases hact with ⟨a, rfl⟩ | ⟨b, n, rfl⟩ | rfl | ⟨k, i, rfl⟩
  · simp only [perform, hread] at h
    split at h
    · split at h <;> cases h
      exact ⟨_, rfl⟩
    · cases h
  · simp only [perform, memRead] at h
    split at h
    · split at h
      · split at h <;> cases h
        exact ⟨_, rfl⟩
      · cases h
    · cases h
  · simp only [perform, hreadc] at h
    split at h <;> cases h
    exact ⟨_, rfl⟩
  · simp only [perform, hreadk] at h
    split at h <;> cases h
    exact ⟨_, rfl⟩

theorem resetEngine_next {psel : Nat} {s t : State} (h : resetEngine psel s = .next t) :
    ∃ q, s.params.sets[psel]? = some q ∧ validBundle q s.params.omLimbs = true ∧
      t = ({ s with ps := ConstBundle.ofParams q, om := [], c := none }).answer .done := by
  unfold resetEngine at h
  split at h
  · cases h
  · rename_i q hq
    split at h
    · rename_i hv
      cases h
      exact ⟨q, hq, hv, rfl⟩
    · cases h

end Sys2Proof.Machine
end

