-- ==== Sys2Proof/Tests/Slice0.lean ====
section
/-! SUPPORT. Tests/Slice0.lean: the model against the spec's own words, vectors and examples (95_test_vectors.md and the rules'
Example lines), the well-formedness smoke test, and one witness for every statement that has hypotheses. Every expected value is
read from the spec; the line it comes from is named beside the test. -/

namespace Sys2Proof.Tests

open Sys2Proof Sys2Proof.Machine

set_option Elab.async false

/-! ### Helpers -/

/-- The test bundles of 95_test_vectors.md section 2. -/
def t23a : ParamSet := { W := 4, N := 2, EA := 3, EB := 1, KDEPTH := 1 }
def t23b : ParamSet := { W := 2, N := 4, EA := 3, EB := 1, KDEPTH := 2 }
def t32 : ParamSet := { W := 8, N := 4, EA := 17, EB := 6, KDEPTH := 2 }
/-- A bundle of 16-bit limbs with T32's prime, for bytes that cover only part of a limb. -/
def t16 : ParamSet := { W := 16, N := 2, EA := 17, EB := 6, KDEPTH := 1 }
/-- A bundle that breaks rule R11 in W = 4, N = 1: 4 * 7 > 16. -/
def noHeadroom : ParamSet := { W := 4, N := 1, EA := 3, EB := 0, KDEPTH := 0 }

/-- A bundle that breaks rule R10 in p alone: 2^5 * 3^2 - 1 = 287 = 7 * 41 (90_conflicts.md C1). -/
def composite : ParamSet := { W := 8, N := 2, EA := 5, EB := 2, KDEPTH := 0 }

/-- The engine of the tests, OM_LIMBS = 1024 as in 95_test_vectors.md section 2. -/
def engine : EngineParams := { sets := [t23a, t23b, t32, noHeadroom, t16, composite], omLimbs := 1024 }

/-- The state after a reset that selected `q`, with buffers written by the host. -/
def load (q : ParamSet) (buffers : List (Nat × List Nat)) : State :=
  { State.afterReset engine q with om := buffers.foldl (fun m e => m.writeMany e.1 e.2) [] }

/-- What a test looks at: the limbs of one buffer, the flag and the response. -/
def shows (o : Host.Outcome State Fault Refusal) (base n : Nat) : Option (Option (List Nat) × Option Bool × Reply) :=
  (nextOf o).map fun t => ((t.om.readMany base n).toOption, t.c, t.reply)

/-- A completed command that leaves C unwritten. -/
def wrote (xs : List Nat) : Option (Option (List Nat) × Option Bool × Reply) :=
  some (some xs, none, .response .ok none)

/-- A completed command that wrote C. -/
def wroteC (xs : List Nat) (c : Bool) : Option (Option (List Nat) × Option Bool × Reply) :=
  some (some xs, some c, .response .ok (some c))

/-! ### Well-formedness: one ill-formed term for each field check -/

theorem test_wf_add : Instr.wellFormed (.add 1023 1023 1023 255) = true ∧ Instr.wellFormed (.add 1024 0 0 1) = false ∧
    Instr.wellFormed (.add 0 1024 0 1) = false ∧ Instr.wellFormed (.add 0 0 1024 1) = false ∧
    Instr.wellFormed (.add 0 0 0 256) = false := by decide
theorem test_wf_sub : Instr.wellFormed (.sub 1023 1023 1023 255) = true ∧ Instr.wellFormed (.sub 1024 0 0 1) = false ∧
    Instr.wellFormed (.sub 0 1024 0 1) = false ∧ Instr.wellFormed (.sub 0 0 1024 1) = false ∧
    Instr.wellFormed (.sub 0 0 0 256) = false := by decide
theorem test_wf_mac : Instr.wellFormed (.mac 1023 1023 1023 255 255) = true ∧
    Instr.wellFormed (.mac 1024 0 0 1 2) = false ∧ Instr.wellFormed (.mac 0 1024 0 1 2) = false ∧
    Instr.wellFormed (.mac 0 0 1024 1 2) = false ∧ Instr.wellFormed (.mac 0 0 0 256 2) = false ∧
    Instr.wellFormed (.mac 0 0 0 1 256) = false := by decide
theorem test_wf_kmul : Instr.wellFormed (.kmul 1024 0 0) = false ∧ Instr.wellFormed (.kmul 0 1024 0) = false ∧
    Instr.wellFormed (.kmul 0 0 1024) = false := by decide
theorem test_wf_mred : Instr.wellFormed (.mred 1024 0) = false ∧ Instr.wellFormed (.mred 0 1024) = false := by decide
theorem test_wf_fadd : Instr.wellFormed (.fadd 1024 0 0) = false ∧ Instr.wellFormed (.fadd 0 1024 0) = false ∧
    Instr.wellFormed (.fadd 0 0 1024) = false := by decide
theorem test_wf_fsub : Instr.wellFormed (.fsub 1024 0 0) = false ∧ Instr.wellFormed (.fsub 0 1024 0) = false ∧
    Instr.wellFormed (.fsub 0 0 1024) = false := by decide
theorem test_wf_fneg_fcorr : Instr.wellFormed (.fneg 1024) = false ∧ Instr.wellFormed (.fcorr 1024) = false := by decide
theorem test_wf_fdiv2 : Instr.wellFormed (.fdiv2 1024 0) = false ∧ Instr.wellFormed (.fdiv2 0 1024) = false := by decide
theorem test_wf_fmul : Instr.wellFormed (.fmul 1024 0 0) = false ∧ Instr.wellFormed (.fmul 0 1024 0) = false ∧
    Instr.wellFormed (.fmul 0 0 1024) = false := by decide
theorem test_wf_fsqr : Instr.wellFormed (.fsqr 1024 0) = false ∧ Instr.wellFormed (.fsqr 0 1024) = false := by decide

/-! ### Decoding: words written out from rule R61's fields, bits [63:62] rsv1, [61:52] src2, [51:42] src1, [41:32] dst,
[31:24] rsv0, [23:16] lb, [15:8] la, [7:0] op, every operand bit pattern distinct -/

theorem test_decode_add :
    decode 0b00_1000000011_0100000101_0010000111_00000000_00000000_10000001_00000001#64 =
      .ok (.add 0b0010000111 0b0100000101 0b1000000011 0b10000001) := by decide
theorem test_decode_sub :
    decode 0b00_1000000011_0100000101_0010000111_00000000_00000000_11000001_00000010#64 =
      .ok (.sub 0b0010000111 0b0100000101 0b1000000011 0b11000001) := by decide
theorem test_decode_mac :
    decode 0b00_1000000011_0100000101_0010000111_00000000_11110001_01000001_00000011#64 =
      .ok (.mac 0b0010000111 0b0100000101 0b1000000011 0b01000001 0b11110001) := by decide
theorem test_decode_kmul :
    decode 0b00_1000000011_0100000101_0010000111_00000000_00000000_00000000_00000100#64 =
      .ok (.kmul 0b0010000111 0b0100000101 0b1000000011) := by decide
theorem test_decode_mred :
    decode 0b00_0000000000_0100000101_0010000111_00000000_00000000_00000000_00000101#64 =
      .ok (.mred 0b0010000111 0b0100000101) := by decide
theorem test_decode_fadd :
    decode 0b00_1000000011_0100000101_0010000111_00000000_00000000_00000000_00010000#64 =
      .ok (.fadd 0b0010000111 0b0100000101 0b1000000011) := by decide
theorem test_decode_fsub :
    decode 0b00_1000000011_0100000101_0010000111_00000000_00000000_00000000_00010001#64 =
      .ok (.fsub 0b0010000111 0b0100000101 0b1000000011) := by decide
theorem test_decode_fneg :
    decode 0b00_0000000000_0000000000_0010000111_00000000_00000000_00000000_00010010#64 =
      .ok (.fneg 0b0010000111) := by decide
theorem test_decode_fdiv2 :
    decode 0b00_0000000000_0100000101_0010000111_00000000_00000000_00000000_00010011#64 =
      .ok (.fdiv2 0b0010000111 0b0100000101) := by decide
theorem test_decode_fcorr :
    decode 0b00_0000000000_0000000000_0010000111_00000000_00000000_00000000_00010100#64 =
      .ok (.fcorr 0b0010000111) := by decide
theorem test_decode_fmul :
    decode 0b00_1000000011_0100000101_0010000111_00000000_00000000_00000000_00010101#64 =
      .ok (.fmul 0b0010000111 0b0100000101 0b1000000011) := by decide
theorem test_decode_fsqr :
    decode 0b00_0000000000_0100000101_0010000111_00000000_00000000_00000000_00010110#64 =
      .ok (.fsqr 0b0010000111 0b0100000101) := by decide

/-- 95_test_vectors.md section 7.1: printed words of program P1. -/
theorem test_decode_program_words :
    decode 0x0020000400000010#64 = .ok (.fadd 4 0 2) ∧ decode 0x0020000600000011#64 = .ok (.fsub 6 0 2) ∧
      decode 0x0000100800000013#64 = .ok (.fdiv2 8 4) ∧ decode 0x0000000000000012#64 = .ok (.fneg 0) := by decide

/-- Rule R66: a nonzero rsv0, rsv1, or field the format marks zero makes the word illegal. -/
theorem test_decode_illegal :
    decode 0x0040002001000401#64 = .error .illegalOp ∧ decode 0x4040002000000401#64 = .error .illegalOp ∧
      decode 0x0040002000010401#64 = .error .illegalOp ∧ decode 0x0080180C00000104#64 = .error .illegalOp ∧
      decode 0x0010301000000005#64 = .error .illegalOp ∧ decode 0x0000040600000014#64 = .error .illegalOp ∧
      decode 0x0000000000000006#64 = .error .illegalOp ∧ decode 0x0000000000000017#64 = .error .illegalOp := by decide

theorem test_table_word : decodeTableWord 64 0x0000000000000012 = some (.fneg 0) ∧
    decodeTableWord 64 0x00 = none := by decide

theorem test_assembly : assembly (.mac 8 0 4 4 8) = "MAC 8, 0, 4, 4, 8" ∧ assembly (.fneg 0) = "FNEG 0" := by decide
/-- Rule R70. -/
theorem test_expand : expand (.fdbl 4 0) = [.fadd 4 0 0] ∧ expand (.frommont 16 12 6) = [.mred 16 12] ∧
    expand (.smulrow 8 0 4 2) = [.mac 8 0 4 2 4, .mac 9 1 4 2 3] := by decide

/-! ### One command on a small state -/

/-- Rule R92's example: 127 + 129 = 256 = 0 + 1*2^8. -/
theorem test_add_carry_out : shows (exec (.add 4 0 2 2) (load t23a [(0, [0xF, 0x7]), (2, [0x1, 0x8])])) 4 2 =
    wroteC [0, 0] true := by decide +kernel
/-- Section 3.1: 5 + 7 with no carry, one source used twice would give 10. -/
theorem test_add_same_source : shows (exec (.add 4 0 0 2) (load t23a [(0, [0x5, 0x0])])) 4 2 = wroteC [0xA, 0] false := by
  decide +kernel
/-- Rule R94's example: 5 - 7 + 256 = 254. -/
theorem test_sub_borrow_out : shows (exec (.sub 4 0 2 2) (load t23a [(0, [0x5, 0x0]), (2, [0x7, 0x0])])) 4 2 =
    wroteC [0xE, 0xF] true := by decide +kernel
/-- Section 3.1: a borrow crosses a run of zero limbs. -/
theorem test_sub_ripples : shows (exec (.sub 6 0 3 3) (load t23a [(0, [0, 0, 1]), (3, [1, 0, 0])])) 6 3 =
    wroteC [0xF, 0xF, 0x0] false := by decide +kernel
/-- Rule R102's example: 255 + 15*255 = 4080. -/
theorem test_mac_row : shows (exec (.mac 8 0 2 2 3) (load t23a [(0, [0xF]), (2, [0xF, 0xF]), (8, [0xF, 0xF, 0])])) 8 3 =
    wroteC [0x0, 0xF, 0xF] false := by decide +kernel
/-- Section 3.2: the carry runs the whole accumulator, C = 1. -/
theorem test_mac_carry_out :
    shows (exec (.mac 8 0 2 2 4) (load t23a [(0, [0x3]), (2, [0x5, 0x0]), (8, [0xF, 0xF, 0xF, 0xF])])) 8 4 =
    wroteC [0xE, 0, 0, 0] true := by decide +kernel
/-- Rule R112's example: 255^2 = 65025, all three extra-bit corrections fire. -/
theorem test_kmul_all_ones : shows (exec (.kmul 4 0 2) (load t23a [(0, [0xF, 0xF]), (2, [0xF, 0xF])])) 4 4 =
    wrote [0x1, 0x0, 0xE, 0xF] := by decide +kernel
/-- Section 4's two-level trace. -/
theorem test_kmul_two_levels : shows (exec (.kmul 8 0 0) (load t23b [(0, [3, 3, 3, 3])])) 8 8 =
    wrote [1, 0, 0, 0, 2, 3, 3, 3] := by decide +kernel
/-- Rule R124's generic example: t = 315 gives 13. -/
theorem test_mred_generic : shows (exec (.mred 4 0) (load t23a [(0, [0xB, 0x3, 0x1, 0x0])])) 4 2 = wrote [0xD, 0] := by
  decide +kernel
/-- Section 5.1: the largest legal t = R*p - 1 = 5887 gives 38. -/
theorem test_mred_largest : shows (exec (.mred 4 0) (load t23a [(0, [0xF, 0xF, 0x6, 0x1])])) 4 2 = wrote [0x6, 0x2] := by
  decide +kernel
/-- Rule R125: at t = R*p = 5888 the command completes, whatever the limbs, and makes a draw. -/
theorem test_mred_draw :
    (nextOf (exec (.mred 4 0) (load t23a [(0, [0x0, 0x0, 0x7, 0x1])]))).map (fun t => (t.reply, t.c, t.draws)) =
      some (.response .ok none, none, 1) := by rfl
/-- Section 5.2: 45 + 45 = 90, out of the redundant range and written exactly. -/
theorem test_fadd_unreduced : shows (exec (.fadd 4 0 2) (load t23a [(0, [0xD, 0x2]), (2, [0xD, 0x2])])) 4 2 =
    wrote [0xA, 0x5] := by decide +kernel
/-- Section 5.3: 200 + 200 = 400 = 144 mod 256, the carry is dropped. -/
theorem test_fadd_wraps : shows (exec (.fadd 4 0 0) (load t23a [(0, [0x8, 0xC])])) 4 2 = wrote [0x0, 0x9] := by
  decide +kernel
/-- Rule R132's example: 5 - 7 + 2p = 44. -/
theorem test_fsub_adds_2p : shows (exec (.fsub 4 0 2) (load t23a [(0, [0x5, 0x0]), (2, [0x7, 0x0])])) 4 2 =
    wrote [0xC, 0x2] := by decide +kernel
/-- Section 5.3: 0 - 255 gives 1 + 46 = 47. -/
theorem test_fsub_out_of_range : shows (exec (.fsub 4 0 2) (load t23a [(0, [0, 0]), (2, [0xF, 0xF])])) 4 2 =
    wrote [0xF, 0x2] := by decide +kernel
/-- Rule R133's examples: 5 gives 41, in place. -/
theorem test_fneg_in_place : shows (exec (.fneg 0) (load t23a [(0, [0x5, 0x0])])) 0 2 = wrote [0x9, 0x2] := by
  decide +kernel
/-- Rule R133: 0 gives 2p. -/
theorem test_fneg_zero : shows (exec (.fneg 0) (load t23a [(0, [0, 0])])) 0 2 = wrote [0xE, 0x2] := by decide +kernel
/-- Rule R134's example: 31 is odd, (31 + 23) / 2 = 27. -/
theorem test_fdiv2_odd : shows (exec (.fdiv2 4 0) (load t23a [(0, [0xF, 0x1])])) 4 2 = wrote [0xB, 0x1] := by
  decide +kernel
/-- Section 5.3: 255 + 23 loses its carry before the shift: 22 / 2 = 11. -/
theorem test_fdiv2_wraps : shows (exec (.fdiv2 4 0) (load t23a [(0, [0xF, 0xF])])) 4 2 = wrote [0xB, 0x0] := by
  decide +kernel
/-- Rule R135's example: 44 gives 21. -/
theorem test_fcorr_subtracts : shows (exec (.fcorr 0) (load t23a [(0, [0xC, 0x2])])) 0 2 = wrote [0x5, 0x1] := by
  decide +kernel
/-- Rule R135's example: 21 stays 21. -/
theorem test_fcorr_adds_back : shows (exec (.fcorr 0) (load t23a [(0, [0x5, 0x1])])) 0 2 = wrote [0x5, 0x1] := by
  decide +kernel
/-- Rule R136's example: 15 times 21 gives 13. -/
theorem test_fmul_example : shows (exec (.fmul 4 0 2) (load t23a [(0, [0xF, 0x0]), (2, [0x5, 0x1])])) 4 2 =
    wrote [0xD, 0x0] := by decide +kernel
/-- Section 5.3: 100 * 58 = 5800 < 5888 is still the defined value 32. -/
theorem test_fmul_below_bound : shows (exec (.fmul 4 0 2) (load t23a [(0, [0x4, 0x6]), (2, [0xA, 0x3])])) 4 2 =
    wrote [0x0, 0x2] := by decide +kernel
/-- Rule R137's example: 15 squared gives 6. -/
theorem test_fsqr_example : shows (exec (.fsqr 4 0) (load t23a [(0, [0xF, 0x0])])) 4 2 = wrote [0x6, 0x0] := by
  decide +kernel
/-- Section 5.2, T32: 2p - 1 squared gives 97677251. -/
theorem test_fsqr_largest : shows (exec (.fsqr 4 0) (load t32 [(0, [0xFD, 0xFF, 0x63, 0x0B])])) 4 4 =
    wrote [0xC3, 0x6F, 0xD2, 0x05] := by decide +kernel

/-! ### The step, rejections, faults and the host's ports -/

/-- 95_test_vectors.md section 7.1, row 1, through step: the printed word of FADD 4, 0, 2. -/
theorem test_step_issues_word :
    shows (step ((load t23a [(0, [0x5, 0x0]), (2, [0x7, 0x0])]).withFetchWord 64 0x0020000400000010)) 4 2 =
      wrote [0xC, 0x0] := by decide +kernel
/-- Rule R154's four examples, with N = 2. -/
theorem test_rejection_priority :
    ((nextOf (issue 0x0000000001000001#64 (load t23a []))).map (·.reply),
      (nextOf (exec (.add 1020 1020 1020 0) (load t23a []))).map (·.reply),
      (nextOf (exec (.add 1020 1020 1020 8) (load t23a []))).map (·.reply),
      (nextOf (exec (.add 8 8 16 4) (load t23a []))).map (·.reply)) =
    (some (.response .illegalOp none), some (.response .badShape none), some (.response .badAddr none),
      some (.response .badAlias none)) := by decide +kernel
/-- Rule R158: MAC with x = 0 still reads the whole accumulator. -/
theorem test_mac_reads_accumulator :
    faultOf (exec (.mac 8 0 2 1 3) (load t23a [(0, [0]), (2, [5]), (8, [1, 2])])) = some (.unwrittenCell 10) := by
  decide +kernel
/-- Section 8's host port outcomes: HREAD(4) and HREADC() in the start state are model faults, HREAD(1024) leaves the host stuck; and
rule R23: once an ADD has written C, HREADC returns it. -/
theorem test_host_ports :
    let s := load t23a [(0, [0xF, 0xF]), (2, [0x1, 0x0])]
    faultOf (hread 4 s) = some (.unwrittenCell 4) ∧ faultOf (hreadc s) = some .unwrittenFlag ∧
      faultOf (hread 1024 s) = some .stuckAddress ∧
      ((nextOf (exec (.add 4 0 2 2) s)).bind fun t => (nextOf (hreadc t)).map (·.reply)) = some (.flag true) := by
  decide +kernel
/-- Rule R42: bytes are little-endian within a limb and across limbs. -/
theorem test_mem_read : (nextOf (memRead 1 2 (load t32 [(0, [0x11, 0x22, 0x33])]))).map (·.reply) =
    some (.value 0x3322) := by decide +kernel
/-- Rule R42: a MemWrite to byte addresses 1 and 2. -/
theorem test_mem_write : (nextOf (memWrite 1 2 0xBBAA (load t32 [(0, [0x11, 0x22])]))).map (·.om) =
    some [(0, 0x11), (1, 0xAA), (2, 0xBB)] := by decide +kernel
/-- Section 2, T32: limb 2 of K.PP1, limb 0 of K.R2 and EA. -/
theorem test_hreadk : ((nextOf (hreadk 2 2 (load t32 []))).map (·.reply), (nextOf (hreadk 3 0 (load t32 []))).map (·.reply),
    (nextOf (hreadk 4 2 (load t32 []))).map (·.reply), faultOf (hreadk 4 4 (load t32 []))) =
    (some (.value 0xB2), some (.value 0x62), some (.value 17), some .stuckConstant) := by decide +kernel
/-- Section 2: K.NPRIME and Z of the three bundles. -/
theorem test_nprime : ((load t23a []).ps.nprime, (load t23b []).ps.nprime, (load t32 []).ps.nprime,
    (load t23a []).ps.z, (load t23b []).ps.z, (load t32 []).ps.z) = (9, 1, 1, 0, 1, 2) := by decide +kernel
/-- Rule R124's specialised example: t = 315 on T23B. -/
theorem test_mred_specialised : mredfSpecial (load t23b []).ps [3, 2, 3, 0, 1, 0, 0, 0] = ([1, 3, 0, 0], 0) := by
  decide +kernel
/-- Rule R170: a reset with another PSEL selects that bundle and makes everything unwritten. -/
theorem test_reset : (nextOf (resetEngine 2 (load t23a [(0, [1, 2])]))).map (fun t => (t.ps.info, t.om, t.c, t.reply)) =
    some (t32, [], none, .done) := by decide +kernel
/-- 93_implementation_defined.md U14: a bundle with p not prime, and one with 4p > R, is refused at configuration. -/
theorem test_reset_refuses : refusalOf (resetEngine 5 (load t23a [])) = some (.badBundle 5) ∧
    refusalOf (resetEngine 3 (load t23a [])) = some (.badBundle 3) := by decide +kernel
/-- Rule R12: the primes of both reference bundles pass the check; so do T32's and, by trial division, the small ones. -/
theorem test_primes : [ParamSet.P751, .P964, t32, t23a].all primeBundle = true ∧ primeBundle composite = false := by
  decide +kernel
/-- Section 6.1: limb 5 of P751's K.P, right after reset. -/
theorem test_reset_constants : State.reset.ps.P[5]? = some 0xEEAFFFFFFFFFFFFF ∧ State.reset.ps.PP1[4]? = some 0 := by
  decide +kernel

/-! ### Witnesses: for every statement with hypotheses, a state and operands that meet them, clause by clause -/

/-- Two written operands a = 5 at 0 and b = 7 at 2 of T23A, and 2p - 1 at 1022, the last place a buffer fits. -/
def two : State := load t23a [(0, [0x5, 0x0]), (2, [0x7, 0x0]), (1022, [0xD, 0x2])]
/-- Double-width numbers of T23A: R*p - 1 at 0 and R*p at 4, and the operand 255 at 8. -/
def wide : State := load t23a [(0, [0xF, 0xF, 0x6, 0x1]), (4, [0x0, 0x0, 0x7, 0x1]), (8, [0xF, 0xF])]

theorem witness_CommandWordIsFieldSum : Instr.wellFormed (.mac 1023 0 512 255 254) = true := by decide
theorem witness_DecodeOfEncodeIsIdentity : Instr.wellFormed (.add 1023 0 512 255) = true ∧
    Instr.wellFormed (.fneg 0) = true := by decide
theorem witness_EncodeOfDecodeIsIdentity : decode 0x0040000800080403#64 = .ok (.mac 8 0 4 4 8) := by decide
theorem witness_IllegalWordsAreRejected : decode 0x0000000600000114#64 = .error .illegalOp ∧
    decode 0x0040002001000401#64 = .error .illegalOp := by decide
theorem witness_OpcodeRowsAreExclusive : 0x0000000600000014#64 &&& Op.fcorr.format.mask = Op.fcorr.pattern := by decide
theorem witness_StepRunsTheDecodedCommand :
    (two.withFetchWord 64 0x0020000400000010).pending = .issue 0x0020000400000010#64 :: [] ∧
      decode 0x0020000400000010#64 = .ok (.fadd 4 0 2) := by decide +kernel
theorem witness_IdleStepChangesNothing : State.reset.pending = [] := rfl
theorem witness_LimbPortReadsAndWritesOneCell : 15 < 2 ^ two.ps.W ∧ 1023 < two.params.omLimbs ∧
    two.om.read 1023 = some 0x2 ∧ two.params.omLimbs ≤ 1024 := by decide +kernel
theorem witness_HostReadsHaveNoSideEffect :
    (∃ t, perform (.hread 1023) two = .next t) ∧ (∃ t, perform (.hreadk 4 3) two = .next t) ∧
    (∃ t, perform (.memRead 0 1) (load t32 [(0, [9])]) = .next t) ∧
    (∃ t, perform .hreadc { two with c := some true } = .next t) ∧ ({ two with c := some true } : State).c = some true :=
  ⟨⟨_, rfl⟩, ⟨_, rfl⟩, ⟨_, rfl⟩, ⟨_, rfl⟩, rfl⟩
/-- Bytes 2045 and 2046, the last of cell 1022 and the first of cell 1023, and the buffer of both cells. -/
theorem witness_ByteImageOfABufferIsItsValue :
    let s := load t16 [(1022, [0x1234, 0x5678])]
    (s.ps.W % 8 = 0 ∧ 1 ≤ 2 ∧ 2045 + 2 ≤ s.params.omLimbs * bytesPerLimb s.ps.W ∧
      ∀ j, j < 2 → s.om.read ((2045 + j) / bytesPerLimb s.ps.W) = some ([0x1234, 0x5678].getD j 0)) ∧
    s.wf = true ∧ 1022 + 2 ≤ s.params.omLimbs ∧ s.om.readMany 1022 2 = .ok [0x1234, 0x5678] := by
  decide +kernel
/-- MemWrite of bytes 1 to 4 of 16-bit limbs: cell 0 is written and half covered, cell 1 unwritten and covered, cell 2 unwritten
and half covered. -/
theorem witness_ByteWriteSetsExactlyItsBytes :
    let s := load t16 [(0, [0x1122])]
    s.wf = true ∧ s.ps.W % 8 = 0 ∧ 1 ≤ 4 ∧ 1 + 4 ≤ s.params.omLimbs * bytesPerLimb s.ps.W ∧
      ((s.om.read (1 / bytesPerLimb s.ps.W)).isSome = true ∧ s.om.readByte s.ps.W 1 = some 0x11) ∧
      (s.om.read (2 / bytesPerLimb s.ps.W) = none ∧ 1 ≤ 2 / bytesPerLimb s.ps.W * bytesPerLimb s.ps.W ∧
        2 / bytesPerLimb s.ps.W * bytesPerLimb s.ps.W + bytesPerLimb s.ps.W ≤ 1 + 4) ∧
      s.om.read (4 / bytesPerLimb s.ps.W) = none ∧
        1 + 4 < 4 / bytesPerLimb s.ps.W * bytesPerLimb s.ps.W + bytesPerLimb s.ps.W := by decide +kernel
theorem witness_BytePortStopsOutsideMemory : two.ps.W % 8 ≠ 0 ∧ (load t16 []).ps.W % 8 = 0 ∧
    (load t16 []).params.omLimbs * bytesPerLimb (load t16 []).ps.W < 2047 + 2 := by decide +kernel
theorem witness_ConstantTableHoldsTheBundle : (load t32 []).wf = true ∧ 3 ≤ 3 ∧ 3 < (load t32 []).ps.N ∧
    (load t32 []).ps.N ≤ 4 ∧ 1 < (load t32 []).ps.info.EA / (load t32 []).ps.W := by decide +kernel
theorem witness_OnlyResetWritesTheConstants : (∀ psel rest, State.reset.pending ≠ .reset psel :: rest) ∧
    ∃ t, step State.reset = .next t := ⟨fun _ _ => by simp [State.reset, State.afterReset], _, rfl⟩
theorem witness_ResetSelectsTheBundleAndClears : (two.params.sets[0]? = some t23a ∧ t23a.Valid two.params.omLimbs ∧
      two.ps = ConstBundle.ofParams t23a) ∧
    (two.params.sets[5]? = some composite ∧ ¬composite.Valid two.params.omLimbs) ∧ two.params.sets[6]? = none := by
  simp only [← validBundle_iff]
  decide +kernel
theorem witness_HeadroomIsEnforcedAndBoundsProducts : two.params.sets[3]? = some noHeadroom ∧
    noHeadroom.R < 4 * noHeadroom.p ∧ 2 ≤ t32.W ∧ 1 ≤ t32.N ∧ 1 ≤ t32.EA ∧ 4 * t32.p ≤ t32.R := by decide +kernel
theorem witness_AfterResetNothingIsWritten : 1023 < State.reset.params.omLimbs ∧ State.reset.ps.W % 8 = 0 ∧
    8191 + 1 ≤ State.reset.params.omLimbs * bytesPerLimb State.reset.ps.W ∧ State.reset.admission (.fneg 1012) = .ok ∧
    ∃ t, resetEngine 2 two = .next t :=
  ⟨by decide +kernel, by decide +kernel, by decide +kernel, by decide +kernel, _, rfl⟩
theorem witness_RejectionChangesNothing : two.responseCode 0x0000000000000000#64 ≠ .ok ∧
    two.responseCode 0x000003FF00000014#64 = .badAddr := by decide +kernel
theorem witness_AdmissionReportsTheFirstCause :
    shapeFits (.mac 4 0 2 2 2) = false ∧
    (shapeFits (.fcorr 1023) = true ∧ two.params.omLimbs < 1023 + two.ps.N) ∧
    (shapeFits (.fdiv2 1 0) = true ∧ two.admission (.fdiv2 1 0) = .badAlias) ∧
    shapeFits (.fdiv2 1022 0) = true ∧ two.admission (.fdiv2 1022 0) = .ok ∧ two.ps.N = 2 ∧
    two.params.omLimbs = 1024 ∧ decode 0x0000000001000001#64 = .error .illegalOp := by decide +kernel
theorem witness_ModelFaultsExactlyOnUnwrittenReads :
    exec (.fcorr 3) two = .fault (.unwrittenCell 4) ∧ two.admission (.fcorr 3) = .ok ∧ two.om.read 4 = none ∧
    ((load t16 [(0, [1])]).om.read ((1 + 1) / bytesPerLimb (load t16 []).ps.W) = none) ∧ two.c = none :=
  ⟨rfl, by decide +kernel, by decide +kernel, by decide +kernel, rfl⟩
theorem witness_AdmittedReadableCommandCompletes : two.admission (.fadd 4 0 2) = .ok ∧ two.readable (.fadd 4 0 2) := by
  refine ⟨by decide +kernel, fun x hx a ha => ?_⟩
  simp only [readBuffers, readOnlyBuffers, inPlace, Bool.false_eq_true, if_false, List.append_nil, List.mem_cons,
    List.not_mem_nil, or_false] at hx
  have hN : two.ps.N = 2 := rfl
  rcases hx with rfl | rfl <;> simp only [Buffer.contains, hN, Bool.and_eq_true, decide_eq_true_eq] at ha <;>
    obtain ⟨h1, h2⟩ := ha <;> interval_cases a <;> exact rfl
/-- An executed command, and a rejected one. -/
theorem witness_CommandsChangeOnlyTheirDestination : two.wf = true ∧ (∃ t, exec (.fneg 1022) two = .next t) ∧
    (∃ t, exec (.fneg 1023) two = .next t) ∧ two.admission (.fneg 1023) ≠ .ok :=
  ⟨by decide +kernel, ⟨_, rfl⟩, ⟨_, rfl⟩, by decide +kernel⟩
theorem witness_FlagIsWrittenOnlyByAddSubMacAndReset :
    (∃ t, step (two.withFetchWord 64 0x0020000400000201) = .next t ∧ t.c ≠ two.c) ∧
    ∃ t, step { two with c := some true, pending := [.reset 0] } = .next t ∧ t.c ≠ some true :=
  ⟨⟨_, rfl, by decide +kernel⟩, ⟨_, rfl, by decide +kernel⟩⟩
theorem witness_OutcomeDoesNotDependOnLimbValues :
    let s := load t23a [(0, [0x5, 0x0])]
    let s' := load t23a [(0, [0xF, 0xF])]
    s.wf = true ∧ s'.wf = true ∧ s.params = s'.params ∧ s.ps = s'.ps ∧
      (∀ a, (s.om.read a).isSome = (s'.om.read a).isSome) ∧ (∃ t, exec (.fsqr 2 0) s = .next t) ∧
      (writtenBuffer s.ps.N (.fsqr 2 0)).contains 3 = true ∧ (writtenBuffer s.ps.N (.fsqr 2 0)).contains 4 = false ∧
      ∃ t, exec (.fsqr 1023 0) s = .next t ∧ t.reply = .response .badAddr t.c := by
  refine ⟨by decide +kernel, by decide +kernel, rfl, rfl, fun a => ?_, ⟨_, rfl⟩, rfl, rfl, ⟨_, rfl, rfl⟩⟩
  simp only [load, List.foldl_cons, List.foldl_nil, Memory.read_writeMany, List.length_cons, List.length_nil]
  split
  · rename_i h
    have h' : a = 0 ∨ a = 1 := by omega
    rcases h' with rfl | rfl <;> rfl
  · rfl
theorem witness_DurationDoesNotDependOnData : opField 0x0020000400000010#64 = opField 0x0020000A00000010#64 ∧
    (fieldsOf 0x0020000400000010#64).la = (fieldsOf 0x0020000A00000010#64).la ∧
    (fieldsOf 0x0020000400000010#64).lb = (fieldsOf 0x0020000A00000010#64).lb ∧
    two.responseCode 0x0020000400000010#64 = wide.responseCode 0x0020000A00000010#64 ∧ two.ps = wide.ps := by
  decide +kernel
theorem witness_StepKeepsTheStateWellFormed : (two.withFetchWord 64 0x0020000400000010).wf = true ∧
    ∃ t, step (two.withFetchWord 64 0x0020000400000010) = .next t := ⟨by decide +kernel, _, rfl⟩
theorem witness_NprimeIsTheNegatedInverse : two.wf = true ∧ (load t23b []).wf = true ∧
    (load t23b []).ps.W ≤ (load t23b []).ps.info.EA := by decide +kernel
theorem witness_SchoolbookProductIsExact : [0xF, 0xF].length = [0x1, 0x0].length ∧ LimbsFit 4 [0xF, 0xF] ∧
    LimbsFit 4 [0x1, 0x0] := by decide
theorem witness_KaratsubaProductIsExact : 2 ≤ 2 ∧ 1 ≤ [3].length ∧ [3].length = [2].length ∧ LimbsFit 2 [3] ∧
    LimbsFit 2 [2] := by decide
theorem witness_KaratsubaMatchesSchoolbook : 2 ≤ 2 ∧ 1 ≤ [3, 3, 3, 3].length ∧
    [3, 3, 3, 3].length = [2, 0, 1, 3].length ∧ LimbsFit 2 [3, 3, 3, 3] ∧ LimbsFit 2 [2, 0, 1, 3] := by decide
/-- t = R*p - 1, the largest below the bound. -/
theorem witness_ReducerReturnsTheMontgomeryQuotient : wide.wf = true ∧ [0xF, 0xF, 0x6, 0x1].length = 2 * wide.ps.N ∧
    LimbsFit wide.ps.W [0xF, 0xF, 0x6, 0x1] ∧ 1 < wide.ps.N ∧
    val wide.ps.W [0xF, 0xF, 0x6, 0x1] < wide.ps.R * wide.ps.p := by
  decide +kernel
theorem witness_SpecialisedReducerAgrees : (load t23b []).wf = true ∧ (load t23b []).ps.W ≤ (load t23b []).ps.info.EA ∧
    [3, 2, 3, 0, 1, 0, 0, 0].length = 2 * (load t23b []).ps.N ∧ LimbsFit (load t23b []).ps.W [3, 2, 3, 0, 1, 0, 0, 0] := by
  decide +kernel

/-- The word fields at their bounds, then a length of zero, a destination past the end, an overlap, and the last destination
that fits. -/
theorem witness_AddWritesSumAndCarry : two.wf = true ∧ (1023 < 1024 ∧ 255 < 256) ∧ 0 = 0 ∧
    (1 ≤ 2 ∧ two.params.omLimbs < 1023 + 2) ∧
    (1 ≤ 2 ∧ 0 + 2 ≤ two.params.omLimbs ∧ 2 + 2 ≤ two.params.omLimbs ∧ 1022 + 2 ≤ two.params.omLimbs) ∧
    (1 < 0 + 2 ∧ 0 < 1 + 2) ∧ ¬(1022 < 0 + 2 ∧ 0 < 1022 + 2) ∧ ¬(1022 < 2 + 2 ∧ 2 < 1022 + 2) ∧
    two.om.readMany 0 2 = .ok [0x5, 0x0] ∧ two.om.readMany 2 2 = .ok [0x7, 0x0] := by decide +kernel
theorem witness_SubWritesDifferenceAndBorrow : two.wf = true ∧ (1023 < 1024 ∧ 255 < 256) ∧ 0 = 0 ∧
    (1 ≤ 2 ∧ two.params.omLimbs < 1023 + 2) ∧
    (1 ≤ 2 ∧ 0 + 2 ≤ two.params.omLimbs ∧ 1022 + 2 ≤ two.params.omLimbs ∧ 4 + 2 ≤ two.params.omLimbs) ∧
    (1 < 0 + 2 ∧ 0 < 1 + 2) ∧ ¬(4 < 0 + 2 ∧ 0 < 4 + 2) ∧ ¬(4 < 1022 + 2 ∧ 1022 < 4 + 2) ∧
    two.om.readMany 0 2 = .ok [0x5, 0x0] ∧ two.om.readMany 1022 2 = .ok [0xD, 0x2] := by decide +kernel
theorem witness_MacAccumulatesTheRow : two.wf = true ∧ (1023 < 1024 ∧ 255 < 256) ∧ 2 ≤ 2 ∧
    (1 ≤ 1 ∧ 1 < 2 ∧ two.params.omLimbs < 1023 + 2) ∧
    (0 + 1 ≤ two.params.omLimbs ∧ 2 + 1 ≤ two.params.omLimbs ∧ 1022 + 2 ≤ two.params.omLimbs) ∧
    (0 < 0 + 1 ∧ 0 < 0 + 2) ∧ two.om.read (4 + 1) = none ∧ ¬(1022 < 0 + 1 ∧ 0 < 1022 + 2) ∧ ¬(1022 < 2 + 1 ∧ 2 < 1022 + 2) ∧
    two.om.read 0 = some 0x5 ∧ two.om.readMany 2 1 = .ok [0x7] ∧ two.om.readMany 1022 2 = .ok [0xD, 0x2] := by
  decide +kernel
theorem witness_KmulWritesTheExactProduct : two.wf = true ∧ 1023 < 1024 ∧ two.params.omLimbs < 1021 + 2 * two.ps.N ∧
    (0 + two.ps.N ≤ two.params.omLimbs ∧ 1022 + two.ps.N ≤ two.params.omLimbs ∧
      1020 + 2 * two.ps.N ≤ two.params.omLimbs) ∧
    (1020 < 1022 + two.ps.N ∧ 1022 < 1020 + 2 * two.ps.N) ∧ ¬(4 < 0 + two.ps.N ∧ 0 < 4 + 2 * two.ps.N) ∧
    ¬(4 < 1022 + two.ps.N ∧ 1022 < 4 + 2 * two.ps.N) ∧
    two.om.readMany 0 two.ps.N = .ok [0x5, 0x0] ∧ two.om.readMany 1022 two.ps.N = .ok [0xD, 0x2] := by decide +kernel
/-- R*p - 1 = 5887 at 0 falls under the defined clause, R*p = 5888 at 4 under the draw clause. -/
theorem witness_MredWritesTheReduction : wide.wf = true ∧ 1023 < 1024 ∧ wide.params.omLimbs < 1023 + wide.ps.N ∧
    (4 + 2 * wide.ps.N ≤ wide.params.omLimbs ∧ 1022 + wide.ps.N ≤ wide.params.omLimbs) ∧
    (7 < 4 + 2 * wide.ps.N ∧ 4 < 7 + wide.ps.N) ∧ ¬(1022 < 4 + 2 * wide.ps.N ∧ 4 < 1022 + wide.ps.N) ∧
    ¬(1022 < 0 + 2 * wide.ps.N ∧ 0 < 1022 + wide.ps.N) ∧
    (wide.om.readMany 0 (2 * wide.ps.N) = .ok [0xF, 0xF, 0x6, 0x1] ∧
      val wide.ps.W [0xF, 0xF, 0x6, 0x1] < wide.ps.R * wide.ps.p) ∧
    wide.om.readMany 4 (2 * wide.ps.N) = .ok [0x0, 0x0, 0x7, 0x1] ∧
      wide.ps.R * wide.ps.p ≤ val wide.ps.W [0x0, 0x0, 0x7, 0x1] := by decide +kernel
/-- The hypotheses the three-buffer field operations share, with both operands Field Elements, one of them 2p - 1. -/
theorem witness_three_buffers : two.wf = true ∧ 1023 < 1024 ∧ two.params.omLimbs < 1023 + two.ps.N ∧
    (0 + two.ps.N ≤ two.params.omLimbs ∧ 1022 + two.ps.N ≤ two.params.omLimbs ∧ 4 + two.ps.N ≤ two.params.omLimbs) ∧
    (1 < 0 + two.ps.N ∧ 0 < 1 + two.ps.N) ∧ ¬(4 < 0 + two.ps.N ∧ 0 < 4 + two.ps.N) ∧
    ¬(4 < 1022 + two.ps.N ∧ 1022 < 4 + two.ps.N) ∧ two.om.readMany 0 two.ps.N = .ok [0x5, 0x0] ∧
    two.om.readMany 1022 two.ps.N = .ok [0xD, 0x2] := by decide +kernel
theorem witness_field_elements : FieldElement two.ps [0x5, 0x0] ∧ FieldElement two.ps [0xD, 0x2] ∧
    Canonical two.ps [0x6, 0x1] ∧ val two.ps.W [0x6, 0x1] + 1 = two.ps.p :=
  ⟨⟨rfl, by decide +kernel, by decide +kernel⟩, ⟨rfl, by decide +kernel, by decide +kernel⟩,
    ⟨rfl, by decide +kernel, by decide +kernel⟩, by decide +kernel⟩
theorem witness_FaddWritesTheSum : two.wf = true ∧ two.om.readMany 0 two.ps.N = .ok [0x5, 0x0] ∧
    two.om.readMany 1022 two.ps.N = .ok [0xD, 0x2] ∧ FieldElement two.ps [0x5, 0x0] ∧ FieldElement two.ps [0xD, 0x2] :=
  ⟨witness_three_buffers.1, by decide +kernel, by decide +kernel, witness_field_elements.1, witness_field_elements.2.1⟩
/-- a = 5 is below b = 2p - 1 and the other way about. -/
theorem witness_FsubWritesTheDifference : two.wf = true ∧ val two.ps.W [0x5, 0x0] < val two.ps.W [0xD, 0x2] ∧
    val two.ps.W [0x5, 0x0] ≤ val two.ps.W [0xD, 0x2] ∧ two.om.readMany 1022 two.ps.N = .ok [0xD, 0x2] ∧
    FieldElement two.ps [0x5, 0x0] ∧ FieldElement two.ps [0xD, 0x2] :=
  ⟨witness_three_buffers.1, by decide +kernel, by decide +kernel, by decide +kernel, witness_field_elements.1,
    witness_field_elements.2.1⟩
theorem witness_FnegWritesTwoPMinusA : two.wf = true ∧ two.params.omLimbs < 1023 + two.ps.N ∧
    1022 + two.ps.N ≤ two.params.omLimbs ∧ two.om.readMany 1022 two.ps.N = .ok [0xD, 0x2] ∧
    FieldElement two.ps [0xD, 0x2] :=
  ⟨by decide +kernel, by decide +kernel, by decide +kernel, by decide +kernel, witness_field_elements.2.1⟩
/-- 2p - 1 is odd; 12 is even. -/
theorem witness_Fdiv2WritesTheHalf : two.wf = true ∧ two.params.omLimbs < 1023 + two.ps.N ∧
    (1022 + two.ps.N ≤ two.params.omLimbs ∧ 4 + two.ps.N ≤ two.params.omLimbs) ∧
    (1 < 0 + two.ps.N ∧ 0 < 1 + two.ps.N) ∧ ¬(4 < 1022 + two.ps.N ∧ 1022 < 4 + two.ps.N) ∧
    two.om.readMany 1022 two.ps.N = .ok [0xD, 0x2] ∧ val two.ps.W [0xD, 0x2] % 2 = 1 ∧ val two.ps.W [0xC, 0x0] % 2 = 0 ∧
    FieldElement two.ps [0xD, 0x2] :=
  ⟨by decide +kernel, by decide +kernel, by decide +kernel, by decide +kernel, by decide +kernel, by decide +kernel,
    by decide +kernel, by decide +kernel, witness_field_elements.2.1⟩
/-- p - 1 and p, on either side of the two clauses. -/
theorem witness_FcorrWritesTheCanonicalValue :
    let s := load t23a [(0, [0x6, 0x1]), (1022, [0x7, 0x1])]
    s.wf = true ∧ s.params.omLimbs < 1023 + s.ps.N ∧ 1022 + s.ps.N ≤ s.params.omLimbs ∧
      s.om.readMany 0 s.ps.N = .ok [0x6, 0x1] ∧ s.om.readMany 1022 s.ps.N = .ok [0x7, 0x1] ∧
      val s.ps.W [0x6, 0x1] < s.ps.p ∧ s.ps.p ≤ val s.ps.W [0x7, 0x1] := by decide +kernel
/-- Field Elements, and 255 by 255, whose product reaches R*p. -/
theorem witness_FmulWritesTheReducedProduct : two.wf = true ∧ two.om.readMany 0 two.ps.N = .ok [0x5, 0x0] ∧
    two.om.readMany 1022 two.ps.N = .ok [0xD, 0x2] ∧
    val two.ps.W [0x5, 0x0] * val two.ps.W [0xD, 0x2] < two.ps.R * two.ps.p ∧
    wide.wf = true ∧ wide.om.readMany 8 wide.ps.N = .ok [0xF, 0xF] ∧
    wide.ps.R * wide.ps.p ≤ val wide.ps.W [0xF, 0xF] * val wide.ps.W [0xF, 0xF] := by decide +kernel
theorem witness_FsqrWritesTheReducedSquare : two.wf = true ∧ two.om.readMany 1022 two.ps.N = .ok [0xD, 0x2] ∧
    two.params.omLimbs < 1023 + two.ps.N ∧ ¬(4 < 1022 + two.ps.N ∧ 1022 < 4 + two.ps.N) ∧
    val two.ps.W [0xD, 0x2] * val two.ps.W [0xD, 0x2] < two.ps.R * two.ps.p ∧
    wide.wf = true ∧ wide.om.readMany 8 wide.ps.N = .ok [0xF, 0xF] ∧
    wide.ps.R * wide.ps.p ≤ val wide.ps.W [0xF, 0xF] * val wide.ps.W [0xF, 0xF] := by decide +kernel
theorem witness_CorrectionOfASumIsTheSumModP : two.wf = true ∧ Canonical two.ps [0x6, 0x1] :=
  ⟨by decide +kernel, witness_field_elements.2.2.1⟩
theorem witness_CorrectionIsIdempotentAndCanonical : two.wf = true ∧ FieldElement two.ps [0xD, 0x2] :=
  ⟨by decide +kernel, witness_field_elements.2.1⟩
theorem witness_MontgomeryMultiplicationIsModularMultiplication : two.wf = true ∧ 5 < two.ps.p ∧ 22 < two.ps.p := by
  decide +kernel
theorem witness_ConversionsMultiplyByRAndItsInverse : two.wf = true ∧ FieldElement two.ps [0xD, 0x2] :=
  ⟨by decide +kernel, witness_field_elements.2.1⟩

end Sys2Proof.Tests
end

section
/-! PROOFS. The scope's parameters (00_scope.md): the headroom constraint 4p <= R of rule R11. -/

namespace Sys2Proof

theorem ParamSet.p_pos {q : ParamSet} (hEA : 1 ≤ q.EA) : 0 < q.p := by
  have h2 : 2 ^ 1 ≤ 2 ^ q.EA := Nat.pow_le_pow_right (by omega) hEA
  have h3 : 1 ≤ 3 ^ q.EB := Nat.one_le_pow _ _ (by omega)
  have h := Nat.mul_le_mul h2 h3
  unfold ParamSet.p
  omega

/-- An array holds at least two bits, so the Montgomery radix has no remainder modulo 4. -/
theorem ParamSet.four_dvd_R {q : ParamSet} (hW : 2 ≤ q.W) (hN : 1 ≤ q.N) : 4 ∣ q.R :=
  pow_dvd_pow 2 (Nat.mul_le_mul hW hN)

/-- 4p - 2, the double of the largest Field Element, lies within 2 of 4p, and no multiple of 4 lies between them. -/
theorem ParamSet.headroom_iff {q : ParamSet} (hW : 2 ≤ q.W) (hN : 1 ≤ q.N) (hEA : 1 ≤ q.EA) :
    4 * q.p ≤ q.R ↔ 4 * q.p - 2 < q.R := by
  have hp := ParamSet.p_pos hEA
  have hR := ParamSet.four_dvd_R hW hN
  omega

theorem ParamSet.sq_maxFieldElement_lt {q : ParamSet} (hEA : 1 ≤ q.EA) (hroom : 4 * q.p ≤ q.R) :
    (2 * q.p - 1) ^ 2 < q.R * q.p := by
  have hp := ParamSet.p_pos hEA
  calc (2 * q.p - 1) ^ 2 < (2 * q.p) ^ 2 := Nat.pow_lt_pow_left (by omega) (by omega)
    _ = 4 * q.p * q.p := by ring
    _ ≤ q.R * q.p := Nat.mul_le_mul_right _ hroom

namespace Machine

theorem headroom_of_valid {q : ParamSet} {n : Nat} (h : q.Valid n) : 4 * q.p ≤ q.R := by
  obtain ⟨-, -, -, -, hroom, -, -⟩ := (ParamSet.admissible_iff q n).mp h.1
  exact hroom

theorem resetEngine_of_not_valid {psel : Nat} {s : State} {q : ParamSet} (hq : s.params.sets[psel]? = some q)
    (hv : ¬q.Valid s.params.omLimbs) : resetEngine psel s = .refused (.badBundle psel) := by
  rw [← validBundle_iff] at hv
  simp [resetEngine, hq, hv]

/-- Settles O17: a bundle with 4p > R is not valid; the equivalence is divisibility of R by 4; the product bound compares
(2p-1)^2 with (2p)^2 = 4p * p. -/
theorem headroomIsEnforcedAndBoundsProducts : Obligations.HeadroomIsEnforcedAndBoundsProducts := by
  refine ⟨fun s psel q hq hR => resetEngine_of_not_valid hq fun hv => ?_, fun q hW hN hEA => ⟨?_, ?_⟩⟩
  · exact absurd (headroom_of_valid hv) (by omega)
  · exact ParamSet.headroom_iff hW hN hEA
  · exact ParamSet.sq_maxFieldElement_lt hEA

end Machine
end Sys2Proof
end

section
/-! PROOFS. What one step of the machine can do (30_encoding.md rule R76), said once, and the three statements about every
step that follow from it: who writes the constants (10_state.md rule R24), who writes the flag (rule R23), and that the state
stays well-formed (rules R24, R25, R30, 00_scope.md rule R13). -/

namespace Sys2Proof

/-- The action is one of the four read ports of rule R76. -/
def HostAction.isRead : HostAction → Bool
  | .hread _ | .memRead _ _ | .hreadc | .hreadk _ _ => true
  | .issue _ | .hwrite _ _ | .memWrite _ _ _ | .reset _ => false

theorem HostAction.isRead_iff (a : HostAction) :
    a.isRead = true ↔ (∃ x, a = .hread x) ∨ (∃ b n, a = .memRead b n) ∨ a = .hreadc ∨ ∃ k i, a = .hreadk k i := by
  cases a <;> simp [HostAction.isRead]

namespace Machine

/-- Everything an action of the host can do when it answers a next state: a command is rejected or executed, a write port stores,
a read port answers, or a reset selects a valid bundle of the list. -/
inductive Performed (s : State) : HostAction → State → Prop
  | rejected {w : BitVec 64} (hc : s.responseCode w ≠ .ok) : Performed s (.issue w) (s.respond (s.responseCode w))
  | executed {w : BitVec 64} {i : Instr} {t : State} (hw : decode w = .ok i) (ha : s.admission i = .ok)
      (he : Executed i s t) : Performed s (.issue w) t
  | limbWritten {a v : Nat} (ha : a < s.params.omLimbs) :
      Performed s (.hwrite a v) (({ s with om := s.om.write a (v % 2 ^ s.ps.W) }).answer .done)
  | bytesWritten {b n v : Nat} (hW : s.ps.W % 8 = 0) (hb : b + n ≤ s.params.omLimbs * bytesPerLimb s.ps.W) :
      Performed s (.memWrite b n v) (({ s with om := s.om.writeBytes s.ps.W b n v }).answer .done)
  | read {a : HostAction} {r : Reply} (ha : a.isRead = true) : Performed s a (s.answer r)
  | reset {psel : Nat} {q : ParamSet} (hq : s.params.sets[psel]? = some q) (hv : validBundle q s.params.omLimbs = true) :
      Performed s (.reset psel) (({ s with ps := ConstBundle.ofParams q, om := [], c := none }).answer .done)

theorem performed_issue {w : BitVec 64} {s t : State} (h : issue w s = .next t) : Performed s (.issue w) t := by
  obtain ⟨code, hw, rfl⟩ | ⟨i, hw, hi⟩ := issue_next h
  · have hc : s.responseCode w = code := by simp [State.responseCode, hw]
    obtain ⟨hcode, -⟩ := decode_eq_error_iff.mp hw
    exact hc ▸ .rejected (by simp [hc, hcode])
  · have hc : s.responseCode w = s.admission i := by simp [State.responseCode, hw]
    obtain ⟨ha, rfl⟩ | ⟨ha, he⟩ := exec_next hi
    · exact hc ▸ .rejected (hc ▸ ha)
    · exact .executed hw ha he

theorem performed_read {a : HostAction} {s t : State} (ha : a.isRead = true) (h : perform a s = .next t) :
    Performed s a t := by
  obtain ⟨r, rfl⟩ := hostRead_next (a.isRead_iff.mp ha) h
  exact .read ha

/-- The inversion of `perform`. -/
theorem performed_of_next {a : HostAction} {s t : State} (h : perform a s = .next t) : Performed s a t := by
  cases a with
  | issue w => exact performed_issue h
  | hwrite a v =>
    obtain ⟨ha, rfl⟩ := hwrite_next h
    exact .limbWritten ha
  | memWrite b n v =>
    obtain ⟨hW, hb, rfl⟩ := memWrite_next h
    exact .bytesWritten hW hb
  | hread | memRead | hreadc | hreadk => exact performed_read rfl h
  | reset psel =>
    obtain ⟨q, hq, hv, rfl⟩ := resetEngine_next h
    exact .reset hq hv

/-- The inversion of `step`. -/
theorem step_performed {s t : State} (h : step s = .next t) :
    (s.pending = [] ∧ t = s) ∨ ∃ a rest, s.pending = a :: rest ∧ Performed { s with pending := rest } a t := by
  obtain hidle | ⟨a, rest, hp, h⟩ := step_next h
  · exact .inl hidle
  · exact .inr ⟨a, rest, hp, performed_of_next h⟩

theorem step_of_pending_nil {s : State} (h : s.pending = []) : step s = .next s := by simp [step, h]

/-- Settles O8: `step` on an empty list of pending actions. -/
theorem idleStepChangesNothing : Obligations.IdleStepChangesNothing := fun _ => step_of_pending_nil

theorem Performed.params {s t : State} {a : HostAction} (h : Performed s a t) : t.params = s.params := by
  cases h with
  | executed _ _ he => exact he.params
  | rejected | limbWritten | bytesWritten | read | reset => rfl

theorem Performed.ps {s t : State} {a : HostAction} (h : Performed s a t) (ha : ∀ psel, a ≠ .reset psel) :
    t.ps = s.ps := by
  cases h with
  | executed _ _ he => exact he.ps
  | rejected | limbWritten | bytesWritten | read => rfl
  | reset => exact absurd rfl (ha _)

/-- Settles O15, from what an action that is no reset leaves alone. -/
theorem onlyResetWritesTheConstants : Obligations.OnlyResetWritesTheConstants := by
  intro s t hreset h
  obtain ⟨-, rfl⟩ | ⟨a, rest, hp, h⟩ := step_performed h
  · exact ⟨rfl, rfl⟩
  · exact ⟨h.ps fun psel ha => hreset psel rest (ha ▸ hp), h.params⟩

theorem writesFlag_iff (i : Instr) :
    writesFlag i = true ↔ (∃ dst src1 src2 len, i = .add dst src1 src2 len) ∨
      (∃ dst src1 src2 len, i = .sub dst src1 src2 len) ∨ ∃ acc x y k m, i = .mac acc x y k m := by
  cases i <;> simp [writesFlag]

theorem Performed.flag {s t : State} {a : HostAction} (h : Performed s a t) (hc : t.c ≠ s.c) :
    (∃ w i, a = .issue w ∧ decode w = .ok i ∧ writesFlag i = true) ∨ ∃ psel, a = .reset psel := by
  cases h with
  | @executed w i _ hw _ he => exact .inl ⟨w, i, rfl, hw, by_contra fun hf => hc (he.flag (by simpa using hf))⟩
  | reset => exact .inr ⟨_, rfl⟩
  | rejected | limbWritten | bytesWritten | read => exact absurd rfl hc

/-- Settles O24: of the cases of a performed action, only an executed command that writes the flag and a reset change C. -/
theorem flagIsWrittenOnlyByAddSubMacAndReset : Obligations.FlagIsWrittenOnlyByAddSubMacAndReset := by
  intro s t h hc
  obtain ⟨-, rfl⟩ | ⟨a, rest, hp, h⟩ := step_performed h
  · exact absurd rfl hc
  · obtain ⟨w, i, rfl, hw, hf⟩ | ⟨psel, rfl⟩ := h.flag hc
    · exact .inl ⟨w, rest, i, hp, hw, (writesFlag_iff i).mp hf⟩
    · exact .inr ⟨psel, rest, hp⟩

/-- A step that leaves the parameters and PS alone has only the memory to keep well-formed. -/
theorem State.wf_of_memory {s t : State} (hs : s.wf = true) (hparams : t.params = s.params) (hps : t.ps = s.ps)
    (hom : t.om.wf = true ∧ t.om.fits s.params.omLimbs s.ps.W = true) : t.wf = true := by
  obtain ⟨-, -, hready⟩ := s.wf_iff.mp hs
  refine t.wf_iff.mpr ⟨hom.1, by rw [hparams, hps, hom.2], ?_⟩
  rw [State.bundleReady_iff] at hready ⊢
  rwa [hparams, hps]

theorem State.valid_of_bundleReady {s : State} (h : s.bundleReady = true) :
    s.ps = ConstBundle.ofParams s.ps.info ∧ s.ps.info.Valid s.params.omLimbs := by
  obtain ⟨q, -, hv, hq⟩ := s.bundleReady_iff.mp h
  rw [hq]
  exact ⟨rfl, (validBundle_iff q _).mp hv⟩

theorem State.admissible_of_wf {s : State} (h : s.wf = true) : s.ps.info.admissible s.params.omLimbs = true := by
  obtain ⟨-, -, hready⟩ := s.wf_iff.mp h
  exact (State.valid_of_bundleReady hready).2.1

/-- The limbs of an executed command are W bits wide and as many as its admitted written buffer has cells. -/
theorem Executed.wf {i : Instr} {s t : State} (he : Executed i s t) (ha : s.admission i = .ok) (hs : s.wf = true) :
    t.wf = true := by
  obtain ⟨hm, hf, hready⟩ := s.wf_iff.mp hs
  obtain ⟨xs, hom, hlen, hfit⟩ := he.memory
  have hlen := hlen (State.bundle_sized hready)
  have hfit := hfit fun e h => ((Memory.fits_iff _ _ _).mp hf e h).2
  refine State.wf_of_memory hs he.params he.ps ?_
  rw [hom]
  exact ⟨Memory.writeMany_wf _ _ hm, Memory.writeMany_fits hf (hlen ▸ written_inside ha) hfit⟩

theorem Performed.wf {s t : State} {a : HostAction} (h : Performed s a t) (hs : s.wf = true) : t.wf = true := by
  obtain ⟨hm, hf, -⟩ := s.wf_iff.mp hs
  cases h with
  | rejected | read => exact hs
  | executed _ ha he => exact he.wf ha hs
  | limbWritten ha =>
    exact State.wf_of_memory hs rfl rfl
      ⟨Memory.write_wf _ _ hm, Memory.write_fits hf ha (Nat.mod_lt _ (Nat.two_pow_pos _))⟩
  | bytesWritten hW hb =>
    have hW2 : 2 ≤ s.ps.W := ((ParamSet.admissible_iff _ _).mp (State.admissible_of_wf hs)).1
    exact State.wf_of_memory hs rfl rfl (Memory.writeBytes_keeps hW (by omega) hm hf hb)
  | reset hq hv =>
    exact (State.wf_iff _).mpr ⟨rfl, rfl, (State.bundleReady_iff _).mpr ⟨_, List.mem_of_getElem? hq, hv, rfl⟩⟩

/-- Settles O27: every case of a performed action keeps the canonical form, the bounds and the bundle. -/
theorem stepKeepsTheStateWellFormed : Obligations.StepKeepsTheStateWellFormed := by
  intro s t hs h
  obtain ⟨-, rfl⟩ | ⟨a, rest, -, h⟩ := step_performed h
  · exact hs
  · exact h.wf hs

end Machine
end Sys2Proof
end

section
/-! PROOFS. The constant table of a well-formed state (10_state.md rule R24, 30_encoding.md rule R76): the four arrays hold
numbers below R, so their values are those numbers, and HREADK reads their limbs. -/

namespace Sys2Proof

/-- The prime is one below a power of two times a power of three (00_scope.md rule R10). -/
theorem ParamSet.p_add_one (q : ParamSet) : q.p + 1 = 2 ^ q.EA * 3 ^ q.EB :=
  Nat.sub_add_cancel (Nat.mul_pos (Nat.two_pow_pos _) (Nat.pow_pos (by omega)))

namespace Machine

theorem toLimbs_getElem? {W n v i : Nat} (h : i < n) : (toLimbs W n v)[i]? = some (v / 2 ^ (W * i) % 2 ^ W) := by
  induction n generalizing v i with
  | zero => omega
  | succ n ih =>
    cases i with
    | zero => simp [toLimbs]
    | succ i =>
      rw [toLimbs, List.getElem?_cons_succ, ih (by omega), Nat.div_div_eq_div_mul, ← pow_add, mul_add, mul_one, add_comm W]

theorem val_toLimbs_of_lt {W n v : Nat} (h : v < 2 ^ (W * n)) : val W (toLimbs W n v) = v := by
  rw [val_toLimbs, Nat.mod_eq_of_lt h]

/-- The headroom of rule R11 puts the four constants in reach of N limbs. -/
theorem ConstBundle.ofParams_val {q : ParamSet} {n : Nat} (h : q.admissible n = true) :
    val q.W (ConstBundle.ofParams q).P = q.p ∧ val q.W (ConstBundle.ofParams q).P2 = 2 * q.p ∧
      val q.W (ConstBundle.ofParams q).PP1 = q.p + 1 ∧ val q.W (ConstBundle.ofParams q).R2 = q.R ^ 2 % q.p := by
  obtain ⟨-, -, -, hp, hroom, -, -⟩ := (ParamSet.admissible_iff q n).mp h
  have hlt : ∀ v, v < q.R → val q.W (toLimbs q.W q.N v) = v := fun _ => val_toLimbs_of_lt
  have hmod := Nat.mod_lt (q.R * q.R) (show 0 < q.p by omega)
  exact ⟨hlt _ (by omega), hlt _ (by omega), hlt _ (by omega), by rw [sq]; exact hlt _ (by omega)⟩

/-- 2^EA divides p + 1, and the low EA / W limbs lie below bit EA. -/
theorem ConstBundle.ofParams_PP1_low {q : ParamSet} {n i : Nat} (h : q.admissible n = true) (hi : i < q.EA / q.W) :
    (ConstBundle.ofParams q).PP1[i]? = some 0 := by
  obtain ⟨hW, -, -, hp, hroom, -, -⟩ := (ParamSet.admissible_iff q n).mp h
  have hEA : q.W * i + q.W ≤ q.EA := by
    have := (Nat.le_div_iff_mul_le (by omega)).mp (Nat.succ_le_of_lt hi)
    rwa [Nat.succ_mul, mul_comm] at this
  have hdvd : 2 ^ (q.W * i + q.W) ∣ q.p + 1 := by
    rw [q.p_add_one]
    exact (pow_dvd_pow 2 hEA).mul_right _
  have hN : i < q.N := by
    have hle : 2 ^ (q.W * i + q.W) < 2 ^ (q.W * q.N) :=
      (Nat.le_of_dvd (by omega) hdvd).trans_lt (show q.p + 1 < q.R by omega)
    have := (Nat.pow_lt_pow_iff_right (by omega)).mp hle
    exact Nat.lt_of_mul_lt_mul_left (a := q.W) (by omega)
  rw [ConstBundle.ofParams, toLimbs_getElem? hN, Nat.mod_eq_zero_of_dvd (Nat.dvd_div_of_mul_dvd (by rwa [← pow_add]))]

/-- The first four rows of the table are the constant arrays. -/
theorem ConstBundle.constant_array (b : ConstBundle) {k : Nat} (i : Nat) (hk : k ≤ 3) :
    b.constant k i = [b.P, b.P2, b.PP1, b.R2][k]? >>= (fun xs => xs[i]?) := by
  interval_cases k <;> rfl

/-- The rows of the table are arrays of N W-bit limbs. -/
theorem ConstBundle.ofParams_array (q : ParamSet) {k : Nat} (hk : k ≤ 3) :
    ∃ v, [(ConstBundle.ofParams q).P, (ConstBundle.ofParams q).P2, (ConstBundle.ofParams q).PP1,
      (ConstBundle.ofParams q).R2][k]? = some (toLimbs q.W q.N v) := by
  interval_cases k <;> exact ⟨_, rfl⟩

theorem ConstBundle.ofParams_constant {q : ParamSet} {k i : Nat} (hk : k ≤ 3) (hi : i < q.N) :
    ∃ x, x < 2 ^ q.W ∧ (ConstBundle.ofParams q).constant k i = some x := by
  obtain ⟨v, hv⟩ := ConstBundle.ofParams_array q hk
  refine ⟨v / 2 ^ (q.W * i) % 2 ^ q.W, Nat.mod_lt _ (Nat.two_pow_pos _), ?_⟩
  rw [ConstBundle.constant_array _ i hk, hv]
  exact toLimbs_getElem? hi

/-- Outside the table there is no constant. -/
theorem ConstBundle.ofParams_constant_none {q : ParamSet} {k i : Nat} (h : (k ≤ 3 ∧ q.N ≤ i) ∨ (k = 4 ∧ 4 ≤ i) ∨ 5 ≤ k) :
    (ConstBundle.ofParams q).constant k i = none := by
  obtain ⟨hk, hi⟩ | ⟨rfl, hi⟩ | hk := h
  · obtain ⟨v, hv⟩ := ConstBundle.ofParams_array q hk
    rw [ConstBundle.constant_array _ i hk, hv]
    exact List.getElem?_eq_none (by simpa using hi)
  · exact List.getElem?_eq_none hi
  · obtain ⟨k, rfl⟩ := Nat.exists_eq_add_of_le' hk
    rfl

theorem hreadk_of_constant {k i v : Nat} {s : State} (h : s.ps.constant k i = some v) :
    hreadk k i s = .next (s.answer (.value v)) := by
  simp [hreadk, h]

theorem hreadk_of_constant_none {k i : Nat} {s : State} (h : s.ps.constant k i = none) :
    hreadk k i s = .fault .stuckConstant := by
  simp [hreadk, h]

/-- Settles O14: in a well-formed state PS is `ConstBundle.ofParams` of an admissible bundle, whose table the lemmas above read. -/
theorem constantTableHoldsTheBundle : Obligations.ConstantTableHoldsTheBundle := by
  intro s hs
  have hadm := State.admissible_of_wf hs
  obtain ⟨-, -, hready⟩ := s.wf_iff.mp hs
  obtain ⟨hps, -⟩ := State.valid_of_bundleReady hready
  refine ⟨rfl, rfl, ?_, fun i hi => ?_, fun k i hk hi => ?_, ?_, fun k i h => ?_⟩
  · rw [hps]
    exact ConstBundle.ofParams_val hadm
  · rw [hps]
    exact ConstBundle.ofParams_PP1_low hadm hi
  · obtain ⟨x, hx, hc⟩ := ConstBundle.ofParams_constant hk hi
    rw [← hps] at hc
    exact ⟨x, hx, (s.ps.constant_array i hk).symm.trans hc, hreadk_of_constant hc⟩
  · exact ⟨rfl, rfl, rfl, rfl⟩
  · have hc := ConstBundle.ofParams_constant_none h
    rw [← hps] at hc
    exact hreadk_of_constant_none hc

end Machine
end Sys2Proof
end

section
/-! PROOFS. The state after reset (10_state.md rule R31): nothing is written, so every read of a cell and every admitted command,
which reads at least one cell, is a fault of the model (60_exceptions.md rule R158). -/

namespace Sys2Proof.Machine

/-- Nothing is written and the bundle has limbs: what the model's reset state and every state a reset leads to share. -/
structure State.Blank (s : State) : Prop where
  om : s.om = []
  c : s.c = none
  limbs : 1 ≤ s.ps.N

theorem State.reset_blank : State.reset.Blank := ⟨rfl, rfl, by decide⟩

theorem resetEngine_blank {psel : Nat} {s t : State} (h : resetEngine psel s = .next t) : t.Blank := by
  obtain ⟨q, -, hv, rfl⟩ := resetEngine_next h
  obtain ⟨-, hN, -⟩ := (ParamSet.admissible_iff q _).mp ((validBundle_iff q _).mp hv).1
  exact ⟨rfl, rfl, hN⟩

theorem hread_of_blank {s : State} (h : s.Blank) {a : Nat} (ha : a < s.params.omLimbs) :
    hread a s = .fault (.unwrittenCell a) := by
  simp [hread, State.hasCell, ha, h.om, Memory.read]

theorem hreadc_of_blank {s : State} (h : s.Blank) : hreadc s = .fault .unwrittenFlag := by simp [hreadc, h.c]

theorem Memory.readBytes_nil (W b : Nat) {n : Nat} (hn : 1 ≤ n) :
    Memory.readBytes W [] b n = .error (.unwrittenCell (b / bytesPerLimb W)) := by
  obtain ⟨n, rfl⟩ := Nat.exists_eq_add_of_le' hn
  rfl

theorem Memory.readMany_nil (a : Nat) {n : Nat} (hn : 1 ≤ n) : Memory.readMany [] a n = .error (.unwrittenCell a) := by
  obtain ⟨n, rfl⟩ := Nat.exists_eq_add_of_le' hn
  rfl

theorem memRead_of_blank {s : State} (h : s.Blank) {b n : Nat} (hW : s.ps.W % 8 = 0) (hn : 1 ≤ n)
    (hb : b + n ≤ s.params.omLimbs * bytesPerLimb s.ps.W) :
    memRead b n s = .fault (.unwrittenCell (b / bytesPerLimb s.ps.W)) := by
  simp [memRead, State.hasBytePort, State.hasBytes, hW, hb, h.om, Memory.readBytes_nil s.ps.W b hn]

/-- Every command whose shape fits reads a buffer of at least one cell. -/
theorem exists_readBuffer_nonempty {N : Nat} (hN : 1 ≤ N) {i : Instr} (hs : shapeFits i = true) :
    ∃ x ∈ readBuffers N i, 1 ≤ x.len := by
  cases i with
  | add dst src1 src2 len | sub dst src1 src2 len =>
    exact ⟨⟨src1, len⟩, by simp [readBuffers, readOnlyBuffers], Nat.pos_of_ne_zero (by simpa [shapeFits] using hs)⟩
  | mac acc x y k m => exact ⟨⟨x, 1⟩, by simp [readBuffers, readOnlyBuffers], le_rfl⟩
  | mred dst src1 => exact ⟨⟨src1, 2 * N⟩, by simp [readBuffers, readOnlyBuffers], (by omega : 1 ≤ 2 * N)⟩
  | kmul dst src1 src2 | fadd dst src1 src2 | fsub dst src1 src2 | fmul dst src1 src2 | fdiv2 dst src1 | fsqr dst src1 =>
    exact ⟨⟨src1, N⟩, by simp [readBuffers, readOnlyBuffers], hN⟩
  | fneg dst | fcorr dst => exact ⟨⟨dst, N⟩, by simp [readBuffers, readOnlyBuffers, inPlace, writtenBuffer], hN⟩

/-- An admitted command cannot fetch the nonempty buffer it reads, so it answers no next state, and its fault is a fetch's. -/
theorem exec_of_blank {s : State} (h : s.Blank) {i : Instr} (ha : s.admission i = .ok) :
    ∃ a, exec i s = .fault (.unwrittenCell a) := by
  obtain ⟨x, hx, hlen⟩ := exists_readBuffer_nonempty h.limbs ((admission_ok_iff _ _ _).mp ha).1
  cases he : exec i s with
  | next t =>
    obtain ⟨xs, hxs⟩ := exec_next_reads ha he x hx
    rw [h.om, Memory.readMany_nil _ hlen] at hxs
    cases hxs
  | fault f =>
    obtain ⟨y, -, hy⟩ := exec_fault ha he
    obtain ⟨j, -, -, -, rfl⟩ := Memory.readMany_error hy
    exact ⟨_, rfl⟩
  | refused r => exact absurd he exec_not_refused

/-- Settles O18: both kinds of state after reset are blank, and every read of a blank state faults. -/
theorem afterResetNothingIsWritten : Obligations.AfterResetNothingIsWritten := by
  intro t ht
  have hblank : t.Blank := by
    obtain rfl | ⟨psel, s, hs⟩ := ht
    · exact State.reset_blank
    · exact resetEngine_blank hs
  exact ⟨fun a => by rw [hblank.om, Memory.read], hblank.c, hreadc_of_blank hblank, fun a => hread_of_blank hblank,
    fun b n hW hn hb => ⟨_, memRead_of_blank hblank hW hn hb⟩, fun i => exec_of_blank hblank⟩

end Sys2Proof.Machine
end

section
/-! PROOFS. The two memory ports of the host (20_memory.md rules R40, R42, R47, R51): the limb port on one cell, and the byte port,
whose byte image of a cell is its base-2^8 digits. -/

namespace Sys2Proof.Machine

section limbPort
variable {s : State} {a : Nat}

theorem hwrite_of_lt (v : Nat) (h : a < s.params.omLimbs) :
    hwrite a v s = .next (({ s with om := s.om.write a (v % 2 ^ s.ps.W) }).answer .done) := by
  simp [hwrite, State.hasCell, h]

theorem hread_of_read {x : Nat} (h : a < s.params.omLimbs) (hx : s.om.read a = some x) :
    hread a s = .next (s.answer (.value x)) := by
  simp [hread, State.hasCell, h, hx]

theorem hwrite_outside (v : Nat) (h : s.params.omLimbs ≤ a) : hwrite a v s = .fault .stuckAddress := by
  simp [hwrite, State.hasCell, Nat.not_lt.mpr h]

theorem hread_outside (h : s.params.omLimbs ≤ a) : hread a s = .fault .stuckAddress := by
  simp [hread, State.hasCell, Nat.not_lt.mpr h]

end limbPort

/-- Settles O9: HWRITE is one `Memory.write` of the value, which needs no narrowing, and the read laws of `Memory.write` say what
each cell then holds. -/
theorem limbPortReadsAndWritesOneCell : Obligations.LimbPortReadsAndWritesOneCell := by
  intro s a v hv
  refine ⟨fun ha => ⟨_, hwrite_of_lt v ha, ?_, ?_, rfl, rfl, rfl, rfl, ?_⟩, fun ha x => hread_of_read ha,
    fun ha => ⟨hwrite_outside v ha, hread_outside ha⟩⟩ <;> rw [Nat.mod_eq_of_lt hv]
  · exact s.om.read_write_same a v
  · exact fun a' ha' => s.om.read_write_other v ha'
  · exact hread_of_read ha (s.om.read_write_same a v)

theorem hreadc_of_written {s : State} {c : Bool} (h : s.c = some c) : hreadc s = .next (s.answer (.flag c)) := by
  simp [hreadc, h]

/-- Settles O10: a host read that answers only sets the reply. -/
theorem hostReadsHaveNoSideEffect : Obligations.HostReadsHaveNoSideEffect := by
  refine ⟨fun s t act hact h => ?_, fun s c => hreadc_of_written⟩
  obtain ⟨r, rfl⟩ := hostRead_next hact h
  exact ⟨rfl, rfl, rfl⟩

section bytePort
variable {s : State} {b n : Nat}

theorem memRead_of_readBytes {v : Nat} (hW : s.ps.W % 8 = 0) (hb : b + n ≤ s.params.omLimbs * bytesPerLimb s.ps.W)
    (hv : s.om.readBytes s.ps.W b n = .ok v) : memRead b n s = .next (s.answer (.value v)) := by
  simp [memRead, State.hasBytePort, State.hasBytes, hW, hb, hv]

theorem memWrite_of_inside (v : Nat) (hW : s.ps.W % 8 = 0) (hb : b + n ≤ s.params.omLimbs * bytesPerLimb s.ps.W) :
    memWrite b n v s = .next (({ s with om := s.om.writeBytes s.ps.W b n v }).answer .done) := by
  simp [memWrite, State.hasBytePort, State.hasBytes, hW, hb]

theorem memRead_no_port (hW : s.ps.W % 8 ≠ 0) : memRead b n s = .fault .stuckBytePort := by
  simp [memRead, State.hasBytePort, hW]

theorem memWrite_no_port (v : Nat) (hW : s.ps.W % 8 ≠ 0) : memWrite b n v s = .fault .stuckBytePort := by
  simp [memWrite, State.hasBytePort, hW]

theorem memRead_outside (hW : s.ps.W % 8 = 0) (hb : s.params.omLimbs * bytesPerLimb s.ps.W < b + n) :
    memRead b n s = .fault .stuckAddress := by
  simp [memRead, State.hasBytePort, State.hasBytes, hW, hb]

theorem memWrite_outside (v : Nat) (hW : s.ps.W % 8 = 0) (hb : s.params.omLimbs * bytesPerLimb s.ps.W < b + n) :
    memWrite b n v s = .fault .stuckAddress := by
  simp [memWrite, State.hasBytePort, State.hasBytes, hW, hb]

end bytePort

/-- Settles O13: the port's two guards, in the order it checks them. -/
theorem bytePortStopsOutsideMemory : Obligations.BytePortStopsOutsideMemory := fun _ _ _ v _ =>
  ⟨fun hW => ⟨memRead_no_port hW, memWrite_no_port v hW⟩, fun hW hb => ⟨memRead_outside hW hb, memWrite_outside v hW hb⟩⟩

/-- In a well-formed state with a byte port a limb has at least one byte, and its bytes are all its bits. -/
theorem State.bytesPerLimb_of_wf {s : State} (hs : s.wf = true) (hW : s.ps.W % 8 = 0) :
    0 < bytesPerLimb s.ps.W ∧ s.ps.W = 8 * bytesPerLimb s.ps.W := by
  have hW2 : 2 ≤ s.ps.W := ((ParamSet.admissible_iff _ _).mp (State.admissible_of_wf hs)).1
  unfold bytesPerLimb
  omega

/-- `(v >> k) AND 0xFF` (rule R42) in the arithmetic of the model. -/
theorem shiftRight_and_byte (v k : Nat) : (v >>> k) &&& 0xFF = v / 2 ^ k % 2 ^ 8 := by
  rw [Nat.shiftRight_eq_div_pow]
  exact Nat.and_two_pow_sub_one_eq_mod _ 8

/-- The low k bytes of a number, each at its place, are the number modulo 2^(8*k). -/
theorem sum_bytes (v k : Nat) : ∑ j ∈ Finset.range k, v / 2 ^ (8 * j) % 2 ^ 8 * 2 ^ (8 * j) = v % 2 ^ (8 * k) := by
  induction k with
  | zero => simp [Nat.mod_one]
  | succ k ih => rw [Finset.sum_range_succ, ih, mul_add, mul_one, pow_add, Nat.mod_mul, mul_comm (2 ^ (8 * k))]

/-- The bytes of an array of k-byte limbs, each at its place, are the value of the array. -/
theorem sum_bytes_eq_val {k : Nat} (hk : 0 < k) {xs : List Nat} (hx : LimbsFit (8 * k) xs) :
    ∑ j ∈ Finset.range (xs.length * k), xs.getD (j / k) 0 / 2 ^ (8 * (j % k)) % 2 ^ 8 * 2 ^ (8 * j) = val (8 * k) xs := by
  induction xs with
  | nil => simp
  | cons x xs ih =>
    have hlow : ∀ j ∈ Finset.range k, (x :: xs).getD (j / k) 0 / 2 ^ (8 * (j % k)) % 2 ^ 8 * 2 ^ (8 * j) =
        x / 2 ^ (8 * j) % 2 ^ 8 * 2 ^ (8 * j) := fun j hj => by
      have hj := Finset.mem_range.mp hj
      rw [Nat.div_eq_of_lt hj, Nat.mod_eq_of_lt hj, List.getD_cons_zero]
    have hhigh : ∀ j, (x :: xs).getD ((k + j) / k) 0 / 2 ^ (8 * ((k + j) % k)) % 2 ^ 8 * 2 ^ (8 * (k + j)) =
        2 ^ (8 * k) * (xs.getD (j / k) 0 / 2 ^ (8 * (j % k)) % 2 ^ 8 * 2 ^ (8 * j)) := fun j => by
      rw [Nat.add_div_left j hk, Nat.add_mod_left, List.getD_cons_succ, mul_add, pow_add]
      ring
    rw [List.length_cons, Nat.succ_mul, add_comm, Finset.sum_range_add, Finset.sum_congr rfl hlow, sum_bytes,
      Finset.sum_congr rfl fun j _ => hhigh j, ← Finset.mul_sum, ih fun y hy => hx y (by simp [hy]), val_cons,
      Nat.mod_eq_of_lt (hx x (by simp))]

/-- MemRead of a whole buffer (rule R42). -/
theorem Memory.readBytes_buffer {W a n : Nat} {m : Memory} {xs : List Nat} (hpos : 0 < bytesPerLimb W)
    (hW : W = 8 * bytesPerLimb W) (hfit : LimbsFit W xs) (hm : m.readMany a n = .ok xs) :
    m.readBytes W (a * bytesPerLimb W) (n * bytesPerLimb W) = .ok (val W xs) := by
  obtain ⟨rfl, hcells⟩ := (m.readMany_ok_iff a n xs).mp hm
  have hdiv : ∀ j, (a * bytesPerLimb W + j) / bytesPerLimb W = a + j / bytesPerLimb W := fun j => by
    rw [Nat.mul_comm, Nat.mul_add_div hpos]
  rw [Memory.readBytes_eq_sum W m _ _ (fun j => xs.getD (j / bytesPerLimb W) 0) fun j hj => ?_]
  · simp only [Nat.mul_comm a, Nat.mul_add_mod]
    rw [hW] at hfit
    rw [sum_bytes_eq_val hpos hfit, ← hW]
  · have hi : j / bytesPerLimb W < xs.length := (Nat.div_lt_iff_lt_mul hpos).mpr hj
    rw [hdiv, hcells _ hi, List.getElem?_eq_getElem hi, List.getD_eq_getElem _ _ hi]

/-- Settles O11: MemRead is the sum of the bytes it reads, and the bytes of a buffer sum to its value. -/
theorem byteImageOfABufferIsItsValue : Obligations.ByteImageOfABufferIsItsValue := by
  refine ⟨fun s b n limb hW _ hb hcells => ?_, fun s a n xs hs hW _ ha hxs => ?_⟩
  · simp only [shiftRight_and_byte]
    exact memRead_of_readBytes hW hb (Memory.readBytes_eq_sum _ _ b n limb hcells)
  · obtain ⟨hpos, hbits⟩ := State.bytesPerLimb_of_wf hs hW
    obtain ⟨-, hfits, -⟩ := s.wf_iff.mp hs
    refine memRead_of_readBytes hW ?_ (Memory.readBytes_buffer hpos hbits (Memory.readMany_fits hfits hxs) hxs)
    rw [← Nat.add_mul]
    exact Nat.mul_le_mul_right _ ha

theorem byteAfterWrite_of_mem {b n addr : Nat} (v old : Nat) (h : b ≤ addr ∧ addr < b + n) :
    byteAfterWrite b n v addr old = v / 2 ^ (8 * (addr - b)) % 2 ^ 8 := if_pos h

theorem byteAfterWrite_of_not_mem {b n addr : Nat} (v old : Nat) (h : ¬(b ≤ addr ∧ addr < b + n)) :
    byteAfterWrite b n v addr old = old := if_neg h

/-- A byte written from the source value or taken from a byte is a byte. -/
theorem byteAfterWrite_lt (b n v addr : Nat) {old : Nat} (h : old < 2 ^ 8) : byteAfterWrite b n v addr old < 2 ^ 8 := by
  unfold byteAfterWrite
  split
  · exact Nat.mod_lt _ (Nat.two_pow_pos 8)
  · exact h

/-- Byte j of an assembled number is the written byte j. -/
theorem bytesAfterWrite_byte (b n v : Nat) {k j : Nat} (addr old : Nat) (hj : j < k) :
    bytesAfterWrite b n v addr old k / 2 ^ (8 * j) % 2 ^ 8 = byteAfterWrite b n v (addr + j) (old / 2 ^ (8 * j) % 2 ^ 8) := by
  induction k generalizing addr old j with
  | zero => omega
  | succ k ih =>
    have hlow := byteAfterWrite_lt b n v addr (Nat.mod_lt old (Nat.two_pow_pos 8))
    cases j with
    | zero =>
      rw [bytesAfterWrite, mul_zero, pow_zero, Nat.div_one, Nat.div_one, Nat.add_mul_mod_self_left, Nat.mod_eq_of_lt hlow,
        Nat.add_zero]
    | succ j =>
      have hpow : 2 ^ (8 * (j + 1)) = 2 ^ 8 * 2 ^ (8 * j) := by ring
      rw [bytesAfterWrite, hpow, ← Nat.div_div_eq_div_mul, ← Nat.div_div_eq_div_mul,
        Nat.add_mul_div_left _ _ (Nat.two_pow_pos 8), Nat.div_eq_of_lt hlow, Nat.zero_add, ih _ _ (by omega),
        Nat.add_right_comm addr 1 j, Nat.add_assoc]

/-- What a cell of the range holds after `MemWrite(b, n, v)`, from what it held (rule R42). -/
def cellAfterWrite (W b n v cell : Nat) : Option Nat → Option Nat
  | some old => some (bytesAfterWrite b n v (cell * bytesPerLimb W) old (bytesPerLimb W))
  | none =>
    if b ≤ cell * bytesPerLimb W ∧ cell * bytesPerLimb W + bytesPerLimb W ≤ b + n then
      some (bytesAfterWrite b n v (cell * bytesPerLimb W) 0 (bytesPerLimb W))
    else none

theorem Memory.read_writeBytesCell_same (W : Nat) (m : Memory) (b n v cell : Nat) :
    (m.writeBytesCell W b n v cell).read cell = cellAfterWrite W b n v cell (m.read cell) := by
  unfold Memory.writeBytesCell cellAfterWrite
  cases hc : m.read cell with
  | some old => exact Memory.read_write_same ..
  | none =>
    dsimp only
    split
    · exact Memory.read_write_same ..
    · exact hc

theorem Memory.read_writeBytesFrom (W b n v : Nat) (m : Memory) (cell count a : Nat) :
    (Memory.writeBytesFrom W b n v m cell count).read a =
      if cell ≤ a ∧ a < cell + count then cellAfterWrite W b n v a (m.read a) else m.read a := by
  induction count generalizing m cell with
  | zero => rw [if_neg (by omega)]; rfl
  | succ count ih =>
    rw [Memory.writeBytesFrom, ih]
    by_cases ha : a = cell
    · subst ha
      rw [if_neg (by omega), if_pos (by omega), Memory.read_writeBytesCell_same]
    · rw [Memory.read_writeBytesCell_other W m b n v ha]
      exact if_congr (by omega) rfl rfl

/-- `MemWrite` updates the cells that hold a byte of its range and no other. -/
theorem Memory.read_writeBytes {W b n : Nat} (hpos : 0 < bytesPerLimb W) (hn : 1 ≤ n) (m : Memory) (v a : Nat) :
    (m.writeBytes W b n v).read a =
      if b < a * bytesPerLimb W + bytesPerLimb W ∧ a * bytesPerLimb W < b + n then cellAfterWrite W b n v a (m.read a)
      else m.read a := by
  have hfirst : b / bytesPerLimb W ≤ a ↔ b < a * bytesPerLimb W + bytesPerLimb W := by
    rw [← Nat.lt_succ_iff, Nat.div_lt_iff_lt_mul hpos, Nat.succ_mul]
  have hlast : a ≤ (b + n - 1) / bytesPerLimb W ↔ a * bytesPerLimb W < b + n := by
    rw [Nat.le_div_iff_mul_le hpos]
    omega
  have horder : b / bytesPerLimb W ≤ (b + n - 1) / bytesPerLimb W := Nat.div_le_div_right (by omega)
  rw [Memory.writeBytes, if_neg (by omega), Memory.read_writeBytesFrom]
  exact if_congr (by rw [← hfirst, ← hlast]; omega) rfl rfl

section byteOfWrite
variable {W b n x : Nat} {m : Memory}

/-- A cell whose number was assembled from `old` holds the written byte at each of its byte addresses. -/
theorem byte_of_assembled (hpos : 0 < bytesPerLimb W) (v old : Nat) :
    bytesAfterWrite b n v (x / bytesPerLimb W * bytesPerLimb W) old (bytesPerLimb W) / 2 ^ (8 * (x % bytesPerLimb W)) % 2 ^ 8 =
      byteAfterWrite b n v x (old / 2 ^ (8 * (x % bytesPerLimb W)) % 2 ^ 8) := by
  rw [bytesAfterWrite_byte b n v _ _ (Nat.mod_lt x hpos), Nat.div_add_mod']

/-- The cell of a byte address holds a byte of the range when the address lies in it. -/
theorem cell_meets_range (hpos : 0 < bytesPerLimb W) (h : b ≤ x ∧ x < b + n) :
    b < x / bytesPerLimb W * bytesPerLimb W + bytesPerLimb W ∧ x / bytesPerLimb W * bytesPerLimb W < b + n :=
  ⟨h.1.trans_lt (Nat.lt_div_mul_add hpos), (Nat.div_mul_le_self _ _).trans_lt h.2⟩

theorem Memory.readByte_writeBytes_of_written (hpos : 0 < bytesPerLimb W) (hn : 1 ≤ n) (v : Nat) {y : Nat}
    (hy : m.readByte W x = some y) : (m.writeBytes W b n v).readByte W x = some (byteAfterWrite b n v x y) := by
  obtain ⟨old, hold, rfl⟩ := Option.map_eq_some_iff.mp hy
  rw [Memory.readByte, Memory.read_writeBytes hpos hn, hold]
  split
  · exact congrArg some (byte_of_assembled hpos v old)
  · rename_i hout
    rw [byteAfterWrite_of_not_mem _ _ fun h => hout (cell_meets_range hpos h)]
    rfl

theorem Memory.readByte_writeBytes_of_covered (hpos : 0 < bytesPerLimb W) (hn : 1 ≤ n) (v : Nat)
    (hx : m.read (x / bytesPerLimb W) = none) (hlow : b ≤ x / bytesPerLimb W * bytesPerLimb W)
    (hhigh : x / bytesPerLimb W * bytesPerLimb W + bytesPerLimb W ≤ b + n) :
    (m.writeBytes W b n v).readByte W x = some (v / 2 ^ (8 * (x - b)) % 2 ^ 8) := by
  have hmem : b ≤ x ∧ x < b + n :=
    ⟨hlow.trans (Nat.div_mul_le_self _ _), (Nat.lt_div_mul_add hpos).trans_le hhigh⟩
  rw [Memory.readByte, Memory.read_writeBytes hpos hn, if_pos (cell_meets_range hpos hmem), hx, cellAfterWrite,
    if_pos ⟨hlow, hhigh⟩, Option.map_some, byte_of_assembled hpos, byteAfterWrite_of_mem _ _ hmem]

theorem Memory.read_writeBytes_of_partial {a : Nat} (hpos : 0 < bytesPerLimb W) (hn : 1 ≤ n) (v : Nat)
    (ha : m.read a = none) (hpart : a * bytesPerLimb W < b ∨ b + n < a * bytesPerLimb W + bytesPerLimb W) :
    (m.writeBytes W b n v).read a = none := by
  have hcell : cellAfterWrite W b n v a none = none := if_neg (by omega)
  rw [Memory.read_writeBytes hpos hn, ha, hcell, ite_self]

end byteOfWrite

/-- Settles O12: the three kinds of cell of `cellAfterWrite`: written, unwritten and covered whole, unwritten and not. -/
theorem byteWriteSetsExactlyItsBytes : Obligations.ByteWriteSetsExactlyItsBytes := by
  intro s b n v hs hW hn hb
  obtain ⟨hpos, -⟩ := State.bytesPerLimb_of_wf hs hW
  refine ⟨_, memWrite_of_inside v hW hb, rfl, rfl, rfl, rfl, fun x _ => ⟨fun _ y hy => ?_, fun hx hlow hhigh => ?_, ?_⟩⟩
  · rw [shiftRight_and_byte]
    exact Memory.readByte_writeBytes_of_written hpos hn v hy
  · rw [shiftRight_and_byte]
    exact Memory.readByte_writeBytes_of_covered hpos hn v hx hlow hhigh
  · exact Memory.read_writeBytes_of_partial hpos hn v

end Sys2Proof.Machine
end

section
/-! PROOFS. The encoding (30_encoding.md rules R61 to R66): a word decodes to a command exactly when its eight fields are that
command's, and so exactly when it is the word of that command. -/

namespace Sys2Proof

/-- Every field's value fits the field's width (rule R61). -/
def Fields.Fit (f : Fields) : Prop :=
  f.dst < 2 ^ 10 ∧ f.src1 < 2 ^ 10 ∧ f.src2 < 2 ^ 10 ∧ f.la < 2 ^ 8 ∧ f.lb < 2 ^ 8

theorem Fields.eq_iff (f g : Fields) :
    f = g ↔ f.la = g.la ∧ f.lb = g.lb ∧ f.dst = g.dst ∧ f.src1 = g.src1 ∧ f.src2 = g.src2 := by
  cases f
  cases g
  simp

theorem Instr.wellFormed_iff (i : Instr) : i.wellFormed = true ↔ i.fields.Fit := by
  cases i <;> simp [Instr.wellFormed, addrFits, lenFits, Instr.fields, Fields.Fit, and_assoc]

theorem fieldsOf_fit (w : BitVec 64) : (fieldsOf w).Fit :=
  ⟨BitVec.isLt _, BitVec.isLt _, BitVec.isLt _, BitVec.isLt _, BitVec.isLt _⟩

section fieldsOf
variable (w : BitVec 64)
@[simp] theorem fieldsOf_la_eq_zero : (fieldsOf w).la = 0 ↔ w.extractLsb' 8 8 = 0#8 := by
  rw [BitVec.toNat_eq]; rfl
@[simp] theorem fieldsOf_lb_eq_zero : (fieldsOf w).lb = 0 ↔ w.extractLsb' 16 8 = 0#8 := by
  rw [BitVec.toNat_eq]; rfl
@[simp] theorem fieldsOf_src1_eq_zero : (fieldsOf w).src1 = 0 ↔ w.extractLsb' 42 10 = 0#10 := by
  rw [BitVec.toNat_eq]; rfl
@[simp] theorem fieldsOf_src2_eq_zero : (fieldsOf w).src2 = 0 ↔ w.extractLsb' 52 10 = 0#10 := by
  rw [BitVec.toNat_eq]; rfl
end fieldsOf

@[simp] theorem Op.op_build (o : Op) (f : Fields) : (o.build f).op = o := by cases o <;> rfl

@[simp] theorem Instr.build_fields (i : Instr) : i.op.build i.fields = i := by
  cases i with
  | add => exact Laws.RowRebuilds.add ..
  | sub => exact Laws.RowRebuilds.sub ..
  | mac => exact Laws.RowRebuilds.mac ..
  | kmul => exact Laws.RowRebuilds.kmul ..
  | mred => exact Laws.RowRebuilds.mred ..
  | fadd => exact Laws.RowRebuilds.fadd ..
  | fsub => exact Laws.RowRebuilds.fsub ..
  | fneg => exact Laws.RowRebuilds.fneg ..
  | fdiv2 => exact Laws.RowRebuilds.fdiv2 ..
  | fcorr => exact Laws.RowRebuilds.fcorr ..
  | fmul => exact Laws.RowRebuilds.fmul ..
  | fsqr => exact Laws.RowRebuilds.fsqr ..

/-- The fields a format does not use are zero exactly when the command keeps every field of the word. -/
theorem Op.zeroFields_iff_fields_build (o : Op) (w : BitVec 64) :
    o.format.zeroFields w ↔ fieldsOf w = (o.build (fieldsOf w)).fields := by
  cases o <;> simp [Op.format, Format.zeroFields, Op.build, Instr.fields, Fields.eq_iff]

/-- Rule R65, step 1, by fields: the opcode and the operands are the command's, the reserved fields are zero. -/
theorem decode_eq_ok_iff_fields {w : BitVec 64} {i : Instr} :
    decode w = .ok i ↔
      opField w = i.op.code ∧ fieldsOf w = i.fields ∧ w.extractLsb' 24 8 = 0#8 ∧ w.extractLsb' 62 2 = 0#2 := by
  rw [decode_eq_ok_iff]
  constructor
  · rintro ⟨o, ho, rfl⟩
    obtain ⟨hop, hrsv0, hrsv1, hzero⟩ := (o.fits_iff w).mp ho
    exact ⟨by rw [hop, Op.op_build], (o.zeroFields_iff_fields_build w).mp hzero, hrsv0, hrsv1⟩
  · rintro ⟨hop, hfields, hrsv0, hrsv1⟩
    have hi : i = i.op.build (fieldsOf w) := by rw [hfields, Instr.build_fields]
    have hzero := (i.op.zeroFields_iff_fields_build w).mpr (hi ▸ hfields)
    exact ⟨i.op, (i.op.fits_iff w).mpr ⟨hop, hrsv0, hrsv1, hzero⟩, hi⟩

theorem reserved_packWord (op : BitVec 8) (f : Fields) :
    (packWord op f).extractLsb' 24 8 = 0#8 ∧ (packWord op f).extractLsb' 62 2 = 0#2 := by
  obtain ⟨h1, -, -, -, h0, -, -, -⟩ := catWord_inj.mp (eq_catWord (packWord op f))
  exact ⟨h0.symm, h1.symm⟩

theorem opField_packWord (op : BitVec 8) (f : Fields) : opField (packWord op f) = op := (fields_catWord ..).1

theorem fieldsOf_packWord (op : BitVec 8) {f : Fields} (hf : f.Fit) : fieldsOf (packWord op f) = f := by
  obtain ⟨hdst, hsrc1, hsrc2, hla, hlb⟩ := hf
  rw [packWord, (fields_catWord ..).2]
  simp only [BitVec.toNat_ofNat, Nat.mod_eq_of_lt, hla, hlb, hdst, hsrc1, hsrc2]

theorem eq_packWord {w : BitVec 64} (hrsv0 : w.extractLsb' 24 8 = 0#8) (hrsv1 : w.extractLsb' 62 2 = 0#2) :
    w = packWord (opField w) (fieldsOf w) := by
  simp only [packWord, fieldsOf, opField, BitVec.ofNat_toNat, BitVec.setWidth_eq, ← hrsv0, ← hrsv1]
  exact eq_catWord w

/-- Settles O2: the fields of the packed word are those packed, because each fits its field. -/
theorem decodeOfEncodeIsIdentity : Obligations.DecodeOfEncodeIsIdentity := by
  intro i hi
  have hfields := fieldsOf_packWord i.op.code (i.wellFormed_iff.mp hi)
  exact decode_eq_ok_iff_fields.mpr ⟨opField_packWord _ _, hfields, reserved_packWord _ _⟩

/-- Settles O3: a decodable word packs its own opcode and fields, which are the command's. -/
theorem encodeOfDecodeIsIdentity : Obligations.EncodeOfDecodeIsIdentity := by
  intro w i hw
  obtain ⟨hop, hfields, hrsv0, hrsv1⟩ := decode_eq_ok_iff_fields.mp hw
  refine ⟨i.wellFormed_iff.mpr (hfields ▸ fieldsOf_fit w), ?_⟩
  rw [encode, ← hop, ← hfields, ← eq_packWord hrsv0 hrsv1]

/-- Rule R61's sum of any word. -/
theorem toNat_eq_fieldSum (w : BitVec 64) :
    w.toNat = (opField w).toNat + (fieldsOf w).la * 2 ^ 8 + (fieldsOf w).lb * 2 ^ 16 + (w.extractLsb' 24 8).toNat * 2 ^ 24 +
      (fieldsOf w).dst * 2 ^ 32 + (fieldsOf w).src1 * 2 ^ 42 + (fieldsOf w).src2 * 2 ^ 52 +
      (w.extractLsb' 62 2).toNat * 2 ^ 62 :=
  (congrArg BitVec.toNat (eq_catWord w)).trans (toNat_catWord ..)

theorem toNat_encode {i : Instr} (hi : i.wellFormed = true) :
    (encode i).toNat = i.op.code.toNat + i.fields.la * 2 ^ 8 + i.fields.lb * 2 ^ 16 + i.fields.dst * 2 ^ 32 +
      i.fields.src1 * 2 ^ 42 + i.fields.src2 * 2 ^ 52 := by
  obtain ⟨hop, hfields, hrsv0, hrsv1⟩ := decode_eq_ok_iff_fields.mp (decodeOfEncodeIsIdentity i hi)
  rw [toNat_eq_fieldSum, hop, hfields, hrsv0, hrsv1]
  simp

/-- Settles O1: the sum is that of the eight fields side by side; the fields of a decodable word are the command's, and
`Instr.fields` is zero where the command's format is. -/
theorem commandWordIsFieldSum : Obligations.CommandWordIsFieldSum := by
  refine ⟨toNat_eq_fieldSum, fun i => toNat_encode, fun w i hw => ?_⟩
  obtain ⟨hop, hfields, hrsv0, hrsv1⟩ := decode_eq_ok_iff_fields.mp hw
  refine ⟨hop, hfields, hrsv0, hrsv1, ?_⟩
  rw [hfields]
  cases i <;> simp [Instr.fields]

theorem Op.fits_pattern (o : Op) : o.fits o.pattern = true := by cases o <;> decide

theorem Op.code_injective : Function.Injective Op.code := by
  intro o o' h
  have hpattern : o'.pattern = o.pattern := by rw [Op.pattern, Op.pattern, h]
  exact Op.fits_unique o.fits_pattern (hpattern ▸ o'.fits_pattern)

theorem mem_opcodeTable (o : Op) : o ∈ opcodeTable := by cases o <;> decide

/-- The opcodes of no row (rule R64). -/
theorem opcode_unassigned_iff (b : BitVec 8) :
    (∀ o : Op, b ≠ o.code) ↔ b.toNat = 0 ∨ (0x06 ≤ b.toNat ∧ b.toNat ≤ 0x0F) ∨ 0x17 ≤ b.toNat := by
  have htable : (∀ o : Op, b ≠ o.code) ↔ ∀ o ∈ opcodeTable, b ≠ o.code := by simp [mem_opcodeTable]
  rw [htable]
  simp only [opcodeTable, List.forall_mem_cons, List.not_mem_nil, false_imp_iff, implies_true, and_true, Op.code, ne_eq,
    BitVec.toNat_eq, BitVec.toNat_ofNat]
  omega

theorem decode_illegal_iff_no_row (w : BitVec 64) :
    decode w = .error .illegalOp ↔ ∀ o : Op, w &&& o.format.mask ≠ o.pattern := by
  simp [decode_eq_error_iff, Op.fits]

theorem decode_illegal_of_unassigned {w : BitVec 64} (h : ∀ o : Op, opField w ≠ o.code) :
    decode w = .error .illegalOp := by
  refine decode_eq_error_iff.mpr ⟨rfl, fun o => Bool.eq_false_iff.mpr fun ho => h o ?_⟩
  exact ((o.fits_iff w).mp ho).1

/-- A word with a row's opcode is illegal exactly when a reserved field or one of the row's zero fields is nonzero. -/
theorem decode_illegal_iff_of_opField {w : BitVec 64} {o : Op} (h : opField w = o.code) :
    decode w = .error .illegalOp ↔
      w.extractLsb' 24 8 ≠ 0#8 ∨ w.extractLsb' 62 2 ≠ 0#2 ∨ ¬o.format.zeroFields w := by
  have hrow : decode w = .error .illegalOp ↔ ¬o.fits w = true := by
    rw [decode_eq_error_iff]
    constructor
    · rintro ⟨-, hno⟩
      simp [hno o]
    · refine fun hno => ⟨rfl, fun o' => Bool.eq_false_iff.mpr fun ho' => hno ?_⟩
      have hcode : o'.code = o.code := ((o'.fits_iff w).mp ho').1.symm.trans h
      exact Op.code_injective hcode ▸ ho'
  rw [hrow, o.fits_iff w]
  tauto

/-- Rule R66 by fields: the opcode is no row's, or a field that must be zero is not. -/
theorem decode_illegal_iff_fields (w : BitVec 64) :
    decode w = .error .illegalOp ↔
      ((opField w).toNat = 0 ∨ (0x06 ≤ (opField w).toNat ∧ (opField w).toNat ≤ 0x0F) ∨ 0x17 ≤ (opField w).toNat) ∨
      w.extractLsb' 24 8 ≠ 0#8 ∨ w.extractLsb' 62 2 ≠ 0#2 ∨
      ((opField w = 0x01#8 ∨ opField w = 0x02#8) ∧ (fieldsOf w).lb ≠ 0) ∨
      ((opField w = 0x04#8 ∨ opField w = 0x10#8 ∨ opField w = 0x11#8 ∨ opField w = 0x15#8) ∧
        ((fieldsOf w).la ≠ 0 ∨ (fieldsOf w).lb ≠ 0)) ∨
      ((opField w = 0x05#8 ∨ opField w = 0x13#8 ∨ opField w = 0x16#8) ∧
        ((fieldsOf w).la ≠ 0 ∨ (fieldsOf w).lb ≠ 0 ∨ (fieldsOf w).src2 ≠ 0)) ∨
      ((opField w = 0x12#8 ∨ opField w = 0x14#8) ∧
        ((fieldsOf w).la ≠ 0 ∨ (fieldsOf w).lb ≠ 0 ∨ (fieldsOf w).src1 ≠ 0 ∨ (fieldsOf w).src2 ≠ 0)) := by
  by_cases hrow : ∃ o : Op, opField w = o.code
  · obtain ⟨o, ho⟩ := hrow
    rw [decode_illegal_iff_of_opField ho, ho]
    cases o <;> simp [Op.code, Op.format, Format.zeroFields, not_and_or, -not_and]
  · have hno : ∀ o : Op, opField w ≠ o.code := not_exists.mp hrow
    exact iff_of_true (decode_illegal_of_unassigned hno) (.inl ((opcode_unassigned_iff _).mp hno))

theorem decode_ok_or_illegal (w : BitVec 64) : (∃ i, decode w = .ok i) ∨ decode w = .error .illegalOp := by
  cases hw : decode w with
  | ok i => exact .inl ⟨i, rfl⟩
  | error code =>
    obtain ⟨hcode, -⟩ := decode_eq_error_iff.mp hw
    exact .inr (congrArg _ hcode)

/-- Settles O5: the table by evaluation, the exclusion because a matching word holds the row's opcode. -/
theorem opcodeRowsAreExclusive : Obligations.OpcodeRowsAreExclusive :=
  ⟨by decide, fun _ _ _ h h' => Op.fits_unique (beq_iff_eq.mpr h) (beq_iff_eq.mpr h')⟩

/-- Settles O6, by running the decoder on the five words. -/
theorem printedWordsDecode : Obligations.PrintedWordsDecode := by
  unfold Obligations.PrintedWordsDecode
  decide

namespace Machine

theorem issue_of_decode_ok {w : BitVec 64} {i : Instr} (h : decode w = .ok i) (s : State) : issue w s = exec i s := by
  simp [issue, h]

theorem issue_of_decode_error {w : BitVec 64} {code : Code} (h : decode w = .error code) (s : State) :
    issue w s = .next (s.respond code) := by
  simp [issue, h, State.reject]

theorem step_issue {s : State} {w : BitVec 64} {rest : List HostAction} (h : s.pending = .issue w :: rest) :
    step s = issue w { s with pending := rest } :=
  step_cons h

theorem step_withFetchWord (s : State) (w : BitVec 64) : step (s.withFetchWord 64 w.toNat) = issue w s := by
  have hw : BitVec.ofNat 64 (w.toNat % 2 ^ 64) = w := by
    rw [Nat.mod_eq_of_lt w.isLt, BitVec.ofNat_toNat, BitVec.setWidth_eq]
  rw [State.withFetchWord, hw]
  exact step_issue rfl

/-- Settles O4: the two characterisations above, and the response to a rejection, which keeps every other field. -/
theorem illegalWordsAreRejected : Obligations.IllegalWordsAreRejected :=
  ⟨decode_ok_or_illegal, decode_illegal_iff_no_row, decode_illegal_iff_fields,
    fun _ s hw => ⟨_, issue_of_decode_error hw s, rfl, rfl, rfl, rfl, rfl⟩, by decide, by decide⟩

/-- Settles O7: a step performs the first pending action, and ISSUE of a decodable word is exec. -/
theorem stepRunsTheDecodedCommand : Obligations.StepRunsTheDecodedCommand :=
  ⟨fun _ _ _ => step_cons, fun _ _ _ _ hp hw => (step_issue hp).trans (issue_of_decode_ok hw _),
    fun s w _ hw => (step_withFetchWord s w).trans (issue_of_decode_ok hw s)⟩

end Machine
end Sys2Proof
end

section
/-! PROOFS. The carry chain (40_carry_chain.md rules R92 and R94). First what every command of two read-only buffers shares: its
word, its rejections in rule R65's order, its admission. Then the integer equations of the adder and the subtractor (Laws/Arith)
turned into the limbs and the flag the commands write. -/

namespace Sys2Proof

/-- The word written as rule R61's sum decodes to its command. -/
theorem decode_ofNat {i : Instr} {n : Nat} (hi : i.wellFormed = true)
    (hn : n = i.op.code.toNat + i.fields.la * 2 ^ 8 + i.fields.lb * 2 ^ 16 + i.fields.dst * 2 ^ 32 +
      i.fields.src1 * 2 ^ 42 + i.fields.src2 * 2 ^ 52) : decode (BitVec.ofNat 64 n) = .ok i := by
  rw [hn, ← toNat_encode hi, BitVec.ofNat_toNat, BitVec.setWidth_eq]
  exact decodeOfEncodeIsIdentity i hi

namespace Machine

theorem exec_of_rejected {i : Instr} {s : State} {code : Code} (h : s.admission i = code) (hne : code ≠ .ok) :
    exec i s = s.reject code := by
  subst h
  exact exec_rejected hne

theorem exec_badShape {i : Instr} {s : State} (h : shapeFits i = false) : exec i s = s.reject .badShape :=
  exec_of_rejected (admission_badShape h) (by decide)

section twoSources
variable {i : Instr} {s : State} {dst src1 src2 m n1 n2 : Nat} (hw : writtenBuffer s.ps.N i = ⟨dst, m⟩)
  (hr : readOnlyBuffers s.ps.N i = [⟨src1, n1⟩, ⟨src2, n2⟩]) (hshape : shapeFits i = true)
include hw hr hshape

theorem exec_badAddr_of_two_sources
    (h : s.params.omLimbs < src1 + n1 ∨ s.params.omLimbs < src2 + n2 ∨ s.params.omLimbs < dst + m) :
    exec i s = s.reject .badAddr := by
  refine exec_of_rejected ?_ (by decide)
  rcases h with h | h | h
  · exact admission_badAddr (x := ⟨src1, n1⟩) hshape (by simp [hr]) h
  · exact admission_badAddr (x := ⟨src2, n2⟩) hshape (by simp [hr]) h
  · exact admission_badAddr (x := ⟨dst, m⟩) hshape (by simp [hw]) h

variable (h1 : src1 + n1 ≤ s.params.omLimbs) (h2 : src2 + n2 ≤ s.params.omLimbs) (hd : dst + m ≤ s.params.omLimbs)
include h1 h2 hd

theorem exec_badAlias_of_two_sources
    (h : (dst < src1 + n1 ∧ src1 < dst + m) ∨ (dst < src2 + n2 ∧ src2 < dst + m)) : exec i s = s.reject .badAlias := by
  have hinside : ∀ x ∈ writtenBuffer s.ps.N i :: readOnlyBuffers s.ps.N i, x.inside s.params.omLimbs = true := by
    simp [hw, hr, h1, h2, hd]
  refine exec_of_rejected ?_ (by decide)
  rcases h with h | h
  · exact admission_badAlias (x := ⟨src1, n1⟩) hshape hinside (by simp [hr]) (by simpa [hw] using h)
  · exact admission_badAlias (x := ⟨src2, n2⟩) hshape hinside (by simp [hr]) (by simpa [hw] using h)

theorem admission_ok_of_two_sources (ho1 : ¬(dst < src1 + n1 ∧ src1 < dst + m))
    (ho2 : ¬(dst < src2 + n2 ∧ src2 < dst + m)) : s.admission i = .ok := by
  refine (admission_ok_iff _ _ _).mpr ⟨hshape, ?_, ?_⟩
  · simp [hw, hr, h1, h2, hd]
  · simp only [hw, hr, List.forall_mem_cons, Buffer.overlaps_eq_false_iff]
    exact ⟨ho1, ho2, by simp⟩

end twoSources

section limbs
variable {W : Nat} {a b : List Nat}

/-- An array and its carry out stand for a number: the array holds it modulo 2^(W*n), and the carry is nonzero
exactly when it does not fit. -/
theorem eq_toLimbs_of_carry {n c v : Nat} {xs : List Nat} (hl : xs.length = n) (hx : LimbsFit W xs)
    (h : val W xs + 2 ^ (W * n) * c = v) : xs = toLimbs W n v := by
  refine eq_toLimbs hl hx ?_
  rw [← h, Nat.add_mul_mod_self_left, Nat.mod_eq_of_lt (hl ▸ val_lt hx)]

theorem carryFlag_of_carry {n c v : Nat} {xs : List Nat} (hl : xs.length = n) (hx : LimbsFit W xs)
    (h : val W xs + 2 ^ (W * n) * c = v) : carryFlag c = decide (2 ^ (W * n) ≤ v) := by
  have hlt : val W xs < 2 ^ (W * n) := hl ▸ val_lt hx
  cases c with
  | zero => simpa [carryFlag, ← h] using hlt
  | succ c =>
    rw [Nat.mul_succ] at h
    have hle : 2 ^ (W * n) ≤ v := by omega
    simp [carryFlag, hle]

theorem addL_eq_toLimbs (h : a.length = b.length) : (addL W a b).1 = toLimbs W a.length (val W a + val W b) :=
  eq_toLimbs_of_carry (addL_length h) (addL_fit a b) (addL_val h)

theorem addL_carryFlag (h : a.length = b.length) :
    carryFlag (addL W a b).2 = decide (2 ^ (W * a.length) ≤ val W a + val W b) :=
  carryFlag_of_carry (addL_length h) (addL_fit a b) (addL_val h)

/-- The subtractor adds 2^(W*L) and drops it again when it borrows: the number a + 2^(W*L) - b has the carry 1 - bw. -/
theorem subL_carry (h : a.length = b.length) (ha : LimbsFit W a) (hb : LimbsFit W b) :
    val W (subL W a b).1 + 2 ^ (W * a.length) * (1 - (subL W a b).2) =
      val W a + 2 ^ (W * a.length) - val W b := by
  obtain ⟨hval, hbw⟩ := subL_val h ha hb
  rcases Nat.le_one_iff_eq_zero_or_eq_one.mp hbw with hbw | hbw <;> rw [hbw] at hval ⊢ <;> omega

theorem subL_eq_toLimbs (h : a.length = b.length) (ha : LimbsFit W a) (hb : LimbsFit W b) :
    (subL W a b).1 = toLimbs W a.length (val W a + 2 ^ (W * a.length) - val W b) :=
  eq_toLimbs_of_carry (subL_length h) (subL_fit a b) (subL_carry h ha hb)

theorem subL_borrowFlag (h : a.length = b.length) (ha : LimbsFit W a) (hb : LimbsFit W b) :
    carryFlag (subL W a b).2 = decide (val W a < val W b) := by
  obtain ⟨hval, hbw⟩ := subL_val h ha hb
  have hlt : val W (subL W a b).1 < 2 ^ (W * a.length) := subL_length (W := W) h ▸ val_lt (subL_fit a b)
  rcases Nat.le_one_iff_eq_zero_or_eq_one.mp hbw with hbw | hbw <;> rw [hbw] at hval ⊢
  · have hge : val W b ≤ val W a := by omega
    simpa [carryFlag] using hge
  · have hneg : val W a < val W b := by omega
    simp [carryFlag, hneg]

end limbs

section exec
variable {s : State} {dst src1 src2 len : Nat} {a b : List Nat}

theorem exec_add_of_reads (h : s.admission (.add dst src1 src2 len) = .ok) (ha : s.om.readMany src1 len = .ok a)
    (hb : s.om.readMany src2 len = .ok b) :
    exec (.add dst src1 src2 len) s = s.completeWithFlag dst (addL s.ps.W a b) := by
  rw [exec, execAdd, State.admitted_ok h, State.withBuffer_ok ha, State.withBuffer_ok hb]

theorem exec_sub_of_reads (h : s.admission (.sub dst src1 src2 len) = .ok) (ha : s.om.readMany src1 len = .ok a)
    (hb : s.om.readMany src2 len = .ok b) :
    exec (.sub dst src1 src2 len) s = s.completeWithFlag dst (subL s.ps.W a b) := by
  rw [exec, execSub, State.admitted_ok h, State.withBuffer_ok ha, State.withBuffer_ok hb]

/-- The OK clause of a command that writes C: the limbs and the flag it completes with, computed. -/
theorem exists_done_of_completeWithFlag {i : Instr} {r : List Nat × Nat} {out : List Nat} {c : Bool}
    (h : exec i s = s.completeWithFlag dst r) (hout : r.1 = out) (hc : carryFlag r.2 = c) :
    ∃ t, exec i s = .next t ∧ CommandDone s t dst out (some c) := by
  subst hout hc
  exact ⟨_, h, .of_completeWithFlag rfl⟩

/-- The two sources of ADD and SUB are arrays of `len` W-bit limbs. -/
theorem sources_sized (hs : s.wf = true) (ha : s.om.readMany src1 len = .ok a) (hb : s.om.readMany src2 len = .ok b) :
    a.length = len ∧ a.length = b.length ∧ LimbsFit s.ps.W a ∧ LimbsFit s.ps.W b := by
  obtain ⟨-, hfits, -⟩ := s.wf_iff.mp hs
  have hla := Memory.readMany_length ha
  exact ⟨hla, hla.trans (Memory.readMany_length hb).symm, Memory.readMany_fits hfits ha, Memory.readMany_fits hfits hb⟩

end exec

/-- Settles O35: the rejections are those of a command of two sources; an admitted ADD completes with the adder's limbs and carry,
which are the sum's by rule R91's equation. -/
theorem addWritesSumAndCarry : Obligations.AddWritesSumAndCarry := by
  intro dst src1 src2 len s hs
  have hshape (hl : 1 ≤ len) : shapeFits (.add dst src1 src2 len) = true :=
    bne_iff_ne.mpr (Nat.one_le_iff_ne_zero.mp hl)
  refine ⟨fun hd h1 h2 hl => ?_, fun hl => ?_, fun hl hout => ?_, fun hl h1 h2 hd => ⟨fun hov => ?_, ?_⟩⟩
  · exact decode_ofNat ((Instr.wellFormed_iff _).mpr ⟨hd, h1, h2, hl, Nat.two_pow_pos 8⟩)
      (by simp [Instr.op, Op.code, Instr.fields])
  · exact exec_badShape (by simp [shapeFits, hl])
  · exact exec_badAddr_of_two_sources rfl rfl (hshape hl) hout
  · exact exec_badAlias_of_two_sources rfl rfl (hshape hl) h1 h2 hd hov
  · intro ho1 ho2 a b ha hb
    obtain ⟨rfl, hab, -, -⟩ := sources_sized hs ha hb
    have hok := admission_ok_of_two_sources rfl rfl (hshape hl) h1 h2 hd ho1 ho2
    exact exists_done_of_completeWithFlag (exec_add_of_reads hok ha hb) (addL_eq_toLimbs hab) (addL_carryFlag hab)

/-- Settles O36: the rejections are ADD's; an admitted SUB completes with the subtractor's limbs and borrow, which are the
difference's by rule R93's equation, each limb being a W-bit value. -/
theorem subWritesDifferenceAndBorrow : Obligations.SubWritesDifferenceAndBorrow := by
  intro dst src1 src2 len s hs
  have hshape (hl : 1 ≤ len) : shapeFits (.sub dst src1 src2 len) = true :=
    bne_iff_ne.mpr (Nat.one_le_iff_ne_zero.mp hl)
  refine ⟨fun hd h1 h2 hl => ?_, fun hl => ?_, fun hl hout => ?_, fun hl h1 h2 hd => ⟨fun hov => ?_, ?_⟩⟩
  · exact decode_ofNat ((Instr.wellFormed_iff _).mpr ⟨hd, h1, h2, hl, Nat.two_pow_pos 8⟩)
      (by simp [Instr.op, Op.code, Instr.fields])
  · exact exec_badShape (by simp [shapeFits, hl])
  · exact exec_badAddr_of_two_sources rfl rfl (hshape hl) hout
  · exact exec_badAlias_of_two_sources rfl rfl (hshape hl) h1 h2 hd hov
  · intro ho1 ho2 a b ha hb
    obtain ⟨rfl, hab, hfa, hfb⟩ := sources_sized hs ha hb
    have hok := admission_ok_of_two_sources rfl rfl (hshape hl) h1 h2 hd ho1 ho2
    exact exists_done_of_completeWithFlag (exec_sub_of_reads hok ha hb) (subL_eq_toLimbs hab hfa hfb)
      (subL_borrowFlag hab hfa hfb)

end Machine
end Sys2Proof
end

section
/-! PROOFS. The schoolbook multiply-accumulate row (41_schoolbook_mac.md rules R102 and R104). The rows of the schoolbook product
never overflow the part of the output they accumulate into; the command MAC is one row, its result and its carry out. -/

namespace Sys2Proof.Machine

section row
variable {W : Nat}

/-- A row whose sum fits its accumulator has no carry out. -/
theorem macRow_val_of_lt {x : Nat} {ys as : List Nat} (hl : ys.length ≤ as.length)
    (hlt : val W as + x * val W ys < 2 ^ (W * as.length)) : val W (macRow W x ys as).1 = val W as + x * val W ys := by
  have hval := macRow_val (W := W) x hl
  rcases Nat.eq_zero_or_pos (macRow W x ys as).2 with hc | hc
  · simpa [hc] using hval
  · have := Nat.le_mul_of_pos_right (2 ^ (W * as.length)) hc
    omega

/-- The rows over xs add xs * b to an accumulator that can hold the sum: row by row, its lowest limb is then final and the
limbs above can hold what is left. -/
theorem smulRows_val {xs b out : List Nat} (hl : xs.length + b.length ≤ out.length)
    (hlt : val W out + val W xs * val W b < 2 ^ (W * out.length)) :
    val W (smulRows W xs b out) = val W out + val W xs * val W b := by
  induction xs generalizing out with
  | nil => simp [smulRows]
  | cons x xs ih =>
    rw [List.length_cons] at hl
    rw [val_cons, add_mul, mul_assoc] at hlt ⊢
    have hlen := macRow_length (W := W) x (ys := b) (as := out) (by omega)
    have hrow := macRow_val_of_lt (W := W) (x := x) (ys := b) (as := out) (by omega) (by omega)
    cases hr : (macRow W x b out).1 with
    | nil => simp only [hr, List.length_nil] at hlen; omega
    | cons o rest =>
      rw [hr, List.length_cons] at hlen
      rw [hr, val_cons] at hrow
      have hrest : val W rest + val W xs * val W b < 2 ^ (W * rest.length) := by
        rw [← hlen, mul_add_one, pow_add, mul_comm (2 ^ (W * rest.length))] at hlt
        refine Nat.lt_of_mul_lt_mul_left (a := 2 ^ W) ?_
        rw [mul_add]
        omega
      simp only [smulRows, hr, val_cons]
      rw [ih (by omega) hrest, mul_add]
      omega

theorem smul_val {a b : List Nat} (h : a.length = b.length) (ha : LimbsFit W a) (hb : LimbsFit W b) :
    val W (smul W a b) = val W a * val W b := by
  have hlt : val W a * val W b < 2 ^ (W * (2 * a.length)) := by
    rw [two_mul, mul_add, pow_add]
    exact Nat.mul_lt_mul'' (val_lt ha) (h ▸ val_lt hb)
  rw [smul, smulRows_val (by simp; omega) (by simpa using hlt), val_replicate_zero, zero_add]

end row

/-- Settles O30, by the value of the rows into the zeroed output, which can hold any product of n-limb numbers. -/
theorem schoolbookProductIsExact : Obligations.SchoolbookProductIsExact := fun _ a b h ha hb =>
  ⟨smul_length h, smul_fit a b, smul_val h ha hb⟩

/-- An admitted command that reads an unwritten cell faults (60_exceptions.md rule R158). -/
theorem exec_fault_of_unwritten {s : State} {i : Instr} {x : Buffer} {j : Nat} (ha : s.admission i = .ok)
    (hx : x ∈ readBuffers s.ps.N i) (hj : j < x.len) (hnone : s.om.read (x.base + j) = none) :
    ∃ a, exec i s = .fault (.unwrittenCell a) := by
  cases he : exec i s with
  | next t =>
    have hsome := (s.om.readMany_isOk_iff x.base x.len).mp (exec_next_reads ha he x hx) j hj
    simp [hnone] at hsome
  | fault f =>
    obtain ⟨y, -, hy⟩ := exec_fault ha he
    obtain ⟨j', -, -, -, rfl⟩ := Memory.readMany_error hy
    exact ⟨_, rfl⟩
  | refused r => exact absurd he exec_not_refused

theorem Memory.readMany_one {m : Memory} {a v : Nat} (h : m.read a = some v) : m.readMany a 1 = .ok [v] := by
  simp [Memory.readMany, h]

section exec
variable {s : State} {acc x y k m xv : Nat} {yv av : List Nat}

theorem shapeFits_mac : shapeFits (.mac acc x y k m) = true ↔ 1 ≤ k ∧ k < m := by
  simp [shapeFits, Nat.one_le_iff_ne_zero]

theorem exec_mac_of_reads (h : s.admission (.mac acc x y k m) = .ok) (hx : s.om.read x = some xv)
    (hy : s.om.readMany y k = .ok yv) (hacc : s.om.readMany acc m = .ok av) :
    exec (.mac acc x y k m) s = s.completeWithFlag acc (macRow s.ps.W xv yv av) := by
  rw [exec, execMac, State.admitted_ok h, State.withBuffer_ok (Memory.readMany_one hx), State.withBuffer_ok hy,
    State.withBuffer_ok hacc, List.headD_cons]

end exec

/-- Settles O37: the rejections are those of a command of two read-only buffers; an admitted MAC also reads its accumulator, and
completes with the row's limbs and carry, which are the sum's by rule R101's equation. -/
theorem macAccumulatesTheRow : Obligations.MacAccumulatesTheRow := by
  intro acc x y k m s _
  refine ⟨fun hacc hx hy hk hm => ?_, fun hshape => ?_, fun hk hkm hout => ?_,
    fun hk hkm hx hy hacc => ⟨fun hov => ?_, fun hox hoy => ?_, fun hox hoy xv yv av hxv hyv hav => ?_⟩⟩
  · exact decode_ofNat ((Instr.wellFormed_iff _).mpr ⟨hacc, hx, hy, hk, hm⟩) (by simp [Instr.op, Op.code, Instr.fields])
  · refine exec_badShape (Bool.eq_false_iff.mpr fun hfits => ?_)
    have := shapeFits_mac.mp hfits
    omega
  · exact exec_badAddr_of_two_sources rfl rfl (shapeFits_mac.mpr ⟨hk, hkm⟩) hout
  · exact exec_badAlias_of_two_sources rfl rfl (shapeFits_mac.mpr ⟨hk, hkm⟩) hx hy hacc hov
  · rintro ⟨j, hj, hnone⟩
    have hok := admission_ok_of_two_sources rfl rfl (shapeFits_mac.mpr ⟨hk, hkm⟩) hx hy hacc hox hoy
    have hread : ⟨acc, m⟩ ∈ readBuffers s.ps.N (.mac acc x y k m) := by simp [readBuffers, inPlace, writtenBuffer]
    exact exec_fault_of_unwritten hok hread hj hnone
  · have hok := admission_ok_of_two_sources rfl rfl (shapeFits_mac.mpr ⟨hk, hkm⟩) hx hy hacc hox hoy
    have hlen : yv.length ≤ av.length := by
      rw [Memory.readMany_length hyv, Memory.readMany_length hav]
      omega
    obtain rfl := Memory.readMany_length hav
    have hl := macRow_length (W := s.ps.W) xv hlen
    have hfit := macRow_fit (W := s.ps.W) xv yv av
    have hval := macRow_val (W := s.ps.W) xv hlen
    exact exists_done_of_completeWithFlag (exec_mac_of_reads hok hxv hyv hav) (eq_toLimbs_of_carry hl hfit hval)
      (carryFlag_of_carry hl hfit hval)

end Sys2Proof.Machine
end

section
/-! PROOFS. The Karatsuba multiplier (42_karatsuba.md rules R110 to R117), along rule R114: the product of the two half sums
fits in 2h+1 limbs, so no addition that forms it carries out; it is at least lo + hi, so neither subtraction borrows; what is
recombined is the whole product, so the last addition has no carry. The command KMUL writes that product. -/

namespace Sys2Proof.Machine

section arithmetic
variable {W : Nat}

/-- A number that fits its array has no carry out: what an addition (rule R91) drops is then zero. -/
theorem eq_of_carry_of_lt {B c u v : Nat} (h : v + B * c = u) (hu : u < B) : v = u := by
  rcases Nat.eq_zero_or_pos c with rfl | hc
  · simpa using h
  · have := Nat.le_mul_of_pos_right B hc
    omega

theorem addFrom_val_of_lt {i : Nat} {x y : List Nat} (h : x.length = i + y.length)
    (hlt : val W x + 2 ^ (W * i) * val W y < 2 ^ (W * x.length)) :
    val W (addFrom W i x y) = val W x + 2 ^ (W * i) * val W y :=
  eq_of_carry_of_lt (addFrom_val h) hlt

theorem subL_val_of_le {a b : List Nat} (h : a.length = b.length) (ha : LimbsFit W a) (hb : LimbsFit W b)
    (hle : val W b ≤ val W a) : val W (subL W a b).1 + val W b = val W a := by
  have hlt : val W (subL W a b).1 < 2 ^ (W * a.length) := subL_length (W := W) h ▸ val_lt (subL_fit a b)
  obtain ⟨hsub, hbw⟩ := subL_val h ha hb
  rcases Nat.le_one_iff_eq_zero_or_eq_one.mp hbw with hbw | hbw <;> rw [hbw] at hsub <;> omega

theorem val_append_zeros (xs : List Nat) (n : Nat) : val W (xs ++ List.replicate n 0) = val W xs := by
  simp [val_append]

theorem limbsFit_append_zero {xs : List Nat} (h : LimbsFit W xs) : LimbsFit W (xs ++ [0]) :=
  limbsFit_append h (by simp [LimbsFit])

/-- x added to the top limb of an array that can hold the sum. -/
theorem val_addToTop {n x : Nat} {m : List Nat} (hl : m.length = n + 1)
    (hlt : val W m + 2 ^ (W * n) * x < 2 ^ (W * (n + 1))) :
    val W (m.take n ++ [(m.getD n 0 + x) % 2 ^ W]) = val W m + 2 ^ (W * n) * x := by
  have htop : m.drop n = [m.getD n 0] := by
    rw [List.drop_eq_getElem_cons (by omega), List.drop_eq_nil_of_le (by omega), List.getD_eq_getElem _ _ (by omega)]
  have hm := val_take_add_drop (W := W) m (n := n) (by omega)
  rw [htop, val_cons, val_nil, mul_zero, add_zero] at hm
  have hfit : m.getD n 0 + x < 2 ^ W := by
    refine Nat.lt_of_mul_lt_mul_left (a := 2 ^ (W * n)) ?_
    rw [← pow_add, ← mul_add_one, mul_add]
    omega
  rw [Nat.mod_eq_of_lt hfit, val_append, List.length_take, Nat.min_eq_left (by omega), hm]
  simp [mul_add, add_assoc]

end arithmetic

/-- An array is the exact product of two: rule R110's equation, in limbs. -/
structure ExactProduct (W : Nat) (a b out : List Nat) : Prop where
  length : out.length = 2 * a.length
  fit : LimbsFit W out
  val_eq : val W out = val W a * val W b

section exactProduct
variable {W : Nat} {a b out : List Nat}

theorem ExactProduct.eq_toLimbs (h : ExactProduct W a b out) :
    out = toLimbs W (2 * a.length) (val W a * val W b) :=
  eq_toLimbs_of_carry (c := 0) h.length h.fit h.val_eq

theorem ExactProduct.length_append_zero {n : Nat} (h : ExactProduct W a b out) (ha : a.length = n) :
    (out ++ [0]).length = 2 * n + 1 := by
  simp [h.length, ha]

theorem ExactProduct.unique {out' : List Nat} (h : ExactProduct W a b out) (h' : ExactProduct W a b out') :
    out = out' :=
  val_inj (h.length.trans h'.length.symm) h.fit h'.fit (h.val_eq.trans h'.val_eq.symm)

theorem smul_exact (hab : a.length = b.length) (fa : LimbsFit W a) (fb : LimbsFit W b) :
    ExactProduct W a b (smul W a b) :=
  ⟨smul_length hab, smul_fit a b, smul_val hab fa fb⟩

end exactProduct

/-- A "plus" buffer of rule R111: the h limbs of a sum of two halves, and the extra bit. -/
structure PlusBuffer (W h : Nat) (s : List Nat × Nat) : Prop where
  length : s.1.length = h
  fit : LimbsFit W s.1
  bit : s.2 ≤ 1

/-- The number a "plus" buffer holds, SA and SB of rule R114. -/
def plusVal (W h : Nat) (s : List Nat × Nat) : Nat := val W s.1 + 2 ^ (W * h) * s.2

/-- One correction of `mid` in rule R111: the limbs of one sum, under the mask of the other's extra bit, added from limb h
on. -/
def addMasked (W h c : Nat) (s m : List Nat) : List Nat := addFrom W h m (maskLimbs W c s ++ [0])

/-- `mid` of rule R111 before lo and hi are subtracted: the product of the two "plus" buffers in 2h+1 limbs, from the product
m0 of their limbs. -/
def plusProduct (W h : Nat) (sa sb : List Nat × Nat) (m0 : List Nat) : List Nat :=
  let m2 := addMasked W h sb.2 sa.1 (addMasked W h sa.2 sb.1 (m0 ++ [0]))
  m2.take (2 * h) ++ [(m2.getD (2 * h) 0 + (sa.2 &&& sb.2)) % 2 ^ W]

theorem karatsubaMid_eq (W h : Nat) (sa sb : List Nat × Nat) (m0 lo hi : List Nat) :
    karatsubaMid W h sa sb m0 lo hi = (subL W (subL W (plusProduct W h sa sb m0) (lo ++ [0])).1 (hi ++ [0])).1 := rfl

section karatsuba
variable {W h : Nat} {sa sb : List Nat × Nat} {m0 lo hi : List Nat}

theorem addL_plusBuffer {x y : List Nat} (hx : x.length = h) (hy : y.length = h) (fx : LimbsFit W x) (fy : LimbsFit W y) :
    PlusBuffer W h (addL W x y) :=
  ⟨(addL_length (hx.trans hy.symm)).trans hx, addL_fit x y, addL_carry fx fy⟩

theorem plusVal_addL {x y : List Nat} (hx : x.length = h) (hy : y.length = h) :
    plusVal W h (addL W x y) = val W x + val W y := by
  subst hx
  exact addL_val hy.symm

theorem PlusBuffer.plusVal_lt (hs : PlusBuffer W h sa) : plusVal W h sa < 2 * 2 ^ (W * h) := by
  have hlt : val W sa.1 < 2 ^ (W * h) := hs.length ▸ val_lt hs.fit
  have hbit := Nat.mul_le_mul_left (2 ^ (W * h)) hs.bit
  unfold plusVal
  omega

/-- The bound of rule R114 (2), the one place that needs W >= 2. -/
theorem PlusBuffer.plusVal_mul_lt (hW : 2 ≤ W) (ha : PlusBuffer W h sa) (hb : PlusBuffer W h sb) :
    plusVal W h sa * plusVal W h sb < 2 ^ (W * (2 * h + 1)) := by
  calc plusVal W h sa * plusVal W h sb < (2 * 2 ^ (W * h)) * (2 * 2 ^ (W * h)) := Nat.mul_lt_mul'' ha.plusVal_lt hb.plusVal_lt
    _ = 2 ^ (W * (2 * h)) * 2 ^ 2 := by ring
    _ ≤ 2 ^ (W * (2 * h)) * 2 ^ W := Nat.mul_le_mul_left _ (Nat.pow_le_pow_right (by norm_num) hW)
    _ = 2 ^ (W * (2 * h + 1)) := by rw [← pow_add, mul_add_one]

theorem bit_and_eq_mul {x y : Nat} (hx : x ≤ 1) (hy : y ≤ 1) : x &&& y = x * y := by
  rcases Nat.le_one_iff_eq_zero_or_eq_one.mp hx with rfl | rfl <;>
    rcases Nat.le_one_iff_eq_zero_or_eq_one.mp hy with rfl | rfl <;> rfl

theorem addMasked_length {c : Nat} {s m : List Nat} (hs : s.length = h) (hm : m.length = 2 * h + 1) :
    (addMasked W h c s m).length = 2 * h + 1 := by
  rw [addMasked, addFrom_length, hm]
  simp [hs, hm]
  omega

theorem addMasked_fit (c : Nat) (s : List Nat) {m : List Nat} (hm : LimbsFit W m) : LimbsFit W (addMasked W h c s m) :=
  addFrom_fit h _ hm

theorem addMasked_val {c : Nat} {s m : List Nat} (hs : s.length = h) (fs : LimbsFit W s) (hc : c ≤ 1)
    (hm : m.length = 2 * h + 1) (hlt : val W m + 2 ^ (W * h) * (c * val W s) < 2 ^ (W * (2 * h + 1))) :
    val W (addMasked W h c s m) = val W m + 2 ^ (W * h) * (c * val W s) := by
  have hy : val W (maskLimbs W c s ++ [0]) = c * val W s := by
    simp [val_append, maskLimbs_val hc fs]
  rw [addMasked, addFrom_val_of_lt, hy]
  · simp [hs, hm]
    omega
  · rwa [hy, hm]

theorem plusProduct_fit (fm0 : LimbsFit W m0) : LimbsFit W (plusProduct W h sa sb m0) :=
  limbsFit_append (limbsFit_take (addMasked_fit _ _ (addMasked_fit _ _ (limbsFit_append_zero fm0))) _)
    (by simp [LimbsFit, Nat.mod_lt])

section plus
variable (ha : PlusBuffer W h sa) (hb : PlusBuffer W h sb) (hm0 : ExactProduct W sa.1 sb.1 m0)
include ha hb hm0

theorem corrections_length : (addMasked W h sb.2 sa.1 (addMasked W h sa.2 sb.1 (m0 ++ [0]))).length = 2 * h + 1 :=
  addMasked_length ha.length (addMasked_length hb.length (hm0.length_append_zero ha.length))

theorem plusProduct_length : (plusProduct W h sa sb m0).length = 2 * h + 1 := by
  simp [plusProduct, corrections_length ha hb hm0]

/-- Rule R114 (2): with W >= 2 the three corrections of m0 give SA * SB, no carry dropped. -/
theorem plusProduct_val (hW : 2 ≤ W) : val W (plusProduct W h sa sb m0) = plusVal W h sa * plusVal W h sb := by
  have hlt := PlusBuffer.plusVal_mul_lt hW ha hb
  have hsum : plusVal W h sa * plusVal W h sb =
      val W (m0 ++ [0]) + 2 ^ (W * h) * (sa.2 * val W sb.1) + 2 ^ (W * h) * (sb.2 * val W sa.1) +
        2 ^ (W * (2 * h)) * (sa.2 * sb.2) := by
    simp only [plusVal, val_append, val_cons, val_nil, hm0.val_eq]
    ring
  have hl := hm0.length_append_zero ha.length
  have h1 := addMasked_val (W := W) hb.length hb.fit ha.bit hl (by omega)
  have h2 := addMasked_val ha.length ha.fit hb.bit (addMasked_length (W := W) (c := sa.2) hb.length hl) (by omega)
  rw [plusProduct, bit_and_eq_mul ha.bit hb.bit, val_addToTop (corrections_length ha hb hm0) (by omega)]
  omega

end plus
end karatsuba

section recursion
variable {W h : Nat} {a0 a1 b0 b1 lo hi m0 : List Nat}

section step
variable (ha0 : a0.length = h) (ha1 : a1.length = h) (hlo : ExactProduct W a0 b0 lo) (hhi : ExactProduct W a1 b1 hi)
include ha0 ha1 hlo hhi

/-- Rule R114 (3): SA * SB is at least lo + hi, so neither subtraction borrows and the cross terms are left. -/
theorem karatsubaMid_val {sa sb : List Nat × Nat} (hW : 2 ≤ W) (hsa : PlusBuffer W h sa) (hsb : PlusBuffer W h sb)
    (hm0 : ExactProduct W sa.1 sb.1 m0) (hva : plusVal W h sa = val W a0 + val W a1)
    (hvb : plusVal W h sb = val W b0 + val W b1) :
    val W (karatsubaMid W h sa sb m0 lo hi) = val W a0 * val W b1 + val W a1 * val W b0 := by
  have hlen := plusProduct_length hsa hsb hm0
  have hval := plusProduct_val hsa hsb hm0 hW
  rw [hva, hvb, add_mul, mul_add, mul_add] at hval
  have hlenlo : (plusProduct W h sa sb m0).length = (lo ++ [0]).length := hlen.trans (hlo.length_append_zero ha0).symm
  have hlenhi : (subL W (plusProduct W h sa sb m0) (lo ++ [0])).1.length = (hi ++ [0]).length := by
    rw [subL_length hlenlo, hlen, hhi.length_append_zero ha1]
  have vlo : val W (lo ++ [0]) = val W a0 * val W b0 := (val_append_zeros lo 1).trans hlo.val_eq
  have vhi : val W (hi ++ [0]) = val W a1 * val W b1 := (val_append_zeros hi 1).trans hhi.val_eq
  have h1 := subL_val_of_le hlenlo (plusProduct_fit hm0.fit) (limbsFit_append_zero hlo.fit) (by omega)
  have h2 := subL_val_of_le hlenhi (subL_fit _ _) (limbsFit_append_zero hhi.fit) (by omega)
  rw [karatsubaMid_eq]
  omega

/-- Rule R114 (4): what is recombined is the whole product, which 4h limbs hold, so the addition has no carry out. -/
theorem karatsubaJoin_val {mid : List Nat} (hpos : 1 ≤ h) (hb0 : b0.length = h) (hb1 : b1.length = h)
    (fa : LimbsFit W (a0 ++ a1)) (fb : LimbsFit W (b0 ++ b1)) (hmid : mid.length = 2 * h + 1)
    (hval : val W mid = val W a0 * val W b1 + val W a1 * val W b0) :
    val W (karatsubaJoin W h lo mid hi) = val W (a0 ++ a1) * val W (b0 ++ b1) := by
  have hlenlo : lo.length = 2 * h := ha0 ▸ hlo.length
  have hlenhi : hi.length = 2 * h := ha1 ▸ hhi.length
  have hsum : val W (lo ++ hi) + 2 ^ (W * h) * val W mid = val W (a0 ++ a1) * val W (b0 ++ b1) := by
    simp only [val_append, ha0, hb0, hlenlo, hlo.val_eq, hhi.val_eq, hval]
    ring
  have hlt : val W (a0 ++ a1) * val W (b0 ++ b1) < 2 ^ (W * (4 * h)) := by
    have h2 : (a0 ++ a1).length = 2 * h ∧ (b0 ++ b1).length = 2 * h := by simp [ha0, ha1, hb0, hb1, two_mul]
    calc val W (a0 ++ a1) * val W (b0 ++ b1) < 2 ^ (W * (2 * h)) * 2 ^ (W * (2 * h)) :=
          Nat.mul_lt_mul'' (h2.1 ▸ val_lt fa) (h2.2 ▸ val_lt fb)
      _ = 2 ^ (W * (4 * h)) := by ring
  have hlen : (lo ++ hi).length = 4 * h := by
    rw [List.length_append]
    omega
  rw [karatsubaJoin, addFrom_val_of_lt, val_append_zeros, hsum]
  · simp [hlenlo, hlenhi, hmid]
    omega
  · rwa [val_append_zeros, hsum, hlen]

end step

/-- The recursion of rule R111 on an even limb count, the operands written as their halves. -/
theorem km_succ_append (d : Nat) (ha0 : a0.length = h) (ha1 : a1.length = h) (hb0 : b0.length = h) :
    km W (d + 1) (a0 ++ a1) (b0 ++ b1) =
      karatsubaJoin W h (km W d a0 b0)
        (karatsubaMid W h (addL W a0 a1) (addL W b0 b1) (km W d (addL W a0 a1).1 (addL W b0 b1).1) (km W d a0 b0)
          (km W d a1 b1)) (km W d a1 b1) := by
  have hlen : (a0 ++ a1).length = 2 * h := by simp [ha0, ha1, two_mul]
  have heven : ¬2 * h % 2 = 1 := by omega
  have hhalf : 2 * h / 2 = h := by omega
  rw [km, hlen, if_neg heven, hhalf]
  simp only [List.take_left' ha0, List.drop_left' ha0, List.take_left' hb0, List.drop_left' hb0]

theorem exists_halves {a : List Nat} (ha : a.length = 2 * h) (fa : LimbsFit W a) :
    ∃ a0 a1, a = a0 ++ a1 ∧ a0.length = h ∧ a1.length = h ∧ LimbsFit W a0 ∧ LimbsFit W a1 :=
  ⟨a.take h, a.drop h, (List.take_append_drop h a).symm, by simp; omega, by simp; omega, limbsFit_take fa h,
    limbsFit_drop fa h⟩

/-- Rule R114, by induction on the depth. -/
theorem km_exact (hW : 2 ≤ W) (d : Nat) {a b : List Nat} (hpos : 1 ≤ a.length) (hab : a.length = b.length)
    (fa : LimbsFit W a) (fb : LimbsFit W b) : ExactProduct W a b (km W d a b) := by
  induction d generalizing a b with
  | zero => exact smul_exact hab fa fb
  | succ d ih =>
    rcases Nat.even_or_odd' a.length with ⟨h, heven | hodd⟩
    · refine ⟨km_length _ hab, km_fit _ a b, ?_⟩
      obtain ⟨a0, a1, rfl, ha0, ha1, fa0, fa1⟩ := exists_halves heven fa
      obtain ⟨b0, b1, rfl, hb0, hb1, fb0, fb1⟩ := exists_halves (hab.symm.trans heven) fb
      have hsa := addL_plusBuffer ha0 ha1 fa0 fa1
      have hsb := addL_plusBuffer hb0 hb1 fb0 fb1
      have hpos : 1 ≤ h := by omega
      have hlo := ih (hpos.trans_eq ha0.symm) (ha0.trans hb0.symm) fa0 fb0
      have hhi := ih (hpos.trans_eq ha1.symm) (ha1.trans hb1.symm) fa1 fb1
      have hm0 := ih (hpos.trans_eq hsa.length.symm) (hsa.length.trans hsb.length.symm) hsa.fit hsb.fit
      have hmid := karatsubaMid_val ha0 ha1 hlo hhi hW hsa hsb hm0 (plusVal_addL ha0 ha1) (plusVal_addL hb0 hb1)
      have hlmid := karatsubaMid_length (W := W) hsa.length hsb.length (hsa.length ▸ hm0.length) (ha0 ▸ hlo.length)
        (ha1 ▸ hhi.length)
      rw [km_succ_append d ha0 ha1 hb0]
      exact karatsubaJoin_val ha0 ha1 hlo hhi hpos hb0 hb1 fa fb hlmid hmid
    · rw [km, if_pos (by omega)]
      exact smul_exact hab fa fb

end recursion

/-- Settles O31, by rule R114. -/
theorem karatsubaProductIsExact : Obligations.KaratsubaProductIsExact := by
  intro W d a b hW hpos hab fa fb
  obtain ⟨hlen, hfit, hval⟩ := km_exact hW d hpos hab fa fb
  exact ⟨hlen, hfit, hval⟩

/-- Settles O32: both multipliers give the exact product, whatever the depth, and its limbs are unique. -/
theorem karatsubaMatchesSchoolbook : Obligations.KaratsubaMatchesSchoolbook := by
  intro W d d' a b hW hpos hab fa fb
  have hexact (d : Nat) := km_exact hW d hpos hab fa fb
  exact ⟨(hexact d).unique (smul_exact hab fa fb), (hexact d).unique (hexact d')⟩

section exec
variable {s : State} {dst src1 src2 : Nat} {a b : List Nat}

theorem exec_kmul_of_reads (h : s.admission (.kmul dst src1 src2) = .ok) (ha : s.om.readMany src1 s.ps.N = .ok a)
    (hb : s.om.readMany src2 s.ps.N = .ok b) :
    exec (.kmul dst src1 src2) s = s.complete dst (km s.ps.W s.ps.info.KDEPTH a b) := by
  rw [exec, execKmul, State.admitted_ok h, State.withBuffer_ok ha, State.withBuffer_ok hb]

/-- The OK clause of a command that leaves C: the limbs it completes with, computed. -/
theorem exists_done_of_complete {i : Instr} {xs out : List Nat} (h : exec i s = s.complete dst xs) (hout : xs = out) :
    ∃ t, exec i s = .next t ∧ CommandDone s t dst out s.c := by
  subst hout
  exact ⟨_, h, .of_complete rfl⟩

end exec

/-- Settles O38: the rejections are those of a command of two sources, KMUL having no shape to reject; an admitted KMUL completes
with the Karatsuba product at the bundle's depth, which is exact because every bundle has W >= 2 and N >= 1 (rule R10). -/
theorem kmulWritesTheExactProduct : Obligations.KmulWritesTheExactProduct := by
  intro dst src1 src2 s hs
  refine ⟨fun hd h1 h2 => ?_, fun hout => ?_, fun h1 h2 hd => ⟨fun hov => ?_, fun ho1 ho2 a b ha hb => ?_⟩⟩
  · exact decode_ofNat ((Instr.wellFormed_iff _).mpr ⟨hd, h1, h2, Nat.two_pow_pos 8, Nat.two_pow_pos 8⟩)
      (by simp [Instr.op, Op.code, Instr.fields])
  · exact exec_badAddr_of_two_sources rfl rfl rfl hout
  · exact exec_badAlias_of_two_sources rfl rfl rfl h1 h2 hd hov
  · obtain ⟨hW, hN, -⟩ := (ParamSet.admissible_iff _ _).mp (State.admissible_of_wf hs)
    obtain ⟨hla, hab, fa, fb⟩ := sources_sized hs ha hb
    have hok := admission_ok_of_two_sources (i := .kmul dst src1 src2) rfl rfl rfl h1 h2 hd ho1 ho2
    have hexact := km_exact hW s.ps.info.KDEPTH (hla ▸ hN) hab fa fb
    exact exists_done_of_complete (exec_kmul_of_reads hok ha hb) (hla ▸ hexact.eq_toLimbs)

end Sys2Proof.Machine
end

section
/-! PROOFS. The derived constant K.NPRIME (43_montgomery.md rule R121): `negInverse` is the negated inverse of an odd p modulo
2^k, the one number that makes p * n + 1 divisible by 2^k, and multiplying by it gives the one factor that makes t + m*p
divisible. -/

namespace Sys2Proof

theorem ParamSet.two_pow_dvd_p_add_one {q : ParamSet} {n : Nat} (hn : n ≤ q.EA) : 2 ^ n ∣ q.p + 1 := by
  rw [q.p_add_one]
  exact (pow_dvd_pow 2 hn).mul_right _

/-- p + 1 is even (rule R10: EA >= 1). -/
theorem ParamSet.p_odd {q : ParamSet} (hEA : 1 ≤ q.EA) : q.p % 2 = 1 := by
  have heven := ParamSet.two_pow_dvd_p_add_one hEA
  omega

namespace Machine

section negInverse
variable {p : Nat}

theorem negInverse_lt (p k : Nat) : negInverse p k < 2 ^ k := by
  induction k with
  | zero => exact Nat.one_pos
  | succ k ih =>
    rw [negInverse, pow_succ]
    split <;> omega

/-- If the bits so far leave p * x + 1 an odd multiple of 2^k, adding the bit 2^k to x adds another odd multiple. -/
theorem two_pow_dvd_negInverse (hp : p % 2 = 1) (k : Nat) : 2 ^ k ∣ p * negInverse p k + 1 := by
  induction k with
  | zero => exact one_dvd _
  | succ k ih =>
    rw [negInverse]
    split
    · next h => exact Nat.dvd_of_mod_eq_zero h
    · next h =>
      obtain ⟨c, hc⟩ := ih
      have hodd : c % 2 = 1 := by
        refine Nat.mod_two_ne_zero.mp fun heven => h (Nat.mod_eq_zero_of_dvd ?_)
        rw [hc, pow_succ]
        exact Nat.mul_dvd_mul_left _ (Nat.dvd_of_mod_eq_zero heven)
      have hsum : p * (negInverse p k + 2 ^ k) + 1 = 2 ^ k * (c + p) := by linear_combination hc
      rw [hsum, pow_succ]
      exact Nat.mul_dvd_mul_left _ (by omega)

theorem coprime_two_pow (hp : p % 2 = 1) (k : Nat) : Nat.Coprime (2 ^ k) p :=
  (Nat.coprime_two_left.mpr (Nat.odd_iff.mpr hp)).pow_left k

/-- The Montgomery factor of t: t times the negated inverse makes t + m*p divisible. -/
theorem dvd_add_factor_mul {M n : Nat} (h : M ∣ p * n + 1) (t : Nat) : M ∣ t + t * n % M * p := by
  have hfactor : t + t * n % M * p ≡ t * (p * n + 1) [MOD M] :=
    calc t + t * n % M * p ≡ t + t * n * p [MOD M] := ((Nat.mod_modEq _ _).mul_right _).add_left _
      _ = t * (p * n + 1) := by ring
  exact hfactor.dvd_iff (dvd_refl M) |>.mpr (h.mul_left t)

/-- There is one such factor below M. -/
theorem eq_of_dvd_add_mul {M t m m' : Nat} (hp : Nat.Coprime M p) (hm : m < M) (hm' : m' < M) (h : M ∣ t + m * p)
    (h' : M ∣ t + m' * p) : m = m' := by
  have hadd : t + m * p ≡ t + m' * p [MOD M] :=
    (Nat.modEq_zero_iff_dvd.mpr h).trans (Nat.modEq_zero_iff_dvd.mpr h').symm
  exact ((hadd.add_left_cancel' t).cancel_right_of_coprime hp).eq_of_lt_of_lt hm hm'

theorem eq_negInverse {k n : Nat} (hp : p % 2 = 1) (hn : n < 2 ^ k) (h : 2 ^ k ∣ p * n + 1) : n = negInverse p k := by
  refine eq_of_dvd_add_mul (t := 1) (coprime_two_pow hp k) hn (negInverse_lt p k) ?_ ?_
  · rwa [add_comm, mul_comm]
  · rw [add_comm, mul_comm]
    exact two_pow_dvd_negInverse hp k

end negInverse

/-- Settles O29: `negInverse` at the bundle's prime, which is odd, and -1 modulo B when 2^W divides p + 1. -/
theorem nprimeIsTheNegatedInverse : Obligations.NprimeIsTheNegatedInverse := by
  intro s hs
  obtain ⟨hW, -, hEA, -⟩ := (ParamSet.admissible_iff _ _).mp (State.admissible_of_wf hs)
  have hodd : s.ps.p % 2 = 1 := ParamSet.p_odd hEA
  have hunique {n : Nat} (hn : n < 2 ^ s.ps.W) (h : 2 ^ s.ps.W ∣ s.ps.p * n + 1) : n = s.ps.nprime :=
    eq_negInverse hodd hn h
  refine ⟨hodd, negInverse_lt _ _, Nat.mod_eq_zero_of_dvd (two_pow_dvd_negInverse hodd _),
    fun n hn h => hunique hn (Nat.dvd_of_mod_eq_zero h), fun hle => ?_, ?_⟩
  · have hdvd : 2 ^ s.ps.W ∣ s.ps.p + 1 := ParamSet.two_pow_dvd_p_add_one hle
    have hone : 1 < 2 ^ s.ps.W := Nat.one_lt_two_pow (by omega : s.ps.info.W ≠ 0)
    exact ⟨Nat.mod_eq_zero_of_dvd hdvd, (hunique hone (by rwa [mul_one])).symm⟩
  · rintro (h | h) <;> rw [h] <;> decide

end Machine
end Sys2Proof
end

section
/-! PROOFS. The Montgomery reducer (43_montgomery.md rules R120 and R122), along rule R122's own account: a round's
factor makes its limb zero, val(v) stays val(t) plus a multiple of p, and val(t) + m*p < 2*R^2 <= B*R^2 leaves no carry to drop. -/

namespace Sys2Proof.Machine

section row
variable {W : Nat}

theorem macRow_carry_eq_zero {x : Nat} {ys as : List Nat} (hl : ys.length ≤ as.length)
    (hlt : val W as + x * val W ys < 2 ^ (W * as.length)) : (macRow W x ys as).2 = 0 := by
  have hval := macRow_val (W := W) x hl
  have hsum := macRow_val_of_lt hl hlt
  have hzero : 2 ^ (W * as.length) * (macRow W x ys as).2 = 0 := by omega
  exact (Nat.mul_eq_zero.mp hzero).resolve_left (Nat.two_pow_pos _).ne'

theorem val_eq_headD_add_tail (v : List Nat) : val W v = v.headD 0 + 2 ^ W * val W v.tail := by
  cases v <;> simp

theorem head?_eq_zero_of_dvd_val {v : List Nat} (hpos : 0 < v.length) (hv : LimbsFit W v) (h : 2 ^ W ∣ val W v) :
    v.head? = some 0 := by
  cases v with
  | nil => cases hpos
  | cons x xs =>
    rw [val_cons, ← Nat.dvd_add_iff_left (dvd_mul_right _ _)] at h
    rw [List.head?_cons, Nat.eq_zero_of_dvd_of_lt h (hv x List.mem_cons_self)]

theorem val_eq_take_add_top {n : Nat} {v : List Nat} (h : v.length = n + 1) :
    val W v = val W (v.take n) + v.getD n 0 * 2 ^ (W * n) := by
  have htop : v.drop n = [v.getD n 0] := by
    rw [List.drop_eq_getElem_cons (by omega), List.drop_eq_nil_of_le (by omega), List.getD_eq_getElem _ _ (by omega)]
  rw [val_take_add_drop v (show n ≤ v.length by omega), htop]
  simp [mul_comm]

/-- A number written with one W-bit digit for each i below n. -/
theorem sum_mul_two_pow_lt {q : Nat → Nat} (hq : ∀ i, q i < 2 ^ W) (n : Nat) :
    ∑ i ∈ Finset.range n, q i * 2 ^ (W * i) < 2 ^ (W * n) := by
  induction n with
  | zero => simp
  | succ n ih =>
    calc ∑ i ∈ Finset.range (n + 1), q i * 2 ^ (W * i) < 2 ^ (W * n) + q n * 2 ^ (W * n) := by
          rw [Finset.sum_range_succ]
          exact Nat.add_lt_add_right ih _
      _ = (q n + 1) * 2 ^ (W * n) := by ring
      _ ≤ 2 ^ W * 2 ^ (W * n) := Nat.mul_le_mul_right _ (hq n)
      _ = 2 ^ (W * (n + 1)) := by rw [mul_add_one, pow_add, mul_comm]

end row

/-- What the reducer needs of the constants (rules R10, R11, R24). -/
structure ConstBundle.ReducerReady (k : ConstBundle) : Prop where
  W : 2 ≤ k.W
  odd : k.p % 2 = 1
  room : 4 * k.p ≤ k.R
  sized : k.Sized
  val_P : val k.W k.P = k.p
  val_PP1 : val k.W k.PP1 = k.p + 1
  PP1_low : ∀ i, i < k.z → k.PP1[i]? = some 0

theorem State.reducerReady_of_wf {s : State} (hs : s.wf = true) : s.ps.ReducerReady := by
  obtain ⟨hW, -, hEA, -, hroom, -, -⟩ := (ParamSet.admissible_iff _ _).mp (State.admissible_of_wf hs)
  obtain ⟨-, -, hready⟩ := s.wf_iff.mp hs
  obtain ⟨-, -, ⟨hP, -, hPP1, -⟩, hlow, -⟩ := constantTableHoldsTheBundle s hs
  exact ⟨hW, ParamSet.p_odd hEA, hroom, State.bundle_sized hready, hP, hPP1, hlow⟩

section constants
variable {k : ConstBundle}

theorem ConstBundle.ReducerReady.p_pos (hk : k.ReducerReady) : 0 < k.p := by
  have := hk.odd
  omega

theorem ConstBundle.ReducerReady.p_lt (hk : k.ReducerReady) : k.p < k.R := by
  have := hk.p_pos
  have := hk.room
  omega

theorem ConstBundle.ReducerReady.dvd_nprime (hk : k.ReducerReady) : 2 ^ k.W ∣ k.p * k.nprime + 1 :=
  two_pow_dvd_negInverse hk.odd k.W

/-- The 2N+1 limbs of v hold any number below 2*R^2. -/
theorem ConstBundle.ReducerReady.two_mul_sq_le (hk : k.ReducerReady) : 2 * (k.R * k.R) ≤ 2 ^ (k.W * (2 * k.N + 1)) := by
  have hB : 2 ≤ 2 ^ k.W := Nat.le_self_pow (Nat.ne_of_gt (two_pos.trans_le hk.W)) 2
  calc 2 * (k.R * k.R) ≤ 2 ^ k.W * (2 ^ (k.W * k.N) * 2 ^ (k.W * k.N)) := Nat.mul_le_mul_right _ hB
    _ = 2 ^ (k.W * (2 * k.N + 1)) := by ring

/-- Rule R120 from rule R122's equation. -/
theorem isReduction_of_mul_R_eq {t m r : Nat} (hp : 0 < k.p) (hm : m < k.R) (ht : t < k.R * k.p)
    (h : r * k.R = t + m * k.p) : IsReduction k t r := by
  have hmul : m * k.p < k.R * k.p := Nat.mul_lt_mul_of_pos_right hm hp
  refine ⟨⟨m, hm, ?_, ?_⟩, ?_, ?_⟩
  · rw [← h, Nat.mul_mod_left]
  · exact (Nat.div_eq_of_eq_mul_left (Nat.two_pow_pos _) h.symm).symm
  · refine Nat.lt_of_mul_lt_mul_right (a := k.R) ?_
    calc r * k.R < k.R * k.p + k.R * k.p := h ▸ Nat.add_lt_add ht hmul
      _ = 2 * k.p * k.R := by ring
  · rw [h, Nat.add_mul_mod_self_right]

end constants

/-- The factor q of one round of rule R122, from the limbs v[i ..]. -/
def roundFactor (k : ConstBundle) (v : List Nat) : Nat := v.headD 0 * k.nprime % 2 ^ k.W

/-- One round of rule R122 on the limbs v[i ..]. -/
def reduceRound (k : ConstBundle) (v : List Nat) : List Nat := (macRow k.W (roundFactor k v) k.P v).1.tail

/-- The limbs v[i ..] at the start of round i of the reduction of t. -/
def reducing (k : ConstBundle) (t : List Nat) (i : Nat) : List Nat := reduceRounds k.W k.nprime k.P i (t ++ [0])

/-- The sum of q_j * 2^(W*j) over the rounds before i: rule R122's m for i = N. -/
def factorSum (k : ConstBundle) (t : List Nat) (i : Nat) : Nat :=
  ∑ j ∈ Finset.range i, roundFactor k (reducing k t j) * 2 ^ (k.W * j)

section rounds
variable (k : ConstBundle) (t : List Nat)

theorem reduceRounds_eq_iterate (n : Nat) (v : List Nat) :
    reduceRounds k.W k.nprime k.P n v = (reduceRound k)^[n] v := by
  induction n generalizing v with
  | zero => rfl
  | succ n ih => exact ih _

theorem reducing_succ (i : Nat) : reducing k t (i + 1) = reduceRound k (reducing k t i) := by
  rw [reducing, reducing, reduceRounds_eq_iterate, reduceRounds_eq_iterate, Function.iterate_succ_apply']

theorem roundFactor_lt (v : List Nat) : roundFactor k v < 2 ^ k.W := Nat.mod_lt _ (Nat.two_pow_pos _)

theorem factorSum_succ (i : Nat) :
    factorSum k t (i + 1) = factorSum k t i + roundFactor k (reducing k t i) * 2 ^ (k.W * i) :=
  Finset.sum_range_succ _ i

theorem factorSum_lt (i : Nat) : factorSum k t i < 2 ^ (k.W * i) := sum_mul_two_pow_lt (fun _ => roundFactor_lt k _) i

end rounds

section reducer
variable {k : ConstBundle} (hk : k.ReducerReady)
include hk

theorem dvd_val_add_roundFactor_mul (v : List Nat) : 2 ^ k.W ∣ val k.W v + roundFactor k v * k.p := by
  rw [val_eq_headD_add_tail, add_right_comm]
  exact (dvd_add_factor_mul hk.dvd_nprime _).add (dvd_mul_right _ _)

/-- A round whose sum fits its limbs drops no carry and leaves a zero limb behind. -/
theorem round_of_lt {v : List Nat} (hlen : k.N < v.length)
    (hlt : val k.W v + roundFactor k v * k.p < 2 ^ (k.W * v.length)) :
    (macRow k.W (roundFactor k v) k.P v).1.head? = some 0 ∧ (macRow k.W (roundFactor k v) k.P v).2 = 0 ∧
      2 ^ k.W * val k.W (reduceRound k v) = val k.W v + roundFactor k v * k.p := by
  have hP : k.P.length ≤ v.length := hk.sized.P ▸ hlen.le
  rw [← hk.val_P] at hlt
  have hval := macRow_val_of_lt hP hlt
  have hdvd := dvd_val_add_roundFactor_mul hk v
  rw [← hk.val_P, ← hval] at hdvd
  have hhead := head?_eq_zero_of_dvd_val (by rw [macRow_length _ hP]; omega) (macRow_fit _ _ _) hdvd
  refine ⟨hhead, macRow_carry_eq_zero hP hlt, ?_⟩
  rw [← hk.val_P, ← hval, val_eq_headD_add_tail (macRow _ _ _ _).1, List.headD_eq_head?_getD, hhead, Option.getD_some,
    zero_add, reduceRound]

variable {t : List Nat} {i : Nat} (ht : t.length = 2 * k.N)
include ht

theorem reducing_length (hi : i ≤ k.N) : (reducing k t i).length = 2 * k.N + 1 - i := by
  have hlen : (t ++ [0]).length = 2 * k.N + 1 := by simp [ht]
  rw [reducing, reduceRounds_length, hlen]
  rw [hlen, hk.sized.P]
  omega

/-- A round's row is shorter than the limbs it accumulates into (rule R122: k = N, m >= N+2). -/
theorem lt_reducing_length (hi : i < k.N) : k.N < (reducing k t i).length := by
  rw [reducing_length hk ht hi.le]
  omega

variable (hfit : LimbsFit k.W t)
include hfit

omit hk ht in
theorem reducing_fit (i : Nat) : LimbsFit k.W (reducing k t i) := reduceRounds_fit _ _ _ (limbsFit_append_zero hfit)

/-- The bound of rule R122: val(t) + m*p < R^2 + R*p < 2*R^2. -/
theorem val_add_factorSum_mul_lt (hi : i ≤ k.N) : val k.W t + factorSum k t i * k.p < 2 * (k.R * k.R) := by
  have hval := val_lt hfit
  rw [ht, two_mul, mul_add, pow_add] at hval
  have hsum : factorSum k t i < k.R :=
    (factorSum_lt k t i).trans_le (Nat.pow_le_pow_right two_pos (Nat.mul_le_mul_left _ hi))
  rw [two_mul]
  exact Nat.add_lt_add hval (Nat.mul_lt_mul'' hsum hk.p_lt)

/-- The sum of round i fits its limbs, once the rounds before it have added their multiple of p. -/
theorem round_fits (hi : i < k.N)
    (hval : val k.W (reducing k t i) * 2 ^ (k.W * i) = val k.W t + factorSum k t i * k.p) :
    val k.W (reducing k t i) + roundFactor k (reducing k t i) * k.p < 2 ^ (k.W * (reducing k t i).length) := by
  refine Nat.lt_of_mul_lt_mul_right (a := 2 ^ (k.W * i)) ?_
  calc (val k.W (reducing k t i) + roundFactor k (reducing k t i) * k.p) * 2 ^ (k.W * i)
      = val k.W t + factorSum k t (i + 1) * k.p := by
        rw [factorSum_succ]
        linear_combination hval
    _ < 2 * (k.R * k.R) := val_add_factorSum_mul_lt hk ht hfit hi
    _ ≤ 2 ^ (k.W * (2 * k.N + 1)) := hk.two_mul_sq_le
    _ = 2 ^ (k.W * (reducing k t i).length) * 2 ^ (k.W * i) := by
      rw [reducing_length hk ht hi.le, ← pow_add, ← mul_add, Nat.sub_add_cancel (by omega)]

/-- The loop of rule R122 computes val(v) = val(t) + m*p. -/
theorem reducing_val (hi : i ≤ k.N) :
    val k.W (reducing k t i) * 2 ^ (k.W * i) = val k.W t + factorSum k t i * k.p := by
  induction i with
  | zero => simp [reducing, reduceRounds, factorSum, val_append]
  | succ i ih =>
    have hval := ih (by omega)
    obtain ⟨-, -, hround⟩ := round_of_lt hk (lt_reducing_length hk ht hi) (round_fits hk ht hfit hi hval)
    rw [reducing_succ, factorSum_succ, mul_add_one, pow_add]
    linear_combination 2 ^ (k.W * i) * hround + hval

/-- Every round leaves its limb zero and drops no carry. -/
theorem reducing_round (hi : i < k.N) :
    (macRow k.W (roundFactor k (reducing k t i)) k.P (reducing k t i)).1.head? = some 0 ∧
      (macRow k.W (roundFactor k (reducing k t i)) k.P (reducing k t i)).2 = 0 := by
  have hfits := round_fits hk ht hfit hi (reducing_val hk ht hfit hi.le)
  obtain ⟨hhead, hcarry, -⟩ := round_of_lt hk (lt_reducing_length hk ht hi) hfits
  exact ⟨hhead, hcarry⟩

/-- The exact division of rule R122: r and top hold (val(t) + m*p) / R. -/
theorem mredf_val :
    (val k.W (mredf k t).1 + (mredf k t).2 * k.R) * k.R = val k.W t + factorSum k t k.N * k.p := by
  have hlen : (reducing k t k.N).length = k.N + 1 := by
    rw [reducing_length hk ht le_rfl]
    omega
  rw [← reducing_val hk ht hfit le_rfl, val_eq_take_add_top hlen]
  rfl

theorem dvd_val_add_factorSum_mul : k.R ∣ val k.W t + factorSum k t k.N * k.p :=
  Dvd.intro_left _ (mredf_val hk ht hfit)

/-- m is the only number below R that makes the division exact. -/
theorem eq_factorSum {m : Nat} (hm : m < k.R) (h : k.R ∣ val k.W t + m * k.p) : m = factorSum k t k.N :=
  eq_of_dvd_add_mul (coprime_two_pow hk.odd _) hm (factorSum_lt k t k.N) h (dvd_val_add_factorSum_mul hk ht hfit)

theorem factorSum_eq_mul_negInverse :
    factorSum k t k.N = val k.W t % k.R * negInverse k.p (k.W * k.N) % k.R := by
  refine (eq_factorSum hk ht hfit (Nat.mod_lt _ (Nat.two_pow_pos _)) ?_).symm
  rw [Nat.mod_mul_mod]
  exact dvd_add_factor_mul (two_pow_dvd_negInverse hk.odd _) _

theorem mredf_top_le_one : (mredf k t).2 ≤ 1 := by
  have hlt := val_add_factorSum_mul_lt hk ht hfit le_rfl
  rw [← mredf_val hk ht hfit, add_mul, mul_assoc] at hlt
  exact Nat.le_of_lt_succ (Nat.lt_of_mul_lt_mul_right ((Nat.le_add_left _ _).trans_lt hlt))

/-- Rule R120's contract: below R*p the top bit is zero and r is the reduction. -/
theorem mredf_isReduction (hlt : val k.W t < k.R * k.p) :
    (mredf k t).2 = 0 ∧ IsReduction k (val k.W t) (val k.W (mredf k t).1) := by
  have hred := isReduction_of_mul_R_eq hk.p_pos (factorSum_lt k t k.N) hlt (mredf_val hk ht hfit)
  have htop : (mredf k t).2 = 0 := by
    obtain ⟨-, hrange, -⟩ := hred
    have hroom := hk.room
    refine Nat.lt_one_iff.mp (Nat.lt_of_mul_lt_mul_right (a := k.R) ?_)
    omega
  rw [htop, zero_mul, add_zero] at hred
  exact ⟨htop, hred⟩

end reducer

/-- Settles O33: `reducing` and `factorSum` are the statement's v and m; what it says of them stands in the lemmas above. -/
theorem reducerReturnsTheMontgomeryQuotient : Obligations.ReducerReturnsTheMontgomeryQuotient := by
  intro s t hs ht hfit v q m
  have hk := State.reducerReady_of_wf hs
  refine ⟨fun i hi => reducing_round hk ht hfit hi, ⟨factorSum_lt s.ps t s.ps.N, ?_, fun m' hm' h => ?_, ?_⟩,
    ⟨mredf_length hk.sized.P ht, mredf_fit _ hfit, mredf_top_le_one hk ht hfit, ?_⟩, mredf_isReduction hk ht hfit⟩
  · exact Nat.mod_eq_zero_of_dvd (dvd_val_add_factorSum_mul hk ht hfit)
  · exact eq_factorSum hk ht hfit hm' (Nat.dvd_of_mod_eq_zero h)
  · exact ⟨negInverse s.ps.p (s.ps.W * s.ps.N), negInverse_lt _ _,
      Nat.mod_eq_zero_of_dvd (two_pow_dvd_negInverse hk.odd _), factorSum_eq_mul_negInverse hk ht hfit⟩
  · exact (Nat.div_eq_of_eq_mul_left (Nat.two_pow_pos _) (mredf_val hk ht hfit).symm).symm

end Sys2Proof.Machine
end

section
/-! PROOFS. The specialised form of the reducer (43_montgomery.md rule R123): q*p = q*(p + 1) - q, the factor is the limb
itself since K.NPRIME = 1, and the low Z limbs of p + 1 are zero, so a round is the general round. -/

namespace Sys2Proof.Machine

/-- A row added to an array from limb z on. -/
theorem val_take_append_macRow {W x z : Nat} {ys u : List Nat} (h : z + ys.length ≤ u.length) :
    val W (u.take z ++ (macRow W x ys (u.drop z)).1) + 2 ^ (W * u.length) * (macRow W x ys (u.drop z)).2 =
      val W u + x * (2 ^ (W * z) * val W ys) := by
  have hdrop : (u.drop z).length = u.length - z := List.length_drop
  have hrow := macRow_val (W := W) x (ys := ys) (as := u.drop z) (by omega)
  have hlen : 2 ^ (W * u.length) = 2 ^ (W * z) * 2 ^ (W * (u.drop z).length) := by
    rw [← pow_add, ← mul_add, hdrop, Nat.add_sub_cancel' (by omega)]
  rw [val_append, List.length_take, Nat.min_eq_left (by omega), hlen, val_take_add_drop u (show z ≤ u.length by omega)]
  linear_combination 2 ^ (W * z) * hrow

theorem take_eq_replicate_zero {z : Nat} {xs : List Nat} (h : ∀ i, i < z → xs[i]? = some 0) :
    xs.take z = List.replicate z 0 := by
  refine List.ext_getElem? fun i => ?_
  rw [List.getElem?_take, List.getElem?_replicate]
  split
  · next hi => exact h i hi
  · rfl

/-- One round of rule R123 on the limbs v[i ..], before limb i is left behind. -/
def specialRow (k : ConstBundle) (v : List Nat) : List Nat :=
  (0 :: v.tail).take k.z ++ (macRow k.W (v.headD 0) (k.PP1.drop k.z) ((0 :: v.tail).drop k.z)).1

/-- One round of rule R123: the limbs v[i+1 ..] after it. -/
def specialRound (k : ConstBundle) (v : List Nat) : List Nat := (specialRow k v).tail

theorem specialRounds_eq_iterate (k : ConstBundle) (n : Nat) (v : List Nat) :
    specialRounds k.W k.z (k.PP1.drop k.z) n v = (specialRound k)^[n] v := by
  induction n generalizing v with
  | zero => rfl
  | succ n ih => exact ih _

section special
variable {k : ConstBundle} (hk : k.ReducerReady)
include hk

/-- 2^EA divides p + 1 < R. -/
theorem z_lt_N : k.z < k.N := by
  have hp := hk.p_pos
  have hroom := hk.room
  have hle : 2 ^ k.info.EA ≤ k.p + 1 := Nat.le_of_dvd (by omega) (ParamSet.two_pow_dvd_p_add_one le_rfl)
  have hlt : 2 ^ k.info.EA < 2 ^ (k.W * k.N) := hle.trans_lt (show k.p + 1 < k.R by omega)
  exact Nat.div_lt_of_lt_mul ((Nat.pow_lt_pow_iff_right (by omega)).mp hlt)

/-- The irregular tail holds p + 1 without its low zero limbs. -/
theorem val_PP1_drop : 2 ^ (k.W * k.z) * val k.W (k.PP1.drop k.z) = k.p + 1 := by
  have hlen : k.z ≤ k.PP1.length := hk.sized.PP1 ▸ (z_lt_N hk).le
  have hsplit := val_take_add_drop (W := k.W) k.PP1 hlen
  rwa [take_eq_replicate_zero hk.PP1_low, val_replicate_zero, zero_add, hk.val_PP1, eq_comm] at hsplit

theorem specialRow_length {v : List Nat} (hlen : k.N < v.length) : (specialRow k v).length = v.length := by
  have hz := z_lt_N hk
  have hrow : (k.PP1.drop k.z).length ≤ ((0 :: v.tail).drop k.z).length := by
    simp only [List.length_drop, hk.sized.PP1, List.length_cons, List.length_tail]
    omega
  simp only [specialRow, List.length_append, macRow_length _ hrow, List.length_take, List.length_drop, List.length_cons,
    List.length_tail]
  omega

variable (hEA : k.W ≤ k.info.EA)
include hEA

theorem one_le_z : 1 ≤ k.z := Nat.div_pos hEA (two_pos.trans_le hk.W)

theorem roundFactor_eq_headD {v : List Nat} (hv : LimbsFit k.W v) : roundFactor k v = v.headD 0 := by
  have hdvd : 2 ^ k.W ∣ k.p * 1 + 1 := by
    rw [mul_one]
    exact ParamSet.two_pow_dvd_p_add_one hEA
  have hnprime : 1 = k.nprime :=
    eq_negInverse hk.odd (Nat.one_lt_two_pow (Nat.ne_of_gt (two_pos.trans_le hk.W))) hdvd
  rw [roundFactor, ← hnprime, mul_one]
  cases v with
  | nil => rfl
  | cons x xs => exact Nat.mod_eq_of_lt (hv x List.mem_cons_self)

/-- Removing v[i] and adding v[i]*(p + 1) is adding v[i]*p. -/
theorem specialRow_eq_macRow {v : List Nat} (hlen : k.N < v.length) (hv : LimbsFit k.W v)
    (hlt : val k.W v + roundFactor k v * k.p < 2 ^ (k.W * v.length)) :
    specialRow k v = (macRow k.W (roundFactor k v) k.P v).1 := by
  have hP : k.P.length ≤ v.length := hk.sized.P ▸ hlen.le
  have hq := roundFactor_eq_headD hk hEA hv
  have hz := z_lt_N hk
  have hu : (0 :: v.tail).length = v.length := by
    rw [List.length_cons, List.length_tail]
    omega
  have htail : (k.PP1.drop k.z).length = k.N - k.z := by rw [List.length_drop, hk.sized.PP1]
  have hsum := val_take_append_macRow (W := k.W) (x := v.headD 0) (z := k.z) (ys := k.PP1.drop k.z) (u := 0 :: v.tail)
    (by omega)
  rw [val_PP1_drop hk, hu] at hsum
  have hval : val k.W (0 :: v.tail) + v.headD 0 * (k.p + 1) = val k.W v + roundFactor k v * k.p := by
    rw [hq, val_cons, val_eq_headD_add_tail v]
    ring
  rw [hval] at hsum
  have hfit : LimbsFit k.W (0 :: v.tail) :=
    List.forall_mem_cons.mpr ⟨Nat.two_pow_pos _, fun x hx => hv x (List.mem_of_mem_tail hx)⟩
  refine val_inj ?_ (limbsFit_append (limbsFit_take hfit _) (macRow_fit _ _ _)) (macRow_fit _ _ _) ?_
  · rw [specialRow_length hk hlen, macRow_length _ hP]
  · rw [specialRow, eq_of_carry_of_lt hsum hlt, macRow_val_of_lt hP (by rwa [hk.val_P]), hk.val_P]

variable {t : List Nat} (ht : t.length = 2 * k.N) (hfit : LimbsFit k.W t)
include ht hfit

theorem specialRounds_eq_reducing {i : Nat} (hi : i ≤ k.N) :
    specialRounds k.W k.z (k.PP1.drop k.z) i (t ++ [0]) = reducing k t i := by
  induction i with
  | zero => rfl
  | succ i ih =>
    have hlt := round_fits hk ht hfit hi (reducing_val hk ht hfit (by omega))
    rw [specialRounds_eq_iterate, Function.iterate_succ_apply', ← specialRounds_eq_iterate, ih (by omega), specialRound,
      specialRow_eq_macRow hk hEA (lt_reducing_length hk ht hi) (reducing_fit hfit i) hlt, reducing_succ, reduceRound]

theorem mredfSpecial_eq_mredf : mredfSpecial k t = mredf k t := by
  rw [mredfSpecial, specialRounds_eq_reducing hk hEA ht hfit le_rfl]
  rfl

end special

/-- Settles O34: the rounds of the two forms are equal, round by round. -/
theorem specialisedReducerAgrees : Obligations.SpecialisedReducerAgrees := by
  intro s t hs hEA ht hfit
  have hk := State.reducerReady_of_wf hs
  exact ⟨mredfSpecial_eq_mredf hk hEA ht hfit, rfl, one_le_z hk hEA, z_lt_N hk, hk.PP1_low⟩

end Sys2Proof.Machine
end

section
/-! PROOFS. The command MRED (43_montgomery.md rules R124 and R125): its rejections, those of a command of one read-only
buffer, and the two ways a command that ends in a reduction completes. -/

namespace Sys2Proof.Machine

section oneSource
variable {i : Instr} {s : State} {dst src m n : Nat} (hw : writtenBuffer s.ps.N i = ⟨dst, m⟩)
  (hr : readOnlyBuffers s.ps.N i = [⟨src, n⟩]) (hshape : shapeFits i = true)
include hw hr hshape

theorem exec_badAddr_of_one_source (h : s.params.omLimbs < src + n ∨ s.params.omLimbs < dst + m) :
    exec i s = s.reject .badAddr := by
  refine exec_of_rejected ?_ (by decide)
  rcases h with h | h
  · exact admission_badAddr (x := ⟨src, n⟩) hshape (by simp [hr]) h
  · exact admission_badAddr (x := ⟨dst, m⟩) hshape (by simp [hw]) h

variable (h1 : src + n ≤ s.params.omLimbs) (hd : dst + m ≤ s.params.omLimbs)
include h1 hd

theorem exec_badAlias_of_one_source (h : dst < src + n ∧ src < dst + m) : exec i s = s.reject .badAlias :=
  exec_of_rejected (admission_badAlias (x := ⟨src, n⟩) hshape (by simp [hw, hr, h1, hd]) (by simp [hr])
    (by simpa [hw] using h)) (by decide)

theorem admission_ok_of_one_source (ho : ¬(dst < src + n ∧ src < dst + m)) : s.admission i = .ok := by
  refine (admission_ok_iff _ _ _).mpr ⟨hshape, ?_, ?_⟩
  · simp [hw, hr, h1, hd]
  · simp only [hw, hr, List.forall_mem_singleton, Buffer.overlaps_eq_false_iff]
    exact ho

end oneSource

section reduced
variable {s : State} {i : Instr} {dst : Nat} {t : List Nat} (h : exec i s = s.completeReduced dst t)
include h

/-- Below R*p a command that ends in a reduction writes the reduction and makes no draw. -/
theorem exists_done_of_reduction (hs : s.wf = true) (ht : t.length = 2 * s.ps.N) (hfit : LimbsFit s.ps.W t)
    (hlt : val s.ps.W t < s.ps.R * s.ps.p) :
    ∃ u r, exec i s = .next u ∧ CommandDone s u dst (toLimbs s.ps.W s.ps.N r) s.c ∧
      IsReduction s.ps (val s.ps.W t) r ∧ u.draws = s.draws := by
  have hk := State.reducerReady_of_wf hs
  obtain ⟨-, hred⟩ := mredf_isReduction hk ht hfit hlt
  have hlimbs : (mredf s.ps t).1 = toLimbs s.ps.W s.ps.N (val s.ps.W (mredf s.ps t).1) :=
    eq_toLimbs_of_carry (c := 0) (mredf_length hk.sized.P ht) (mredf_fit _ hfit) rfl
  rw [State.completeReduced, State.reduce_eq hlt, hlimbs] at h
  exact ⟨_, _, h, .of_complete rfl, hred, rfl⟩

/-- At or above R*p it writes N W-bit limbs. -/
theorem exists_done_of_draw (hge : s.ps.R * s.ps.p ≤ val s.ps.W t) :
    ∃ u out, exec i s = .next u ∧ out.length = s.ps.N ∧ LimbsFit s.ps.W out ∧ CommandDone s u dst out s.c := by
  refine ⟨_, (s.reduce t).1, h, ?_, ?_, .of_completeReduced rfl⟩ <;> rw [State.reduce_draw hge]
  · exact s.drawLimbs_length _
  · exact s.drawLimbs_fit _

end reduced

theorem exec_mred_of_reads {s : State} {dst src1 : Nat} {t : List Nat} (h : s.admission (.mred dst src1) = .ok)
    (ht : s.om.readMany src1 (2 * s.ps.N) = .ok t) : exec (.mred dst src1) s = s.completeReduced dst t := by
  rw [exec, execMred, State.admitted_ok h, State.withBuffer_ok ht]

/-- Settles O39: an admitted MRED ends in the reduction of the 2N limbs it reads. -/
theorem mredWritesTheReduction : Obligations.MredWritesTheReduction := by
  intro dst src1 s hs
  refine ⟨fun hd h1 => ?_, fun hout => ?_, fun h1 hd => ⟨fun hov => ?_, fun ho t ht => ?_⟩⟩
  · exact decode_ofNat
      ((Instr.wellFormed_iff _).mpr ⟨hd, h1, Nat.two_pow_pos 10, Nat.two_pow_pos 8, Nat.two_pow_pos 8⟩)
      (by simp [Instr.op, Op.code, Instr.fields])
  · exact exec_badAddr_of_one_source rfl rfl rfl hout
  · exact exec_badAlias_of_one_source rfl rfl rfl h1 hd hov
  · obtain ⟨-, hfits, -⟩ := s.wf_iff.mp hs
    have hok := admission_ok_of_one_source (i := .mred dst src1) rfl rfl rfl h1 hd ho
    have hexec := exec_mred_of_reads hok ht
    exact ⟨exists_done_of_reduction hexec hs (Memory.readMany_length ht) (Memory.readMany_fits hfits ht),
      exists_done_of_draw hexec⟩

end Sys2Proof.Machine
end

section
/-! PROOFS. The values of the field operations' limbs (44_field_ops.md rules R131 to R135) for every input: the adder keeps a sum
modulo R, a difference is corrected under the mask of its borrow, and the right shift halves. -/

namespace Sys2Proof.Machine

/-- What the field operations need of the constants (rules R10, R11, R24). -/
structure ConstBundle.FieldReady (k : ConstBundle) : Prop extends k.ReducerReady where
  N : 1 ≤ k.N
  fit_P : LimbsFit k.W k.P
  fit_P2 : LimbsFit k.W k.P2
  fit_R2 : LimbsFit k.W k.R2
  val_P2 : val k.W k.P2 = 2 * k.p
  val_R2 : val k.W k.R2 = k.R ^ 2 % k.p

theorem State.fieldReady_of_wf {s : State} (hs : s.wf = true) : s.ps.FieldReady := by
  obtain ⟨-, hN, -⟩ := (ParamSet.admissible_iff _ _).mp (State.admissible_of_wf hs)
  obtain ⟨-, -, hready⟩ := s.wf_iff.mp hs
  obtain ⟨hps, -⟩ := State.valid_of_bundleReady hready
  obtain ⟨-, -, ⟨-, hP2, -, hR2⟩, -⟩ := constantTableHoldsTheBundle s hs
  have hfit (v : Nat) : LimbsFit s.ps.W (toLimbs s.ps.W s.ps.N v) := toLimbs_fit _ v
  refine ⟨State.reducerReady_of_wf hs, hN, ?_, ?_, ?_, hP2, hR2⟩ <;> rw [hps] <;> exact hfit _

section limbs
variable {W : Nat} {a b c : List Nat}

/-- W-bit limbs are the limbs of their value. -/
theorem eq_toLimbs_val {n : Nat} (hl : a.length = n) (hf : LimbsFit W a) : a = toLimbs W n (val W a) :=
  eq_toLimbs_of_carry (c := 0) hl hf rfl

theorem addL_val_mod (h : a.length = b.length) :
    val W (addL W a b).1 = (val W a + val W b) % 2 ^ (W * a.length) := by
  rw [addL_eq_toLimbs h, val_toLimbs]

section subtract
variable (hab : a.length = b.length) (fa : LimbsFit W a) (fb : LimbsFit W b)
include hab fa fb

theorem subL_val_mod : val W (subL W a b).1 = (val W a + 2 ^ (W * a.length) - val W b) % 2 ^ (W * a.length) := by
  rw [subL_eq_toLimbs hab fa fb, val_toLimbs]

theorem subL_borrow : (subL W a b).2 = if val W a < val W b then 1 else 0 := by
  obtain ⟨hval, hbw⟩ := subL_val hab fa fb
  have hlt : val W (subL W a b).1 < 2 ^ (W * a.length) := subL_length (W := W) hab ▸ val_lt (subL_fit a b)
  rcases Nat.le_one_iff_eq_zero_or_eq_one.mp hbw with hbw | hbw <;> rw [hbw] at hval ⊢ <;> split <;> omega

variable (hac : a.length = c.length) (fc : LimbsFit W c)
include hac fc

/-- c is added back under the mask of the borrow (00_scope.md rule R14). -/
theorem subL_addMasked_val :
    val W (addL W (subL W a b).1 (maskLimbs W (subL W a b).2 c)).1 =
      (val W (subL W a b).1 + (subL W a b).2 * val W c) % 2 ^ (W * a.length) := by
  obtain ⟨-, hbw⟩ := subL_val hab fa fb
  rw [addL_val_mod (by simp [subL_length hab, hac]), maskLimbs_val hbw fc, subL_length hab]

theorem subL_addMasked_val_of_le (h : val W b ≤ val W a) :
    val W (addL W (subL W a b).1 (maskLimbs W (subL W a b).2 c)).1 = val W a - val W b := by
  have hlt := val_lt fa
  rw [subL_addMasked_val hab fa fb hac fc, subL_borrow hab fa fb, if_neg h.not_gt, zero_mul, add_zero,
    Nat.eq_sub_of_add_eq (subL_val_of_le hab fa fb h), Nat.mod_eq_of_lt (by omega)]

theorem subL_addMasked_val_of_lt (h : val W a < val W b) :
    val W (addL W (subL W a b).1 (maskLimbs W (subL W a b).2 c)).1 =
      (val W a + 2 ^ (W * a.length) - val W b + val W c) % 2 ^ (W * a.length) := by
  rw [subL_addMasked_val hab fa fb hac fc, subL_borrow hab fa fb, if_pos h, one_mul, subL_val_mod hab fa fb,
    Nat.mod_add_mod]

end subtract

section shift
variable (hW : 1 ≤ W)
include hW

/-- One limb of the right shift: its own upper bits, and bit 0 of the limb above as bit W - 1. -/
theorem shiftedLimb_eq {x : Nat} (hx : x < 2 ^ W) (y : Nat) :
    ((x >>> 1) ||| (y <<< (W - 1))) % 2 ^ W = x / 2 + 2 ^ (W - 1) * (y % 2) := by
  have hpow : 2 ^ W = 2 ^ (W - 1) * 2 := by rw [← pow_succ, Nat.sub_add_cancel hW]
  have hlow : x / 2 < 2 ^ (W - 1) := by omega
  rw [Nat.shiftRight_one, Nat.or_comm, ← Nat.shiftLeft_add_eq_or_of_lt hlow, Nat.shiftLeft_eq, hpow, Nat.mod_mul,
    Nat.mul_add_mod_of_lt hlow, mul_comm y, Nat.mul_add_div (Nat.two_pow_pos _), Nat.div_eq_of_lt hlow, add_zero]

theorem val_mod_two (xs : List Nat) : val W xs % 2 = xs.headD 0 % 2 := by
  have heven : 2 ∣ 2 ^ W * val W xs.tail := (dvd_pow_self 2 (by omega)).mul_right _
  rw [val_eq_headD_add_tail]
  omega

/-- The shift halves the value (rule R134). -/
theorem shiftRightOne_val {xs : List Nat} (hx : LimbsFit W xs) : val W (shiftRightOne W xs) = val W xs / 2 := by
  induction xs with
  | nil => simp [shiftRightOne]
  | cons x xs ih =>
    obtain ⟨hx0, hxs⟩ := List.forall_mem_cons.mp hx
    have hpow : 2 ^ W = 2 * 2 ^ (W - 1) := by rw [← pow_succ', Nat.sub_add_cancel hW]
    calc val W (shiftRightOne W (x :: xs))
        = x / 2 + 2 ^ (W - 1) * (val W xs % 2) + 2 ^ W * (val W xs / 2) := by
          rw [shiftRightOne, val_cons, shiftedLimb_eq hW hx0, ih hxs, val_mod_two hW]
      _ = x / 2 + 2 ^ (W - 1) * (val W xs % 2 + 2 * (val W xs / 2)) := by rw [hpow]; ring
      _ = val W (x :: xs) / 2 := by
          rw [Nat.mod_add_div, val_cons, hpow, mul_assoc, Nat.add_mul_div_left _ _ two_pos]

end shift
end limbs

section field
variable {k : ConstBundle} (hk : k.FieldReady) {a b : List Nat} (ha : a.length = k.N) (fa : LimbsFit k.W a)

include ha fa in
theorem val_lt_R : val k.W a < k.R := by
  have h := val_lt fa
  rwa [ha] at h

include ha in
theorem fieldAdd_val (hb : b.length = k.N) :
    val k.W (fieldAdd k a b) = (val k.W a + val k.W b) % k.R := by
  rw [fieldAdd, addL_val_mod (ha.trans hb.symm), ha]
  rfl

include hk ha

theorem fieldHalve_val : val k.W (fieldHalve k a) = (val k.W a + val k.W a % 2 * k.p) % k.R / 2 := by
  have hW : 1 ≤ k.W := one_le_two.trans hk.W
  have hbit : val k.W a % 2 ≤ 1 := by omega
  rw [fieldHalve, shiftRightOne_val hW (addL_fit _ _), Nat.and_one_is_mod, ← val_mod_two hW,
    addL_val_mod (by simp [ha, hk.sized.P]), maskLimbs_val hbit hk.fit_P, hk.val_P, ha]
  rfl

include fa

theorem fieldSub_val_of_le (hb : b.length = k.N) (fb : LimbsFit k.W b) (h : val k.W b ≤ val k.W a) :
    val k.W (fieldSub k a b) = val k.W a - val k.W b :=
  subL_addMasked_val_of_le (ha.trans hb.symm) fa fb (ha.trans hk.sized.P2.symm) hk.fit_P2 h

theorem fieldSub_val_of_lt (hb : b.length = k.N) (fb : LimbsFit k.W b) (h : val k.W a < val k.W b) :
    val k.W (fieldSub k a b) = (val k.W a + k.R - val k.W b + 2 * k.p) % k.R := by
  have hval := subL_addMasked_val_of_lt (ha.trans hb.symm) fa fb (ha.trans hk.sized.P2.symm) hk.fit_P2 h
  rwa [hk.val_P2, ha] at hval

theorem fieldNeg_val : val k.W (fieldNeg k a) = (2 * k.p + k.R - val k.W a) % k.R := by
  have hval := subL_val_mod (hk.sized.P2.trans ha.symm) hk.fit_P2 fa
  rwa [hk.val_P2, hk.sized.P2] at hval

theorem fieldCorrect_val_of_le (h : k.p ≤ val k.W a) : val k.W (fieldCorrect k a) = val k.W a - k.p := by
  have hval := subL_addMasked_val_of_le (ha.trans hk.sized.P.symm) fa hk.fit_P (ha.trans hk.sized.P.symm) hk.fit_P
    (hk.val_P ▸ h)
  rwa [hk.val_P] at hval

theorem fieldCorrect_val_of_lt (h : val k.W a < k.p) : val k.W (fieldCorrect k a) = val k.W a := by
  have hval := subL_addMasked_val_of_lt (ha.trans hk.sized.P.symm) fa hk.fit_P (ha.trans hk.sized.P.symm) hk.fit_P
    (hk.val_P ▸ h)
  have hp := hk.p_lt
  rw [hk.val_P, Nat.sub_add_cancel (by rw [ha]; exact le_add_left hp.le), Nat.add_mod_right,
    Nat.mod_eq_of_lt (val_lt fa)] at hval
  exact hval

end field

end Sys2Proof.Machine
end

section
/-! PROOFS. The commands FADD, FSUB, FNEG, FDIV2 and FCORR (44_field_ops.md rules R131 to R135). What the statements of the field
commands share is said once for each operand form: the word, the rejections, and that the sources of an admitted command are
N W-bit limbs. -/

namespace Sys2Proof.Machine

section forms
variable {i : Instr} {s : State} {n dst src1 src2 : Nat} (hs : s.wf = true) (hcode : i.op.code.toNat = n)
  (hw : writtenBuffer s.ps.N i = ⟨dst, s.ps.N⟩) (hshape : shapeFits i = true)
include hs

/-- A source of a field command is an array of N W-bit limbs. -/
theorem source_sized {src : Nat} {a : List Nat} (ha : s.om.readMany src s.ps.N = .ok a) :
    a.length = s.ps.N ∧ LimbsFit s.ps.W a := by
  obtain ⟨-, hfits, -⟩ := s.wf_iff.mp hs
  exact ⟨Memory.readMany_length ha, Memory.readMany_fits hfits ha⟩

include hcode hw hshape

/-- A command of two N-limb sources (format F3): `post` is what its statement says of the admitted command. -/
theorem statement_of_two_sources {post : List Nat → List Nat → Prop} (hf : i.fields = ⟨0, 0, dst, src1, src2⟩)
    (hr : readOnlyBuffers s.ps.N i = [⟨src1, s.ps.N⟩, ⟨src2, s.ps.N⟩])
    (h : s.admission i = .ok → ∀ a b, s.om.readMany src1 s.ps.N = .ok a → s.om.readMany src2 s.ps.N = .ok b →
      a.length = s.ps.N → b.length = s.ps.N → LimbsFit s.ps.W a → LimbsFit s.ps.W b → post a b) :
    (dst < 1024 → src1 < 1024 → src2 < 1024 →
      decode (BitVec.ofNat 64 (n + dst * 2 ^ 32 + src1 * 2 ^ 42 + src2 * 2 ^ 52)) = .ok i) ∧
    (s.params.omLimbs < src1 + s.ps.N ∨ s.params.omLimbs < src2 + s.ps.N ∨ s.params.omLimbs < dst + s.ps.N →
      exec i s = s.reject .badAddr) ∧
    (src1 + s.ps.N ≤ s.params.omLimbs → src2 + s.ps.N ≤ s.params.omLimbs → dst + s.ps.N ≤ s.params.omLimbs →
      ((dst < src1 + s.ps.N ∧ src1 < dst + s.ps.N) ∨ (dst < src2 + s.ps.N ∧ src2 < dst + s.ps.N) →
        exec i s = s.reject .badAlias) ∧
      (¬(dst < src1 + s.ps.N ∧ src1 < dst + s.ps.N) → ¬(dst < src2 + s.ps.N ∧ src2 < dst + s.ps.N) →
        ∀ a b, s.om.readMany src1 s.ps.N = .ok a → s.om.readMany src2 s.ps.N = .ok b → post a b)) := by
  refine ⟨fun hd h1 h2 => ?_, fun hout => ?_, fun h1 h2 hd => ⟨fun hov => ?_, fun ho1 ho2 a b ha hb => ?_⟩⟩
  · have hfit : i.fields.Fit := hf ▸ ⟨hd, h1, h2, Nat.two_pow_pos 8, Nat.two_pow_pos 8⟩
    exact decode_ofNat ((Instr.wellFormed_iff _).mpr hfit) (by simp [hf, hcode])
  · exact exec_badAddr_of_two_sources hw hr hshape hout
  · exact exec_badAlias_of_two_sources hw hr hshape h1 h2 hd hov
  · obtain ⟨hla, fa⟩ := source_sized hs ha
    obtain ⟨hlb, fb⟩ := source_sized hs hb
    exact h (admission_ok_of_two_sources hw hr hshape h1 h2 hd ho1 ho2) a b ha hb hla hlb fa fb

/-- A command of one N-limb source (format F2). -/
theorem statement_of_one_source {post : List Nat → Prop} (hf : i.fields = ⟨0, 0, dst, src1, 0⟩)
    (hr : readOnlyBuffers s.ps.N i = [⟨src1, s.ps.N⟩])
    (h : s.admission i = .ok → ∀ a, s.om.readMany src1 s.ps.N = .ok a →
      a.length = s.ps.N → LimbsFit s.ps.W a → post a) :
    (dst < 1024 → src1 < 1024 → decode (BitVec.ofNat 64 (n + dst * 2 ^ 32 + src1 * 2 ^ 42)) = .ok i) ∧
    (s.params.omLimbs < src1 + s.ps.N ∨ s.params.omLimbs < dst + s.ps.N → exec i s = s.reject .badAddr) ∧
    (src1 + s.ps.N ≤ s.params.omLimbs → dst + s.ps.N ≤ s.params.omLimbs →
      (dst < src1 + s.ps.N ∧ src1 < dst + s.ps.N → exec i s = s.reject .badAlias) ∧
      (¬(dst < src1 + s.ps.N ∧ src1 < dst + s.ps.N) → ∀ a, s.om.readMany src1 s.ps.N = .ok a → post a)) := by
  refine ⟨fun hd h1 => ?_, fun hout => ?_, fun h1 hd => ⟨fun hov => ?_, fun ho a ha => ?_⟩⟩
  · have hfit : i.fields.Fit := hf ▸ ⟨hd, h1, Nat.two_pow_pos 10, Nat.two_pow_pos 8, Nat.two_pow_pos 8⟩
    exact decode_ofNat ((Instr.wellFormed_iff _).mpr hfit) (by simp [hf, hcode])
  · exact exec_badAddr_of_one_source hw hr hshape hout
  · exact exec_badAlias_of_one_source hw hr hshape h1 hd hov
  · obtain ⟨hla, fa⟩ := source_sized hs ha
    exact h (admission_ok_of_one_source hw hr hshape h1 hd ho) a ha hla fa

/-- A command that works in place (format F1): with no read-only buffer there is nothing to overlap. -/
theorem statement_of_in_place {post : List Nat → Prop} (hf : i.fields = ⟨0, 0, dst, 0, 0⟩)
    (hr : readOnlyBuffers s.ps.N i = [])
    (h : s.admission i = .ok → ∀ a, s.om.readMany dst s.ps.N = .ok a →
      a.length = s.ps.N → LimbsFit s.ps.W a → post a) :
    (dst < 1024 → decode (BitVec.ofNat 64 (n + dst * 2 ^ 32)) = .ok i) ∧
    (s.params.omLimbs < dst + s.ps.N → exec i s = s.reject .badAddr) ∧
    (dst + s.ps.N ≤ s.params.omLimbs → ∀ a, s.om.readMany dst s.ps.N = .ok a → post a) := by
  refine ⟨fun hd => ?_, fun hout => ?_, fun hd a ha => ?_⟩
  · have hfit : i.fields.Fit := hf ▸ ⟨hd, Nat.two_pow_pos 10, Nat.two_pow_pos 10, Nat.two_pow_pos 8, Nat.two_pow_pos 8⟩
    exact decode_ofNat ((Instr.wellFormed_iff _).mpr hfit) (by simp [hf, hcode])
  · exact exec_of_rejected (admission_badAddr (x := ⟨dst, s.ps.N⟩) hshape (by simp [hw]) hout) (by decide)
  · have hok : s.admission i = .ok := (admission_ok_iff _ _ _).mpr ⟨hshape, by simp [hw, hr, hd], by simp [hr]⟩
    obtain ⟨hla, fa⟩ := source_sized hs ha
    exact h hok a ha hla fa

end forms

section exec
variable {s : State} {dst src1 src2 : Nat} {a b : List Nat}

/-- The OK clause of a field command: it writes the N limbs of a number. -/
theorem exists_done_of_complete_val {i : Instr} {xs : List Nat} {r : Nat} (h : exec i s = s.complete dst xs)
    (hl : xs.length = s.ps.N) (hf : LimbsFit s.ps.W xs) (hr : val s.ps.W xs = r) :
    ∃ t, exec i s = .next t ∧ CommandDone s t dst (toLimbs s.ps.W s.ps.N r) s.c :=
  exists_done_of_complete h (hr ▸ eq_toLimbs_val hl hf)

theorem exec_fadd_of_reads (h : s.admission (.fadd dst src1 src2) = .ok) (ha : s.om.readMany src1 s.ps.N = .ok a)
    (hb : s.om.readMany src2 s.ps.N = .ok b) : exec (.fadd dst src1 src2) s = s.complete dst (fieldAdd s.ps a b) := by
  rw [exec, execFadd, State.admitted_ok h, State.withBuffer_ok ha, State.withBuffer_ok hb]

theorem exec_fsub_of_reads (h : s.admission (.fsub dst src1 src2) = .ok) (ha : s.om.readMany src1 s.ps.N = .ok a)
    (hb : s.om.readMany src2 s.ps.N = .ok b) : exec (.fsub dst src1 src2) s = s.complete dst (fieldSub s.ps a b) := by
  rw [exec, execFsub, State.admitted_ok h, State.withBuffer_ok ha, State.withBuffer_ok hb]

theorem exec_fneg_of_reads (h : s.admission (.fneg dst) = .ok) (ha : s.om.readMany dst s.ps.N = .ok a) :
    exec (.fneg dst) s = s.complete dst (fieldNeg s.ps a) := by
  rw [exec, execFneg, State.admitted_ok h, State.withBuffer_ok ha]

theorem exec_fdiv2_of_reads (h : s.admission (.fdiv2 dst src1) = .ok) (ha : s.om.readMany src1 s.ps.N = .ok a) :
    exec (.fdiv2 dst src1) s = s.complete dst (fieldHalve s.ps a) := by
  rw [exec, execFdiv2, State.admitted_ok h, State.withBuffer_ok ha]

theorem exec_fcorr_of_reads (h : s.admission (.fcorr dst) = .ok) (ha : s.om.readMany dst s.ps.N = .ok a) :
    exec (.fcorr dst) s = s.complete dst (fieldCorrect s.ps a) := by
  rw [exec, execFcorr, State.admitted_ok h, State.withBuffer_ok ha]

end exec

section elements
variable {k : ConstBundle} (hk : k.FieldReady) {a b : List Nat}
include hk

/-- FSUB's wrapped difference, b being a Field Element, is a - b + 2p. -/
theorem fieldElement_sub_mod (hb : FieldElement k b) (hlt : val k.W a < val k.W b) :
    (val k.W a + k.R - val k.W b + 2 * k.p) % k.R = val k.W a + 2 * k.p - val k.W b := by
  obtain ⟨-, -, hb⟩ := hb
  have hroom := hk.room
  have hwrap : val k.W a + k.R - val k.W b + 2 * k.p = val k.W a + 2 * k.p - val k.W b + k.R := by omega
  rw [hwrap, Nat.add_mod_right, Nat.mod_eq_of_lt (by omega)]

variable (ha : FieldElement k a)
include ha

/-- The sum of two Field Elements fits (rule R11: 4p - 2 < R). -/
theorem fieldElement_add_lt (hb : FieldElement k b) : val k.W a + val k.W b < k.R := by
  obtain ⟨-, -, ha⟩ := ha
  obtain ⟨-, -, hb⟩ := hb
  have hroom := hk.room
  omega

/-- Adding p to an odd Field Element makes it even, p being odd, and does not wrap. -/
theorem two_mul_fieldHalve_val :
    2 * val k.W (fieldHalve k a) = val k.W a + val k.W a % 2 * k.p := by
  obtain ⟨hla, -, ha⟩ := ha
  have hroom := hk.room
  have hodd := hk.odd
  rw [fieldHalve_val hk hla]
  rcases Nat.mod_two_eq_zero_or_one (val k.W a) with hbit | hbit <;> rw [hbit]
  · rw [zero_mul, add_zero, Nat.mod_eq_of_lt (by omega)]
    omega
  · rw [one_mul, Nat.mod_eq_of_lt (by omega)]
    omega

/-- One subtraction of p canonicalizes a Field Element (rule R135). -/
theorem fieldCorrect_val_of_fieldElement : val k.W (fieldCorrect k a) = val k.W a % k.p := by
  obtain ⟨hla, fa, ha⟩ := ha
  rcases Nat.lt_or_ge (val k.W a) k.p with hlt | hge
  · rw [fieldCorrect_val_of_lt hk hla fa hlt, Nat.mod_eq_of_lt hlt]
  · rw [fieldCorrect_val_of_le hk hla fa hge, Nat.mod_eq_sub_mod hge, Nat.mod_eq_of_lt (by omega)]

end elements

/-- Settles O40: FADD completes with the adder's limbs, the sum modulo R, and Field Elements leave no carry to drop. -/
theorem faddWritesTheSum : Obligations.FaddWritesTheSum := by
  intro dst src1 src2 s hs
  have hk := State.fieldReady_of_wf hs
  refine statement_of_two_sources (i := .fadd dst src1 src2) hs rfl rfl rfl rfl rfl fun hok a b ha hb hla hlb _ _ => ?_
  refine ⟨?_, fun hea heb => ?_⟩
  · exact exists_done_of_complete_val (exec_fadd_of_reads hok ha hb)
      ((fieldAdd_length (hla.trans hlb.symm)).trans hla) fieldAdd_fit (fieldAdd_val hla hlb)
  · exact Nat.mod_eq_of_lt (fieldElement_add_lt hk hea heb)

/-- Settles O41: FSUB completes with `fieldSub`, whose borrow says which of the two values it has. -/
theorem fsubWritesTheDifference : Obligations.FsubWritesTheDifference := by
  intro dst src1 src2 s hs
  have hk := State.fieldReady_of_wf hs
  refine statement_of_two_sources (i := .fsub dst src1 src2) hs rfl rfl rfl rfl rfl fun hok a b ha hb hla hlb fa fb => ?_
  have hlen := (fieldSub_length (hla.trans hlb.symm) (hk.sized.P2.trans hla.symm)).trans hla
  obtain ⟨t, ht, hdone⟩ := exists_done_of_complete_val (exec_fsub_of_reads hok ha hb) hlen fieldSub_fit rfl
  have hle := fieldSub_val_of_le hk hla fa hlb fb
  have hlt := fieldSub_val_of_lt hk hla fa hlb fb
  refine ⟨t, _, ht, hdone, val_lt_R hlen fieldSub_fit, hle, hlt, fun hea heb => ?_⟩
  have hwrap (h : val s.ps.W a < val s.ps.W b) := (hlt h).trans (fieldElement_sub_mod hk heb h)
  obtain ⟨-, -, hea⟩ := hea
  obtain ⟨-, -, heb⟩ := heb
  rcases Nat.lt_or_ge (val s.ps.W a) (val s.ps.W b) with h | h
  · have hval := hwrap h
    have hsum : val s.ps.W (fieldSub s.ps a b) + val s.ps.W b = val s.ps.W a + 2 * s.ps.p := by omega
    exact ⟨by omega, by rw [hsum, Nat.add_mul_mod_self_right], fun _ => hval⟩
  · have hval := hle h
    exact ⟨by omega, by rw [hval, Nat.sub_add_cancel h], fun h' => absurd h' h.not_gt⟩

/-- Settles O42: FNEG completes with the subtractor's limbs of 2p - a. -/
theorem fnegWritesTwoPMinusA : Obligations.FnegWritesTwoPMinusA := by
  intro dst s hs
  have hk := State.fieldReady_of_wf hs
  refine statement_of_in_place (i := .fneg dst) hs rfl rfl rfl rfl rfl fun hok a ha hla fa => ?_
  have hlen := (fieldNeg_length (hk.sized.P2.trans hla.symm)).trans hla
  obtain ⟨t, ht, hdone⟩ := exists_done_of_complete_val (exec_fneg_of_reads hok ha) hlen fieldNeg_fit
    (fieldNeg_val hk hla fa)
  have hexact (hle : val s.ps.W a ≤ 2 * s.ps.p) :
      (2 * s.ps.p + s.ps.R - val s.ps.W a) % s.ps.R = 2 * s.ps.p - val s.ps.W a := by
    have hroom := hk.room
    have hp := hk.p_pos
    rw [Nat.sub_add_comm hle, Nat.add_mod_right, Nat.mod_eq_of_lt (by omega)]
  refine ⟨t, _, ht, hdone, rfl, hexact, fun ⟨_, _, hea⟩ => ?_⟩
  rw [hexact hea.le, Nat.sub_add_cancel hea.le, Nat.mul_mod_left]
  omega

/-- Settles O43: FDIV2 completes with the shift of a, or of a + p for odd a, as `fieldHalve_val` says it. -/
theorem fdiv2WritesTheHalf : Obligations.Fdiv2WritesTheHalf := by
  intro dst src1 s hs
  have hk := State.fieldReady_of_wf hs
  refine statement_of_one_source (i := .fdiv2 dst src1) hs rfl rfl rfl rfl rfl fun hok a ha hla fa => ?_
  have hlen := (fieldHalve_length (hk.sized.P.trans hla.symm)).trans hla
  obtain ⟨t, ht, hdone⟩ := exists_done_of_complete_val (exec_fdiv2_of_reads hok ha) hlen fieldHalve_fit rfl
  have hval := fieldHalve_val hk hla
  refine ⟨t, _, ht, hdone, fun heven => ?_, fun hodd => ?_, fun hea => ?_⟩
  · rw [hval, heven, zero_mul, add_zero, Nat.mod_eq_of_lt (val_lt_R hla fa)]
  · rw [hval, hodd, one_mul]
  · have htwo := two_mul_fieldHalve_val hk hea
    obtain ⟨-, -, hea⟩ := hea
    refine ⟨?_, by rw [htwo, Nat.add_mul_mod_self_right], fun hodd => by rw [htwo, hodd, one_mul]⟩
    rcases Nat.mod_two_eq_zero_or_one (val s.ps.W a) with hbit | hbit <;> rw [hbit] at htwo <;> omega

/-- Settles O44: FCORR completes with `fieldCorrect`, whose borrow says whether p is added back. -/
theorem fcorrWritesTheCanonicalValue : Obligations.FcorrWritesTheCanonicalValue := by
  intro dst s hs
  have hk := State.fieldReady_of_wf hs
  refine statement_of_in_place (i := .fcorr dst) hs rfl rfl rfl rfl rfl fun hok a ha hla fa => ?_
  have hlen := (fieldCorrect_length (hk.sized.P.trans hla.symm)).trans hla
  obtain ⟨t, ht, hdone⟩ := exists_done_of_complete_val (exec_fcorr_of_reads hok ha) hlen fieldCorrect_fit rfl
  exact ⟨t, _, ht, hdone, fieldCorrect_val_of_lt hk hla fa, fieldCorrect_val_of_le hk hla fa,
    fieldCorrect_val_of_fieldElement hk⟩

end Sys2Proof.Machine
end

section
/-! PROOFS. The commands FMUL and FSQR (44_field_ops.md rules R136 and R137): the exact product of rule R110, reduced. -/

namespace Sys2Proof.Machine

section product
variable {k : ConstBundle} (hk : k.FieldReady) {a b : List Nat}
include hk

/-- The product FMUL and FSQR reduce, at the bundle's depth. -/
theorem km_product (ha : a.length = k.N) (hb : b.length = k.N) (fa : LimbsFit k.W a) (fb : LimbsFit k.W b) :
    (km k.W k.info.KDEPTH a b).length = 2 * k.N ∧ LimbsFit k.W (km k.W k.info.KDEPTH a b) ∧
      val k.W (km k.W k.info.KDEPTH a b) = val k.W a * val k.W b := by
  obtain ⟨hlen, hfit, hval⟩ := km_exact hk.W k.info.KDEPTH (ha ▸ hk.N) (ha.trans hb.symm) fa fb
  exact ⟨ha ▸ hlen, hfit, hval⟩

/-- Rule R11: the product of two numbers below 2p is below 4p * p <= R * p. -/
theorem mul_lt_R_mul_p {x y : Nat} (hx : x < 2 * k.p) (hy : y < 2 * k.p) : x * y < k.R * k.p :=
  calc x * y < 2 * k.p * (2 * k.p) := Nat.mul_lt_mul'' hx hy
    _ = 4 * k.p * k.p := by ring
    _ ≤ k.R * k.p := Nat.mul_le_mul_right _ hk.room

end product

section exec
variable {s : State} {dst src1 src2 : Nat} {a b : List Nat}

theorem exec_fmul_of_reads (h : s.admission (.fmul dst src1 src2) = .ok) (ha : s.om.readMany src1 s.ps.N = .ok a)
    (hb : s.om.readMany src2 s.ps.N = .ok b) :
    exec (.fmul dst src1 src2) s = s.completeReduced dst (km s.ps.W s.ps.info.KDEPTH a b) := by
  rw [exec, execFmul, State.admitted_ok h, State.withBuffer_ok ha, State.withBuffer_ok hb]

theorem exec_fsqr_of_reads (h : s.admission (.fsqr dst src1) = .ok) (ha : s.om.readMany src1 s.ps.N = .ok a) :
    exec (.fsqr dst src1) s = s.completeReduced dst (km s.ps.W s.ps.info.KDEPTH a a) := by
  rw [exec, execFsqr, State.admitted_ok h, State.withBuffer_ok ha]

theorem admission_fmul_self : s.admission (.fmul dst src1 src1) = s.admission (.fsqr dst src1) := by
  simp [State.admission, admission, shapeFits, writtenBuffer, readOnlyBuffers]

/-- The squarer and the multiplier reduce the same product (rule R137). -/
theorem exec_fmul_self (h : s.admission (.fsqr dst src1) = .ok) (ha : s.om.readMany src1 s.ps.N = .ok a) :
    exec (.fmul dst src1 src1) s = exec (.fsqr dst src1) s :=
  (exec_fmul_of_reads (admission_fmul_self.trans h) ha ha).trans (exec_fsqr_of_reads h ha).symm

end exec

/-- Settles O45: FMUL ends in a reduction of the product, which Field Elements keep below R*p. -/
theorem fmulWritesTheReducedProduct : Obligations.FmulWritesTheReducedProduct := by
  intro dst src1 src2 s hs
  have hk := State.fieldReady_of_wf hs
  refine statement_of_two_sources (i := .fmul dst src1 src2) hs rfl rfl rfl rfl rfl fun hok a b ha hb hla hlb fa fb => ?_
  have hexec := exec_fmul_of_reads hok ha hb
  obtain ⟨hlen, hfit, hval⟩ := km_product hk hla hlb fa fb
  rw [← hval]
  exact ⟨exists_done_of_reduction hexec hs hlen hfit, fun ⟨_, _, hea⟩ ⟨_, _, heb⟩ => hval ▸ mul_lt_R_mul_p hk hea heb,
    exists_done_of_draw hexec⟩

/-- Settles O46: FSQR ends in a reduction of the square, as FMUL of a by a does. -/
theorem fsqrWritesTheReducedSquare : Obligations.FsqrWritesTheReducedSquare := by
  intro dst src1 s hs
  have hk := State.fieldReady_of_wf hs
  refine statement_of_one_source (i := .fsqr dst src1) hs rfl rfl rfl rfl rfl fun hok a ha hla fa => ?_
  have hexec := exec_fsqr_of_reads hok ha
  obtain ⟨hlen, hfit, hval⟩ := km_product hk hla hla fa fa
  rw [← hval]
  refine ⟨fun hlt => ?_, fun ⟨_, _, hea⟩ => hval ▸ mul_lt_R_mul_p hk hea hea, exists_done_of_draw hexec⟩
  obtain ⟨t, r, ht, hdone, hred, hdraws⟩ := exists_done_of_reduction hexec hs hlen hfit hlt
  exact ⟨t, r, ht, hdone, hred, hdraws, (exec_fmul_self hok ha).trans ht⟩

end Sys2Proof.Machine
end

section
/-! PROOFS. The properties of rules R139 and R140 (44_field_ops.md), on the limbs the commands write: correction is the remainder
modulo p, and a reduction divides by R modulo p, which is odd. -/

namespace Sys2Proof.Machine

section correction
variable {k : ConstBundle}

theorem Canonical.fieldElement {a : List Nat} (ha : Canonical k a) : FieldElement k a := by
  obtain ⟨hla, fa, hlt⟩ := ha
  exact ⟨hla, fa, by omega⟩

variable (hk : k.FieldReady)
include hk

/-- The limbs of a number below p. -/
theorem canonical_toLimbs {v : Nat} (hv : v < k.p) :
    Canonical k (toLimbs k.W k.N v) ∧ val k.W (toLimbs k.W k.N v) = v := by
  have hval : val k.W (toLimbs k.W k.N v) = v := val_toLimbs_of_lt (hv.trans hk.p_lt)
  exact ⟨⟨toLimbs_length _ _, toLimbs_fit _ _, hval.trans_lt hv⟩, hval⟩

variable {a b : List Nat}

/-- The sum of two canonical elements is a Field Element. -/
theorem fieldElement_fieldAdd (ha : Canonical k a) (hb : Canonical k b) :
    FieldElement k (fieldAdd k a b) ∧ val k.W (fieldAdd k a b) = val k.W a + val k.W b := by
  have hlt := fieldElement_add_lt hk ha.fieldElement hb.fieldElement
  obtain ⟨hla, -, ha⟩ := ha
  obtain ⟨hlb, -, hb⟩ := hb
  have hval := (fieldAdd_val hla hlb).trans (Nat.mod_eq_of_lt hlt)
  exact ⟨⟨(fieldAdd_length (hla.trans hlb.symm)).trans hla, fieldAdd_fit, by omega⟩, hval⟩

variable (ha : FieldElement k a)
include ha

theorem fieldCorrect_canonical : Canonical k (fieldCorrect k a) := by
  have hval := fieldCorrect_val_of_fieldElement hk ha
  obtain ⟨hla, -, -⟩ := ha
  exact ⟨(fieldCorrect_length (hk.sized.P.trans hla.symm)).trans hla, fieldCorrect_fit, hval ▸ Nat.mod_lt _ hk.p_pos⟩

theorem fieldCorrect_eq_toLimbs : fieldCorrect k a = toLimbs k.W k.N (val k.W a % k.p) := by
  obtain ⟨hlen, hfit, -⟩ := fieldCorrect_canonical hk ha
  rw [← fieldCorrect_val_of_fieldElement hk ha]
  exact eq_toLimbs_val hlen hfit

end correction

section reduction
variable {k : ConstBundle} (hk : k.FieldReady)
include hk

/-- Below R*p the reducer gives a Field Element whose product with R has the residue of t. -/
theorem mredf_fieldElement {t : List Nat} (ht : t.length = 2 * k.N) (hfit : LimbsFit k.W t)
    (hlt : val k.W t < k.R * k.p) :
    FieldElement k (mredf k t).1 ∧ val k.W (mredf k t).1 * k.R ≡ val k.W t [MOD k.p] := by
  obtain ⟨-, -, hrange, hmod⟩ := mredf_isReduction hk.toReducerReady ht hfit hlt
  exact ⟨⟨mredf_length hk.sized.P ht, mredf_fit _ hfit, hrange⟩, hmod⟩

theorem modEq_of_mul_R {x y : Nat} (h : x * k.R ≡ y * k.R [MOD k.p]) : x ≡ y [MOD k.p] :=
  h.cancel_right_of_coprime (coprime_two_pow hk.odd _).symm

variable {x y : List Nat} (hx : FieldElement k x)
include hx

/-- FMUL's limbs for Field Elements. -/
theorem mredf_km (hy : FieldElement k y) :
    FieldElement k (mredf k (km k.W k.info.KDEPTH x y)).1 ∧
      val k.W (mredf k (km k.W k.info.KDEPTH x y)).1 * k.R ≡ val k.W x * val k.W y [MOD k.p] := by
  obtain ⟨hlx, fx, hx⟩ := hx
  obtain ⟨hly, fy, hy⟩ := hy
  obtain ⟨hlen, hfit, hval⟩ := km_product hk hlx hly fx fy
  rw [← hval]
  exact mredf_fieldElement hk hlen hfit (hval ▸ mul_lt_R_mul_p hk hx hy)

/-- A Field Element zero-extended to 2N limbs is below R*p. -/
theorem zeroExtended_fits :
    (x ++ List.replicate k.N 0).length = 2 * k.N ∧ LimbsFit k.W (x ++ List.replicate k.N 0) ∧
      val k.W (x ++ List.replicate k.N 0) < k.R * k.p := by
  obtain ⟨hlx, fx, hx⟩ := hx
  have hp := hk.p_pos
  have hroom := hk.room
  refine ⟨by simp [hlx, two_mul], limbsFit_append fx ?_, ?_⟩
  · simp only [LimbsFit, List.mem_replicate]
    rintro _ ⟨-, rfl⟩
    exact Nat.two_pow_pos _
  · rw [val_append_zeros]
    exact hx.trans_le (Nat.mul_le_mul_right _ (by omega))

/-- MRED's limbs for a zero-extended Field Element. -/
theorem mredf_zeroExtended :
    FieldElement k (mredf k (x ++ List.replicate k.N 0)).1 ∧
      val k.W (mredf k (x ++ List.replicate k.N 0)).1 * k.R ≡ val k.W x [MOD k.p] := by
  obtain ⟨hlen, hfit, hlt⟩ := zeroExtended_fits hk hx
  have hred := mredf_fieldElement hk hlen hfit hlt
  rwa [val_append_zeros] at hred

/-- The quotient of a number below 2p is at most p: with m <= R - 1, x + m*p < 2p + (R - 1)*p = R*p + p. -/
theorem mredf_zeroExtended_le : val k.W (mredf k (x ++ List.replicate k.N 0)).1 ≤ k.p := by
  obtain ⟨hlen, hfit, hlt⟩ := zeroExtended_fits hk hx
  obtain ⟨-, ⟨m, hm, -, hval⟩, -⟩ := mredf_isReduction hk.toReducerReady hlen hfit hlt
  obtain ⟨-, -, hx⟩ := hx
  have hp := hk.p_lt
  rw [val_append_zeros] at hval
  rw [hval]
  refine Nat.le_of_lt_succ ((Nat.div_lt_iff_lt_mul (Nat.two_pow_pos _)).mpr ?_)
  calc val k.W x + m * k.p < 2 * k.p + m * k.p := Nat.add_lt_add_right hx _
    _ = (m + 1) * k.p + k.p := by ring
    _ ≤ k.R * k.p + k.R := Nat.add_le_add (Nat.mul_le_mul_right _ hm) hp.le
    _ = (k.p + 1) * k.R := by ring

end reduction

/-- Settles O47: the sum of two canonical elements is a Field Element, and correction takes its remainder. -/
theorem correctionOfASumIsTheSumModP : Obligations.CorrectionOfASumIsTheSumModP := by
  intro s a b hs ha hb
  have hk := State.fieldReady_of_wf hs
  obtain ⟨hsum, hval⟩ := fieldElement_fieldAdd hk ha hb
  rw [fieldCorrect_eq_toLimbs hk hsum, hval]

/-- Settles O48: correction is the remainder modulo p, which is its own remainder. -/
theorem correctionIsIdempotentAndCanonical : Obligations.CorrectionIsIdempotentAndCanonical := by
  intro s a hs ha
  have hk := State.fieldReady_of_wf hs
  have hcan := fieldCorrect_canonical hk ha
  have hmod : val s.ps.W (fieldCorrect s.ps a) % s.ps.p = val s.ps.W a % s.ps.p := by
    rw [fieldCorrect_val_of_fieldElement hk ha, Nat.mod_mod]
  refine ⟨?_, hcan, hmod⟩
  rw [fieldCorrect_eq_toLimbs hk hcan.fieldElement, hmod, fieldCorrect_eq_toLimbs hk ha]

/-- Settles O49: the reduction of the product of xR and yR is congruent to xyR, the second reduction to xy, and correction
takes the remainder. -/
theorem montgomeryMultiplicationIsModularMultiplication :
    Obligations.MontgomeryMultiplicationIsModularMultiplication := by
  intro s x y hs _ _ a b product
  have hk := State.fieldReady_of_wf hs
  obtain ⟨ha, hvala⟩ : Canonical s.ps a ∧ val s.ps.W a = _ := canonical_toLimbs hk (Nat.mod_lt _ hk.p_pos)
  obtain ⟨hb, hvalb⟩ : Canonical s.ps b ∧ val s.ps.W b = _ := canonical_toLimbs hk (Nat.mod_lt _ hk.p_pos)
  obtain ⟨hprod, hprodR⟩ : FieldElement s.ps product ∧ _ ≡ _ [MOD s.ps.p] :=
    mredf_km hk ha.fieldElement hb.fieldElement
  obtain ⟨hout, houtR⟩ := mredf_zeroExtended hk hprod
  have hmont : val s.ps.W product ≡ x * y * s.ps.R [MOD s.ps.p] := by
    refine modEq_of_mul_R hk ?_
    calc val s.ps.W product * s.ps.R ≡ val s.ps.W a * val s.ps.W b [MOD s.ps.p] := hprodR
      _ = x * s.ps.R % s.ps.p * (y * s.ps.R % s.ps.p) := by rw [hvala, hvalb]
      _ ≡ x * s.ps.R * (y * s.ps.R) [MOD s.ps.p] := (Nat.mod_modEq _ _).mul (Nat.mod_modEq _ _)
      _ = x * y * s.ps.R * s.ps.R := by ring
  have hxy := modEq_of_mul_R hk (houtR.trans hmont)
  rw [fieldCorrect_eq_toLimbs hk hout, hxy]

/-- Settles O50: K.R2 is congruent to R^2, so the reduction of x times it is congruent to xR; both reductions divide by R. -/
theorem conversionsMultiplyByRAndItsInverse : Obligations.ConversionsMultiplyByRAndItsInverse := by
  intro s x hs hx
  have hk := State.fieldReady_of_wf hs
  have hR2 : Canonical s.ps s.ps.R2 := ⟨hk.sized.R2, hk.fit_R2, hk.val_R2 ▸ Nat.mod_lt _ hk.p_pos⟩
  obtain ⟨hin, hinR⟩ := mredf_km hk hx hR2.fieldElement
  obtain ⟨-, houtR⟩ := mredf_zeroExtended hk hx
  refine ⟨hin, modEq_of_mul_R hk (hinR.trans ?_), mredf_zeroExtended_le hk hx, houtR⟩
  calc val s.ps.W x * val s.ps.W s.ps.R2 = val s.ps.W x * (s.ps.R ^ 2 % s.ps.p) := by rw [hk.val_R2]
    _ ≡ val s.ps.W x * s.ps.R ^ 2 [MOD s.ps.p] := (Nat.mod_modEq _ _).mul_left _
    _ = val s.ps.W x * s.ps.R * s.ps.R := by ring

end Sys2Proof.Machine
end

section
/-! PROOFS. The rejection of a command and the order of its causes (60_exceptions.md rules R151, R154, over rule R65). -/

namespace Sys2Proof.Machine

/-- A word that is not answered OK is rejected, be it illegal or a command that is not admitted (rule R65). -/
theorem issue_rejected {w : BitVec 64} {s : State} (h : s.responseCode w ≠ .ok) :
    issue w s = .next (s.respond (s.responseCode w)) := by
  cases hw : decode w with
  | error code =>
    have hcode : s.responseCode w = code := by simp [State.responseCode, hw]
    rw [issue_of_decode_error hw, hcode]
  | ok i =>
    have hcode : s.responseCode w = s.admission i := by simp [State.responseCode, hw]
    rw [hcode] at h ⊢
    rw [issue_of_decode_ok hw, exec_rejected h]

section oneEngine
variable {s s' : State} (hps : s'.ps = s.ps) (hparams : s'.params = s.params)
include hps hparams

theorem State.responseCode_congr (w : BitVec 64) : s'.responseCode w = s.responseCode w := by
  simp [State.responseCode, State.admission, hps, hparams]

theorem State.issueDuration_congr (w : BitVec 64) : s'.issueDuration w = s.issueDuration w := by
  rw [State.issueDuration, State.issueDuration, State.responseCode_congr hps hparams, hps]

end oneEngine

/-- Settles O19: a rejection only sets the reply, and the code and the duration read PS and the parameters alone. -/
theorem rejectionChangesNothing : Obligations.RejectionChangesNothing := fun w _ hc =>
  ⟨⟨_, issue_rejected hc, rfl, rfl, rfl, rfl, rfl⟩, fun _ hps hparams =>
    ⟨State.responseCode_congr hps hparams w, State.issueDuration_congr hps hparams w⟩⟩

theorem exec_badAddr {i : Instr} {s : State} (hshape : shapeFits i = true)
    (h : ∃ x ∈ writtenBuffer s.ps.N i :: readOnlyBuffers s.ps.N i, s.params.omLimbs < x.base + x.len) :
    exec i s = s.reject .badAddr := by
  obtain ⟨x, hx, hpast⟩ := h
  exact exec_of_rejected (admission_badAddr hshape hx hpast) (by decide)

section inside
variable {i : Instr} {s : State} (hshape : shapeFits i = true)
  (hinside : ∀ x ∈ writtenBuffer s.ps.N i :: readOnlyBuffers s.ps.N i, x.base + x.len ≤ s.params.omLimbs)
include hshape hinside

theorem exec_badAlias
    (h : ∃ x ∈ readOnlyBuffers s.ps.N i, (writtenBuffer s.ps.N i).base < x.base + x.len ∧
      x.base < (writtenBuffer s.ps.N i).base + (writtenBuffer s.ps.N i).len) : exec i s = s.reject .badAlias := by
  obtain ⟨x, hx, hshared⟩ := h
  refine exec_of_rejected (admission_badAlias hshape (fun y hy => ?_) hx ?_) (by decide)
  · exact (y.inside_iff _).mpr (hinside y hy)
  · exact (Buffer.overlaps_iff _ x).mpr hshared

theorem admission_ok_of_disjoint
    (h : ∀ x ∈ readOnlyBuffers s.ps.N i, ¬((writtenBuffer s.ps.N i).base < x.base + x.len ∧
      x.base < (writtenBuffer s.ps.N i).base + (writtenBuffer s.ps.N i).len)) : s.admission i = .ok :=
  (admission_ok_iff _ _ _).mpr ⟨hshape, fun x hx => (x.inside_iff _).mpr (hinside x hx),
    fun x hx => (Buffer.overlaps_eq_false_iff _ x).mpr (h x hx)⟩

end inside

/-- Settles O20: one lemma per cause, in rule R65's order; each example of rule R154 is a case of them. -/
theorem admissionReportsTheFirstCause : Obligations.AdmissionReportsTheFirstCause := by
  refine ⟨fun s w hw => issue_of_decode_error hw s,
    fun s i => ⟨exec_badShape, exec_badAddr, exec_badAlias, admission_ok_of_disjoint⟩, fun s _ hom => ⟨?_, ?_, ?_, ?_⟩⟩
  · exact issue_of_decode_error (by decide) s
  · exact exec_badShape rfl
  · refine exec_badAddr rfl ⟨⟨1020, 8⟩, List.mem_cons_self, ?_⟩
    rw [hom]
    decide
  · exact exec_badAlias_of_two_sources rfl rfl rfl (by omega) (by omega) (by omega) (.inl (by decide))

end Sys2Proof.Machine
end

section
/-! PROOFS. The faults of the model and the completion of a command (60_exceptions.md rules R158, R160, 70_reset_and_hazards.md
rule R171): a fetch of an unwritten cell is the one way a command stops, and it stops at every one. -/

namespace Sys2Proof.Machine

/-- A command that faults is admitted and names an unwritten cell of a buffer it reads. -/
theorem exec_fault_unwritten {i : Instr} {s : State} {f : Fault} (he : exec i s = .fault f) :
    s.admission i = .ok ∧ ∃ a, f = .unwrittenCell a ∧ s.om.read a = none ∧
      ∃ x ∈ readBuffers s.ps.N i, x.contains a = true := by
  by_cases ha : s.admission i = .ok
  · obtain ⟨x, hx, hfetch⟩ := exec_fault ha he
    obtain ⟨j, hj, hnone, -, rfl⟩ := Memory.readMany_error hfetch
    exact ⟨ha, x.base + j, rfl, hnone, x, hx, (x.contains_iff _).mpr ⟨by omega, by omega⟩⟩
  · rw [exec_rejected ha] at he
    cases he

theorem hread_of_unwritten {a : Nat} {s : State} (ha : a < s.params.omLimbs) (h : s.om.read a = none) :
    hread a s = .fault (.unwrittenCell a) := by
  simp [hread, State.hasCell, ha, h]

theorem hreadc_of_unwritten {s : State} (h : s.c = none) : hreadc s = .fault .unwrittenFlag := by simp [hreadc, h]

/-- A byte read whose range touches an unwritten cell stops at this one or at an earlier one. -/
theorem Memory.readBytes_of_unwritten {W : Nat} {m : Memory} {b n j : Nat} (hj : j < n)
    (h : m.read ((b + j) / bytesPerLimb W) = none) : ∃ a, m.readBytes W b n = .error (.unwrittenCell a) := by
  induction n generalizing b j with
  | zero => omega
  | succ n ih =>
    cases hb : m.readByte W b with
    | none => exact ⟨b / bytesPerLimb W, by simp [Memory.readBytes, hb]⟩
    | some x =>
      cases j with
      | zero => simp [Memory.readByte, show m.read (b / bytesPerLimb W) = none from h] at hb
      | succ j =>
        rw [← Nat.add_assoc, Nat.add_right_comm] at h
        obtain ⟨a, ha⟩ := ih (b := b + 1) (by omega) h
        exact ⟨a, by simp [Memory.readBytes, hb, ha]⟩

theorem memRead_of_error {s : State} {b n : Nat} {f : Fault} (hW : s.ps.W % 8 = 0)
    (hb : b + n ≤ s.params.omLimbs * bytesPerLimb s.ps.W) (hf : s.om.readBytes s.ps.W b n = .error f) :
    memRead b n s = .fault f := by
  simp [memRead, State.hasBytePort, State.hasBytes, hW, hb, hf]

/-- Settles O21: a command's fault is a fetch's, an admitted command fetches every buffer it reads, and each read port stops on
what is unwritten. -/
theorem modelFaultsExactlyOnUnwrittenReads : Obligations.ModelFaultsExactlyOnUnwrittenReads := by
  refine ⟨fun i s f => exec_fault_unwritten, fun i s a ha hnone hcell => ?_, fun s a => hread_of_unwritten,
    fun s b n j hW hb hj hnone => ?_, fun s => hreadc_of_unwritten⟩
  · obtain ⟨x, hx, hin⟩ := hcell
    obtain ⟨hlo, hhi⟩ := (x.contains_iff a).mp hin
    obtain ⟨j, rfl⟩ := Nat.exists_eq_add_of_le hlo
    exact exec_fault_of_unwritten ha hx (by omega) hnone
  · obtain ⟨a, herr⟩ := Memory.readBytes_of_unwritten hj hnone
    exact ⟨a, memRead_of_error hW hb herr⟩

/-- Settles O22: of exec's outcomes a fault needs an unwritten cell and a refusal never comes; an admitted command's next state
is an executed one. -/
theorem admittedReadableCommandCompletes : Obligations.AdmittedReadableCommandCompletes := by
  intro i s ha hreadable
  cases he : exec i s with
  | next t =>
    obtain ⟨hrej, -⟩ | ⟨-, hdone⟩ := exec_next he
    · exact absurd ha hrej
    · exact ⟨t, rfl, hdone.reply⟩
  | fault f =>
    obtain ⟨-, a, -, hnone, x, hx, hin⟩ := exec_fault_unwritten he
    have hwritten : (s.om.read a).isSome = true := hreadable x hx a hin
    simp [hnone] at hwritten
  | refused r => exact absurd he exec_not_refused

end Sys2Proof.Machine
end

section
/-! PROOFS. The frame of the commands (60_exceptions.md rule R164, 20_memory.md rule R47, 10_state.md rule R23): what an executed
command leaves alone stands in `Executed`, but for the draw count, which only a command that ends in a reduction moves. -/

namespace Sys2Proof.Machine

/-- If the outcome is a next state, no draw was made on the way to it from `s` (43_montgomery.md rule R125). -/
def KeepsDraws (s : State) (o : Host.Outcome State Fault Refusal) : Prop := ∀ t, o = .next t → t.draws = s.draws

section KeepsDraws
variable {s : State}

theorem KeepsDraws.complete (dst : Nat) (xs : List Nat) : KeepsDraws s (s.complete dst xs) := by
  rintro t ⟨⟩
  rfl

theorem KeepsDraws.completeWithFlag (dst : Nat) (r : List Nat × Nat) : KeepsDraws s (s.completeWithFlag dst r) := by
  rintro t ⟨⟩
  rfl

theorem KeepsDraws.withBuffer {base n : Nat} {rest : List Nat → Host.Outcome State Fault Refusal}
    (h : ∀ xs, KeepsDraws s (rest xs)) : KeepsDraws s (s.withBuffer base n rest) := by
  intro t ht
  obtain ⟨xs, -, hxs⟩ := State.withBuffer_next_iff.mp ht
  exact h xs t hxs

theorem KeepsDraws.admitted {i : Instr} {run : Host.Outcome State Fault Refusal} (h : KeepsDraws s run) :
    KeepsDraws s (s.admitted i run) := by
  by_cases ha : s.admission i = .ok
  · rwa [State.admitted_ok ha]
  · rw [State.admitted_reject ha]
    rintro t ⟨⟩
    rfl

/-- The nine commands that end in no reduction make no draw. -/
theorem exec_keepsDraws {i : Instr} (hmred : ∀ dst src1, i ≠ .mred dst src1)
    (hfmul : ∀ dst src1 src2, i ≠ .fmul dst src1 src2) (hfsqr : ∀ dst src1, i ≠ .fsqr dst src1) : KeepsDraws s (exec i s) := by
  cases i with
  | add | sub => exact .admitted (.withBuffer fun _ => .withBuffer fun _ => .completeWithFlag _ _)
  | mac => exact .admitted (.withBuffer fun _ => .withBuffer fun _ => .withBuffer fun _ => .completeWithFlag _ _)
  | kmul | fadd | fsub => exact .admitted (.withBuffer fun _ => .withBuffer fun _ => .complete _ _)
  | fneg | fdiv2 | fcorr => exact .admitted (.withBuffer fun _ => .complete _ _)
  | mred => exact absurd rfl (hmred _ _)
  | fmul => exact absurd rfl (hfmul _ _ _)
  | fsqr => exact absurd rfl (hfsqr _ _)

end KeepsDraws

theorem writesFlag_eq_false {i : Instr} (hadd : ∀ dst src1 src2 len, i ≠ .add dst src1 src2 len)
    (hsub : ∀ dst src1 src2 len, i ≠ .sub dst src1 src2 len) (hmac : ∀ acc x y k m, i ≠ .mac acc x y k m) :
    writesFlag i = false := by
  simp [← Bool.not_eq_true, writesFlag_iff, hadd, hsub, hmac]

/-- The limbs an executed command writes fill its written buffer, so a cell outside reads as before. -/
theorem Executed.read_outside {i : Instr} {s t : State} (he : Executed i s t) (hs : s.wf = true) {a : Nat}
    (h : a < (writtenBuffer s.ps.N i).base ∨ (writtenBuffer s.ps.N i).base + (writtenBuffer s.ps.N i).len ≤ a) :
    t.om.read a = s.om.read a := by
  obtain ⟨-, -, hready⟩ := s.wf_iff.mp hs
  obtain ⟨xs, hom, hlen, -⟩ := he.memory
  rw [← hlen (State.bundle_sized hready)] at h
  rw [hom, Memory.read_writeMany_outside _ _ h]

/-- Settles O23: a rejection only sets the reply; an executed command writes its buffer, and the flag and a draw where it may. -/
theorem commandsChangeOnlyTheirDestination : Obligations.CommandsChangeOnlyTheirDestination := by
  intro i s t hs h
  obtain ⟨-, rfl⟩ | ⟨ha, he⟩ := exec_next h
  · exact ⟨fun _ _ => rfl, fun _ => ⟨rfl, rfl, rfl⟩, fun _ _ _ => rfl, fun _ _ _ => rfl, rfl, rfl, rfl⟩
  · exact ⟨fun a => he.read_outside hs, fun hrej => absurd ha hrej,
      fun hadd hsub hmac => he.flag (writesFlag_eq_false hadd hsub hmac),
      fun hmred hfmul hfsqr => exec_keepsDraws hmred hfmul hfsqr t h, he.ps, he.params, he.pending⟩

end Sys2Proof.Machine
end

section
/-! PROOFS. The reset (70_reset_and_hazards.md rule R170): what it answers for each kind of PSEL, and that the model's own reset
state, whose bundle passes the reset's check, is well-formed. -/

namespace Sys2Proof.Machine

theorem resetEngine_of_valid {psel : Nat} {s : State} {q : ParamSet} (hq : s.params.sets[psel]? = some q)
    (hv : q.Valid s.params.omLimbs) :
    resetEngine psel s = .next (({ s with ps := ConstBundle.ofParams q, om := [], c := none }).answer .done) := by
  rw [← validBundle_iff] at hv
  simp [resetEngine, hq, hv]

theorem resetEngine_of_no_bundle {psel : Nat} {s : State} (hq : s.params.sets[psel]? = none) :
    resetEngine psel s = .refused (.noSuchBundle psel) := by
  simp [resetEngine, hq]

/-- Settles O16: one lemma for each kind of PSEL; a valid bundle replaces PS and leaves no cell and no flag written. -/
theorem resetSelectsTheBundleAndClears : Obligations.ResetSelectsTheBundleAndClears := fun _ _ =>
  ⟨fun _ hq hv => ⟨_, resetEngine_of_valid hq hv, rfl, fun _ => rfl, rfl, rfl, rfl, Eq.symm⟩,
    fun _ => resetEngine_of_not_valid, resetEngine_of_no_bundle⟩

/-- The reference bundle passes the reset's check; its prime has a certificate. -/
theorem validBundle_P751 : validBundle .P751 EngineParams.reference.omLimbs = true := by decide +kernel

/-- Settles O28: nothing is written, and PS is the first bundle of the reference engine's list. -/
theorem resetStateIsWellFormed : Obligations.ResetStateIsWellFormed :=
  State.reset.wf_iff.mpr
    ⟨rfl, rfl, State.reset.bundleReady_iff.mpr ⟨.P751, List.mem_cons_self, validBundle_P751, rfl⟩⟩

end Sys2Proof.Machine
end

section
/-! PROOFS. Constant time (70_reset_and_hazards.md rules R176, R177): whether a fetch faults, and where, is a matter of which
cells are written; what a command does with the limbs it has fetched never decides between two outcomes. -/

namespace Sys2Proof.Machine

/-- Settles O26: the duration reads the opcode, the two lengths, the bundle and the code, and the code is the same on one
engine. -/
theorem durationDoesNotDependOnData : Obligations.DurationDoesNotDependOnData := by
  refine ⟨fun s s' w w' hps hop hla hlb hcode => ?_, fun s s' w hps hparams => State.issueDuration_congr hps hparams w⟩
  rw [State.issueDuration, State.issueDuration, hps, hop, hla, hlb, hcode]

/-- Fetches from two memories with the same written cells stop at the same cell, or both answer. -/
theorem Memory.readMany_congr {m m' : Memory} (h : ∀ a, (m.read a).isSome = (m'.read a).isSome) (a n : Nat) :
    (∃ f, m.readMany a n = .error f ∧ m'.readMany a n = .error f) ∨
      ∃ xs xs', m.readMany a n = .ok xs ∧ m'.readMany a n = .ok xs' := by
  induction n generalizing a with
  | zero => exact .inr ⟨[], [], rfl, rfl⟩
  | succ n ih =>
    cases hx : m.read a with
    | none =>
      have hx' : m'.read a = none := by simpa [hx] using h a
      exact .inl ⟨.unwrittenCell a, by simp [Memory.readMany, hx], by simp [Memory.readMany, hx']⟩
    | some x =>
      obtain ⟨x', hx'⟩ := Option.isSome_iff_exists.mp ((h a).symm.trans (by simp [hx]))
      obtain ⟨f, hf, hf'⟩ | ⟨xs, xs', hxs, hxs'⟩ := ih (a + 1)
      · exact .inl ⟨f, by simp [Memory.readMany, hx, hf], by simp [Memory.readMany, hx', hf']⟩
      · exact .inr ⟨x :: xs, x' :: xs', by simp [Memory.readMany, hx, hxs], by simp [Memory.readMany, hx', hxs']⟩

theorem faultOf_eq_some {o : Host.Outcome State Fault Refusal} {f : Fault} : faultOf o = some f ↔ o = .fault f := by
  cases o <;> simp [faultOf]

theorem State.admission_congr {s s' : State} (hparams : s.params = s'.params) (hps : s.ps = s'.ps) (i : Instr) :
    s.admission i = s'.admission i := by
  rw [State.admission, State.admission, hparams, hps]

section faultOf
variable {s s' : State} {i : Instr}

theorem faultOf_admitted_congr {run run' : Host.Outcome State Fault Refusal} (ha : s.admission i = s'.admission i)
    (h : faultOf run = faultOf run') : faultOf (s.admitted i run) = faultOf (s'.admitted i run') := by
  by_cases hok : s.admission i = .ok
  · rwa [State.admitted_ok hok, State.admitted_ok (ha ▸ hok)]
  · rw [State.admitted_reject hok, State.admitted_reject (ha ▸ hok)]
    rfl

variable (hcells : ∀ a, (s.om.read a).isSome = (s'.om.read a).isSome)
include hcells

theorem faultOf_withBuffer_congr {base n n' : Nat} {rest rest' : List Nat → Host.Outcome State Fault Refusal} (hn : n = n')
    (h : ∀ xs xs', faultOf (rest xs) = faultOf (rest' xs')) :
    faultOf (s.withBuffer base n rest) = faultOf (s'.withBuffer base n' rest') := by
  subst hn
  obtain ⟨f, hf, hf'⟩ | ⟨xs, xs', hxs, hxs'⟩ := Memory.readMany_congr hcells base n
  · rw [State.withBuffer_error hf, State.withBuffer_error hf']
  · rw [State.withBuffer_ok hxs, State.withBuffer_ok hxs', h]

/-- Every command is an admission, then fetches of sizes that N and its lengths give, then an end that cannot fault. -/
theorem faultOf_exec_congr (hparams : s.params = s'.params) (hps : s.ps = s'.ps) (i : Instr) :
    faultOf (exec i s) = faultOf (exec i s') := by
  have hN : s.ps.N = s'.ps.N := by rw [hps]
  have hadm := State.admission_congr hparams hps
  cases i with
  | add | sub =>
    exact faultOf_admitted_congr (hadm _) <| faultOf_withBuffer_congr hcells rfl fun _ _ =>
      faultOf_withBuffer_congr hcells rfl fun _ _ => rfl
  | mac =>
    exact faultOf_admitted_congr (hadm _) <| faultOf_withBuffer_congr hcells rfl fun _ _ =>
      faultOf_withBuffer_congr hcells rfl fun _ _ => faultOf_withBuffer_congr hcells rfl fun _ _ => rfl
  | kmul | fadd | fsub | fmul =>
    exact faultOf_admitted_congr (hadm _) <| faultOf_withBuffer_congr hcells hN fun _ _ =>
      faultOf_withBuffer_congr hcells hN fun _ _ => rfl
  | mred =>
    exact faultOf_admitted_congr (hadm _) <| faultOf_withBuffer_congr hcells (congrArg (2 * ·) hN) fun _ _ => rfl
  | fneg | fdiv2 | fcorr | fsqr =>
    exact faultOf_admitted_congr (hadm _) <| faultOf_withBuffer_congr hcells hN fun _ _ => rfl

end faultOf

/-- A command that does not fault answers a next state. -/
theorem exec_next_of_faultOf_eq_none {i : Instr} {s : State} (h : faultOf (exec i s) = none) : ∃ t, exec i s = .next t := by
  cases he : exec i s with
  | next t => exact ⟨t, rfl⟩
  | fault f => simp [he] at h
  | refused r => exact absurd he exec_not_refused

theorem executed_of_next {i : Instr} {s t : State} (ha : s.admission i = .ok) (h : exec i s = .next t) : Executed i s t := by
  obtain ⟨hrej, -⟩ | ⟨-, he⟩ := exec_next h
  · exact absurd ha hrej
  · exact he

/-- The limbs an executed command writes fill its written buffer, so every cell of it is written afterwards. -/
theorem Executed.written_inside {i : Instr} {s t : State} (he : Executed i s t) (hs : s.wf = true) {a : Nat}
    (h : (writtenBuffer s.ps.N i).contains a = true) : t.written a := by
  obtain ⟨-, -, hready⟩ := s.wf_iff.mp hs
  obtain ⟨xs, hom, hlen, -⟩ := he.memory
  rw [Buffer.contains_iff, ← hlen (State.bundle_sized hready)] at h
  rw [State.written, hom, Memory.read_writeMany, if_pos h, List.getElem?_eq_getElem (by omega), Option.isSome_some]

theorem Executed.read_of_not_contains {i : Instr} {s t : State} (he : Executed i s t) (hs : s.wf = true) {a : Nat}
    (h : (writtenBuffer s.ps.N i).contains a = false) : t.om.read a = s.om.read a := by
  refine he.read_outside hs ?_
  rw [← Bool.not_eq_true, Buffer.contains_iff] at h
  omega

/-- Settles O25: the admission is the same in both states; a rejection only sets the reply, and an admitted command faults in
both states or writes the same buffer in both. -/
theorem outcomeDoesNotDependOnLimbValues : Obligations.OutcomeDoesNotDependOnLimbValues := by
  intro i s s' hs hs' hparams hps hcells
  have hfault := faultOf_exec_congr hcells hparams hps i
  have hadm := State.admission_congr hparams hps i
  refine ⟨fun f => by rw [← faultOf_eq_some, hfault, faultOf_eq_some], fun t ht => ?_⟩
  by_cases ha : s.admission i = .ok
  · obtain ⟨t', ht'⟩ := exec_next_of_faultOf_eq_none (i := i) (s := s') (by rw [← hfault, ht, faultOf_next])
    have he := executed_of_next ha ht
    have he' := executed_of_next (hadm ▸ ha) ht'
    have hinside a (h : (writtenBuffer s.ps.N i).contains a = true) : t.written a ∧ t'.written a :=
      ⟨he.written_inside hs h, he'.written_inside hs' (hps ▸ h)⟩
    have houtside a (h : (writtenBuffer s.ps.N i).contains a = false) :
        t.om.read a = s.om.read a ∧ t'.om.read a = s'.om.read a :=
      ⟨he.read_of_not_contains hs h, he'.read_of_not_contains hs' (hps ▸ h)⟩
    refine ⟨t', .ok, ht', he.reply, he'.reply, fun a => ?_, houtside, fun _ => hinside, fun hne => absurd rfl hne⟩
    cases h : (writtenBuffer s.ps.N i).contains a with
    | true =>
      obtain ⟨hw, hw'⟩ := hinside a h
      exact hw.trans hw'.symm
    | false =>
      obtain ⟨hr, hr'⟩ := houtside a h
      rw [hr, hr', hcells a]
  · rw [exec_rejected ha] at ht
    cases ht
    refine ⟨s'.respond (s.admission i), s.admission i, ?_, rfl, rfl, hcells, fun _ _ => ⟨rfl, rfl⟩,
      fun hok => absurd hok ha, fun _ => ⟨rfl, rfl⟩⟩
    rw [hadm, exec_rejected (hadm ▸ ha)]

end Sys2Proof.Machine
end
